-- ==== Sys2Proof/Word.lean ====
section
/-! DEFINITION. The word types of the CORE and the names of its access widths.
Spec: `00_scope.md` R8 to R10, `10_state.md` R30, R44, R50. -/

namespace Sys2Proof

/-- A register, address, instruction or data word (R8, R10). Arithmetic on it is modulo 2^32. -/
abbrev Word := BitVec 32

/-- One addressable byte of memory. -/
abbrev Byte := BitVec 8

/-- The contents of one 16-bit memory cell (R44): the high lane is the odd address's byte (R62). -/
abbrev CellWord := BitVec 16

/-- The index of a general register, `x0` to `x31` (R30). -/
abbrev RegIdx := Fin 32

/-- The access widths of the MMU (R66). -/
inductive Width where
  | byte
  | half
  | word
  deriving DecidableEq, Repr, Inhabited

/-- The load widths that select `LOAD_RESOLVE[width]` (R47, R50). -/
inductive LoadKind where
  | w
  | h
  | hu
  | b
  | bu
  deriving DecidableEq, Repr, Inhabited

end Sys2Proof
end

