-- ==== Sys2Proof/Syntax.lean ====
section
/-! DEFINITION. The instructions: one constructor for each of the 40 rows of `opcode_table.json`
(`30_encoding.md` R126). Operand order is `rd`, `rs1`, `rs2`, immediate. -/

namespace Sys2Proof

/-- A decoded instruction, with every field of its word that the layout of R121 gives it.
Immediates are the raw fields; `offset` is the whole byte offset, whose bit 0 the layout fixes at 0. -/
inductive Instr where
  | lb (rd rs1 : RegIdx) (imm : BitVec 12)
  | lh (rd rs1 : RegIdx) (imm : BitVec 12)
  | lw (rd rs1 : RegIdx) (imm : BitVec 12)
  | lbu (rd rs1 : RegIdx) (imm : BitVec 12)
  | lhu (rd rs1 : RegIdx) (imm : BitVec 12)
  | fence (rd rs1 : RegIdx) (fm pred succ : BitVec 4)
  | addi (rd rs1 : RegIdx) (imm : BitVec 12)
  | slti (rd rs1 : RegIdx) (imm : BitVec 12)
  | sltiu (rd rs1 : RegIdx) (imm : BitVec 12)
  | xori (rd rs1 : RegIdx) (imm : BitVec 12)
  | ori (rd rs1 : RegIdx) (imm : BitVec 12)
  | andi (rd rs1 : RegIdx) (imm : BitVec 12)
  | slli (rd rs1 : RegIdx) (shamt : BitVec 5)
  | srli (rd rs1 : RegIdx) (shamt : BitVec 5)
  | srai (rd rs1 : RegIdx) (shamt : BitVec 5)
  | add (rd rs1 rs2 : RegIdx)
  | sub (rd rs1 rs2 : RegIdx)
  | sll (rd rs1 rs2 : RegIdx)
  | slt (rd rs1 rs2 : RegIdx)
  | sltu (rd rs1 rs2 : RegIdx)
  | xor (rd rs1 rs2 : RegIdx)
  | srl (rd rs1 rs2 : RegIdx)
  | sra (rd rs1 rs2 : RegIdx)
  | or (rd rs1 rs2 : RegIdx)
  | and (rd rs1 rs2 : RegIdx)
  | lui (rd : RegIdx) (imm : BitVec 20)
  | auipc (rd : RegIdx) (imm : BitVec 20)
  | sb (rs1 rs2 : RegIdx) (imm : BitVec 12)
  | sh (rs1 rs2 : RegIdx) (imm : BitVec 12)
  | sw (rs1 rs2 : RegIdx) (imm : BitVec 12)
  | beq (rs1 rs2 : RegIdx) (offset : BitVec 13)
  | bne (rs1 rs2 : RegIdx) (offset : BitVec 13)
  | blt (rs1 rs2 : RegIdx) (offset : BitVec 13)
  | bge (rs1 rs2 : RegIdx) (offset : BitVec 13)
  | bltu (rs1 rs2 : RegIdx) (offset : BitVec 13)
  | bgeu (rs1 rs2 : RegIdx) (offset : BitVec 13)
  | jal (rd : RegIdx) (offset : BitVec 21)
  | jalr (rd rs1 : RegIdx) (imm : BitVec 12)
  | ecall
  | ebreak
  deriving DecidableEq, Repr

end Sys2Proof
end

