-- ==== Sys2Proof/WellFormed.lean ====
section
/-! DEFINITION. Which instructions the layouts of `30_encoding.md` R121 and R122 can encode.
The only field that admits a value no word holds is the byte offset of a branch or JAL: "`imm_B` and
`imm_J` are always even (bit 0 is the constant 0)" (R122). -/

namespace Sys2Proof

/-- A branch offset is even. -/
def branchOffsetOk (offset : BitVec 13) : Bool := !offset.getLsbD 0

/-- A JAL offset is even. -/
def jumpOffsetOk (offset : BitVec 21) : Bool := !offset.getLsbD 0

/-- The check of one instruction. -/
def Instr.wellFormed : Instr → Bool
  | .lb _ _ _ => true
  | .lh _ _ _ => true
  | .lw _ _ _ => true
  | .lbu _ _ _ => true
  | .lhu _ _ _ => true
  | .fence _ _ _ _ _ => true
  | .addi _ _ _ => true
  | .slti _ _ _ => true
  | .sltiu _ _ _ => true
  | .xori _ _ _ => true
  | .ori _ _ _ => true
  | .andi _ _ _ => true
  | .slli _ _ _ => true
  | .srli _ _ _ => true
  | .srai _ _ _ => true
  | .add _ _ _ => true
  | .sub _ _ _ => true
  | .sll _ _ _ => true
  | .slt _ _ _ => true
  | .sltu _ _ _ => true
  | .xor _ _ _ => true
  | .srl _ _ _ => true
  | .sra _ _ _ => true
  | .or _ _ _ => true
  | .and _ _ _ => true
  | .lui _ _ => true
  | .auipc _ _ => true
  | .sb _ _ _ => true
  | .sh _ _ _ => true
  | .sw _ _ _ => true
  | .beq _ _ offset => branchOffsetOk offset
  | .bne _ _ offset => branchOffsetOk offset
  | .blt _ _ offset => branchOffsetOk offset
  | .bge _ _ offset => branchOffsetOk offset
  | .bltu _ _ offset => branchOffsetOk offset
  | .bgeu _ _ offset => branchOffsetOk offset
  | .jal _ offset => jumpOffsetOk offset
  | .jalr _ _ _ => true
  | .ecall => true
  | .ebreak => true

/-- The instruction is one that a 32-bit word encodes. -/
abbrev WellFormed (i : Instr) : Prop := i.wellFormed = true

end Sys2Proof
end

