-- ==== Sys2Proof/Decode.lean ====
section
/-! DEFINITION. The decoder, the encoder and the opcode table (`30_encoding.md`).
Field positions, opcodes and funct values are the spec's R121, R122, R125 and R126, which it supplies
from general knowledge (G1 to G7; log 19). -/

namespace Sys2Proof

/-! ### Fields of a word (R121, R122) -/

/-- `opcode = insn[6:0]`. -/
def fieldOpcode (w : Word) : BitVec 7 := w.extractLsb' 0 7

/-- `funct3 = insn[14:12]`. -/
def fieldFunct3 (w : Word) : BitVec 3 := w.extractLsb' 12 3

/-- `funct7 = insn[31:25]`. -/
def fieldFunct7 (w : Word) : BitVec 7 := w.extractLsb' 25 7

/-- A five-bit register field as an index (R124). -/
def regOfBits (b : BitVec 5) : RegIdx := ⟨b.toNat, b.isLt⟩

/-- A register index as its five-bit field. -/
def bitsOfReg (r : RegIdx) : BitVec 5 := BitVec.ofFin r

/-- `rd = insn[11:7]`. -/
def fieldRd (w : Word) : RegIdx := regOfBits (w.extractLsb' 7 5)

/-- `rs1 = insn[19:15]`. -/
def fieldRs1 (w : Word) : RegIdx := regOfBits (w.extractLsb' 15 5)

/-- `rs2 = insn[24:20]`. -/
def fieldRs2 (w : Word) : RegIdx := regOfBits (w.extractLsb' 20 5)

/-- `shamt = insn[24:20]` (R123). -/
def fieldShamt (w : Word) : BitVec 5 := w.extractLsb' 20 5

/-- The I immediate's field, `insn[31:20]`. -/
def fieldImmI (w : Word) : BitVec 12 := w.extractLsb' 20 12

/-- The S immediate's field, `{insn[31:25], insn[11:7]}`. -/
def fieldImmS (w : Word) : BitVec 12 := w.extractLsb' 25 7 ++ w.extractLsb' 7 5

/-- The B offset, `{insn[31], insn[7], insn[30:25], insn[11:8], 0b0}`. -/
def fieldImmB (w : Word) : BitVec 13 :=
  w.extractLsb' 31 1 ++ (w.extractLsb' 7 1 ++ (w.extractLsb' 25 6 ++ (w.extractLsb' 8 4 ++ 0#1)))

/-- The U immediate's field, `insn[31:12]`. -/
def fieldImmU (w : Word) : BitVec 20 := w.extractLsb' 12 20

/-- The J offset, `{insn[31], insn[19:12], insn[20], insn[30:21], 0b0}`. -/
def fieldImmJ (w : Word) : BitVec 21 :=
  w.extractLsb' 31 1 ++ (w.extractLsb' 12 8 ++ (w.extractLsb' 20 1 ++ (w.extractLsb' 21 10 ++ 0#1)))

/-! ### The decoder (R125 to R131) -/

/-- Why a word is `Illegal` (R127, R131), by the field that no row of R126 admits. -/
inductive DecodeError where
  /-- Fewer than four bytes were given (R120, R129: there is one length). -/
  | truncated (available : Nat)
  /-- No major opcode of R125. -/
  | unknownOpcode (opcode : BitVec 7)
  /-- A funct3 that R126 does not list under the opcode (R206, R221, R284, R298, D14). -/
  | unknownFunct3 (opcode : BitVec 7) (funct3 : BitVec 3)
  /-- A function field `insn[31:25]` that R252 makes illegal. -/
  | unknownFunct7 (opcode : BitVec 7) (funct3 : BitVec 3) (funct7 : BitVec 7)
  /-- A SYSTEM word other than ECALL and EBREAK (R322). -/
  | unknownSystem (word : Word)
  deriving DecidableEq, Repr

/-- A decoded instruction or the reason there is none. -/
abbrev DecodeResult := Except DecodeError Instr

/-- LOAD (R126, R206). -/
def decodeLoad (w : Word) : DecodeResult :=
  let f3 := fieldFunct3 w
  if f3 = 0b000#3 then .ok (.lb (fieldRd w) (fieldRs1 w) (fieldImmI w))
  else if f3 = 0b001#3 then .ok (.lh (fieldRd w) (fieldRs1 w) (fieldImmI w))
  else if f3 = 0b010#3 then .ok (.lw (fieldRd w) (fieldRs1 w) (fieldImmI w))
  else if f3 = 0b100#3 then .ok (.lbu (fieldRd w) (fieldRs1 w) (fieldImmI w))
  else if f3 = 0b101#3 then .ok (.lhu (fieldRd w) (fieldRs1 w) (fieldImmI w))
  else .error (.unknownFunct3 0x03#7 f3)

/-- MISC-MEM: FENCE for funct3 000, whatever the other fields (R220, R221, D15). -/
def decodeMiscMem (w : Word) : DecodeResult :=
  let f3 := fieldFunct3 w
  if f3 = 0b000#3 then
    .ok (.fence (fieldRd w) (fieldRs1 w) (w.extractLsb' 28 4) (w.extractLsb' 24 4) (w.extractLsb' 20 4))
  else .error (.unknownFunct3 0x0F#7 f3)

/-- OP-IMM (R126); the shifts check `insn[31:25]` (R252, D12). -/
def decodeOpImm (w : Word) : DecodeResult :=
  let f3 := fieldFunct3 w
  let f7 := fieldFunct7 w
  if f3 = 0b000#3 then .ok (.addi (fieldRd w) (fieldRs1 w) (fieldImmI w))
  else if f3 = 0b010#3 then .ok (.slti (fieldRd w) (fieldRs1 w) (fieldImmI w))
  else if f3 = 0b011#3 then .ok (.sltiu (fieldRd w) (fieldRs1 w) (fieldImmI w))
  else if f3 = 0b100#3 then .ok (.xori (fieldRd w) (fieldRs1 w) (fieldImmI w))
  else if f3 = 0b110#3 then .ok (.ori (fieldRd w) (fieldRs1 w) (fieldImmI w))
  else if f3 = 0b111#3 then .ok (.andi (fieldRd w) (fieldRs1 w) (fieldImmI w))
  else if f3 = 0b001#3 ∧ f7 = 0b0000000#7 then .ok (.slli (fieldRd w) (fieldRs1 w) (fieldShamt w))
  else if f3 = 0b101#3 ∧ f7 = 0b0000000#7 then .ok (.srli (fieldRd w) (fieldRs1 w) (fieldShamt w))
  else if f3 = 0b101#3 ∧ f7 = 0b0100000#7 then .ok (.srai (fieldRd w) (fieldRs1 w) (fieldShamt w))
  else .error (.unknownFunct7 0x13#7 f3 f7)

/-- OP (R126, R252, D11). -/
def decodeOp (w : Word) : DecodeResult :=
  let f3 := fieldFunct3 w
  let f7 := fieldFunct7 w
  if f7 = 0b0000000#7 then
    if f3 = 0b000#3 then .ok (.add (fieldRd w) (fieldRs1 w) (fieldRs2 w))
    else if f3 = 0b001#3 then .ok (.sll (fieldRd w) (fieldRs1 w) (fieldRs2 w))
    else if f3 = 0b010#3 then .ok (.slt (fieldRd w) (fieldRs1 w) (fieldRs2 w))
    else if f3 = 0b011#3 then .ok (.sltu (fieldRd w) (fieldRs1 w) (fieldRs2 w))
    else if f3 = 0b100#3 then .ok (.xor (fieldRd w) (fieldRs1 w) (fieldRs2 w))
    else if f3 = 0b101#3 then .ok (.srl (fieldRd w) (fieldRs1 w) (fieldRs2 w))
    else if f3 = 0b110#3 then .ok (.or (fieldRd w) (fieldRs1 w) (fieldRs2 w))
    else .ok (.and (fieldRd w) (fieldRs1 w) (fieldRs2 w))
  else if f7 = 0b0100000#7 ∧ f3 = 0b000#3 then .ok (.sub (fieldRd w) (fieldRs1 w) (fieldRs2 w))
  else if f7 = 0b0100000#7 ∧ f3 = 0b101#3 then .ok (.sra (fieldRd w) (fieldRs1 w) (fieldRs2 w))
  else .error (.unknownFunct7 0x33#7 f3 f7)

/-- STORE (R126, R284). -/
def decodeStore (w : Word) : DecodeResult :=
  let f3 := fieldFunct3 w
  if f3 = 0b000#3 then .ok (.sb (fieldRs1 w) (fieldRs2 w) (fieldImmS w))
  else if f3 = 0b001#3 then .ok (.sh (fieldRs1 w) (fieldRs2 w) (fieldImmS w))
  else if f3 = 0b010#3 then .ok (.sw (fieldRs1 w) (fieldRs2 w) (fieldImmS w))
  else .error (.unknownFunct3 0x23#7 f3)

/-- BRANCH (R126, R298). -/
def decodeBranch (w : Word) : DecodeResult :=
  let f3 := fieldFunct3 w
  if f3 = 0b000#3 then .ok (.beq (fieldRs1 w) (fieldRs2 w) (fieldImmB w))
  else if f3 = 0b001#3 then .ok (.bne (fieldRs1 w) (fieldRs2 w) (fieldImmB w))
  else if f3 = 0b100#3 then .ok (.blt (fieldRs1 w) (fieldRs2 w) (fieldImmB w))
  else if f3 = 0b101#3 then .ok (.bge (fieldRs1 w) (fieldRs2 w) (fieldImmB w))
  else if f3 = 0b110#3 then .ok (.bltu (fieldRs1 w) (fieldRs2 w) (fieldImmB w))
  else if f3 = 0b111#3 then .ok (.bgeu (fieldRs1 w) (fieldRs2 w) (fieldImmB w))
  else .error (.unknownFunct3 0x63#7 f3)

/-- JALR (R311, D14). -/
def decodeJalr (w : Word) : DecodeResult :=
  let f3 := fieldFunct3 w
  if f3 = 0b000#3 then .ok (.jalr (fieldRd w) (fieldRs1 w) (fieldImmI w))
  else .error (.unknownFunct3 0x67#7 f3)

/-- SYSTEM: the two whole words only (R322, D13). -/
def decodeSystem (w : Word) : DecodeResult :=
  if w = 0x00000073#32 then .ok .ecall
  else if w = 0x00100073#32 then .ok .ebreak
  else .error (.unknownSystem w)

/-- `Decode(w)` of R127, by major opcode (R125). -/
def decodeWord (w : Word) : DecodeResult :=
  let op := fieldOpcode w
  if op = 0x03#7 then decodeLoad w
  else if op = 0x0F#7 then decodeMiscMem w
  else if op = 0x13#7 then decodeOpImm w
  else if op = 0x17#7 then .ok (.auipc (fieldRd w) (fieldImmU w))
  else if op = 0x23#7 then decodeStore w
  else if op = 0x33#7 then decodeOp w
  else if op = 0x37#7 then .ok (.lui (fieldRd w) (fieldImmU w))
  else if op = 0x63#7 then decodeBranch w
  else if op = 0x67#7 then decodeJalr w
  else if op = 0x6F#7 then .ok (.jal (fieldRd w) (fieldImmJ w))
  else if op = 0x73#7 then decodeSystem w
  else .error (.unknownOpcode op)

/-- The word whose bytes, lowest address first, are `b0 b1 b2 b3` (R120). -/
def wordOfBytes (b0 b1 b2 b3 : Byte) : Word := b3 ++ (b2 ++ (b1 ++ b0))

/-- The four bytes of a word, lowest address first (R120). -/
def bytesOfWord (w : Word) : List Byte :=
  [w.extractLsb' 0 8, w.extractLsb' 8 8, w.extractLsb' 16 8, w.extractLsb' 24 8]

/-- The decoder on bytes: the first four make the word, the rest is handed back. -/
def decode : List Byte → Except DecodeError (Instr × List Byte)
  | b0 :: b1 :: b2 :: b3 :: rest =>
    match decodeWord (wordOfBytes b0 b1 b2 b3) with
    | .ok i => .ok (i, rest)
    | .error e => .error e
  | bytes => .error (.truncated bytes.length)

/-- The host's word of `nbits` bits, laid out in memory order and given to the decoder. -/
def decodeTableWord (nbits w : Nat) : Option Instr :=
  match decode (bytesOfWord (BitVec.ofNat 32 (w % 2 ^ nbits))) with
  | .ok (i, _) => some i
  | .error _ => none

/-! ### The encoder (R121, R122, R126) -/

/-- R layout. -/
def encodeR (funct7 : BitVec 7) (rs2 rs1 : RegIdx) (funct3 : BitVec 3) (rd : RegIdx) (op : BitVec 7) : Word :=
  funct7 ++ (bitsOfReg rs2 ++ (bitsOfReg rs1 ++ (funct3 ++ (bitsOfReg rd ++ op))))

/-- I layout. -/
def encodeI (imm : BitVec 12) (rs1 : RegIdx) (funct3 : BitVec 3) (rd : RegIdx) (op : BitVec 7) : Word :=
  imm ++ (bitsOfReg rs1 ++ (funct3 ++ (bitsOfReg rd ++ op)))

/-- I layout of an OP-IMM shift: the function field and the shift amount make the immediate (R123). -/
def encodeShift (funct7 : BitVec 7) (shamt : BitVec 5) (rs1 : RegIdx) (funct3 : BitVec 3) (rd : RegIdx) : Word :=
  encodeI (funct7 ++ shamt) rs1 funct3 rd 0x13#7

/-- S layout. -/
def encodeS (imm : BitVec 12) (rs2 rs1 : RegIdx) (funct3 : BitVec 3) : Word :=
  imm.extractLsb' 5 7 ++ (bitsOfReg rs2 ++ (bitsOfReg rs1 ++ (funct3 ++ (imm.extractLsb' 0 5 ++ 0x23#7))))

/-- B layout: bit 31 is `imm[12]`, bits 30:25 `imm[10:5]`, bits 11:8 `imm[4:1]`, bit 7 `imm[11]`. -/
def encodeB (offset : BitVec 13) (rs2 rs1 : RegIdx) (funct3 : BitVec 3) : Word :=
  offset.extractLsb' 12 1 ++ (offset.extractLsb' 5 6 ++ (bitsOfReg rs2 ++ (bitsOfReg rs1 ++ (funct3 ++
    (offset.extractLsb' 1 4 ++ (offset.extractLsb' 11 1 ++ 0x63#7))))))

/-- U layout. -/
def encodeU (imm : BitVec 20) (rd : RegIdx) (op : BitVec 7) : Word :=
  imm ++ (bitsOfReg rd ++ op)

/-- J layout: bit 31 is `imm[20]`, bits 30:21 `imm[10:1]`, bit 20 `imm[11]`, bits 19:12 `imm[19:12]`. -/
def encodeJ (offset : BitVec 21) (rd : RegIdx) : Word :=
  offset.extractLsb' 20 1 ++ (offset.extractLsb' 1 10 ++ (offset.extractLsb' 11 1 ++
    (offset.extractLsb' 12 8 ++ (bitsOfReg rd ++ 0x6F#7))))

/-- The word of an instruction; for a well-formed one, the only word that decodes to it. -/
def encode : Instr → Word
  | .lb rd rs1 imm => encodeI imm rs1 0b000#3 rd 0x03#7
  | .lh rd rs1 imm => encodeI imm rs1 0b001#3 rd 0x03#7
  | .lw rd rs1 imm => encodeI imm rs1 0b010#3 rd 0x03#7
  | .lbu rd rs1 imm => encodeI imm rs1 0b100#3 rd 0x03#7
  | .lhu rd rs1 imm => encodeI imm rs1 0b101#3 rd 0x03#7
  | .fence rd rs1 fm pred succ => encodeI (fm ++ (pred ++ succ)) rs1 0b000#3 rd 0x0F#7
  | .addi rd rs1 imm => encodeI imm rs1 0b000#3 rd 0x13#7
  | .slti rd rs1 imm => encodeI imm rs1 0b010#3 rd 0x13#7
  | .sltiu rd rs1 imm => encodeI imm rs1 0b011#3 rd 0x13#7
  | .xori rd rs1 imm => encodeI imm rs1 0b100#3 rd 0x13#7
  | .ori rd rs1 imm => encodeI imm rs1 0b110#3 rd 0x13#7
  | .andi rd rs1 imm => encodeI imm rs1 0b111#3 rd 0x13#7
  | .slli rd rs1 shamt => encodeShift 0b0000000#7 shamt rs1 0b001#3 rd
  | .srli rd rs1 shamt => encodeShift 0b0000000#7 shamt rs1 0b101#3 rd
  | .srai rd rs1 shamt => encodeShift 0b0100000#7 shamt rs1 0b101#3 rd
  | .add rd rs1 rs2 => encodeR 0b0000000#7 rs2 rs1 0b000#3 rd 0x33#7
  | .sub rd rs1 rs2 => encodeR 0b0100000#7 rs2 rs1 0b000#3 rd 0x33#7
  | .sll rd rs1 rs2 => encodeR 0b0000000#7 rs2 rs1 0b001#3 rd 0x33#7
  | .slt rd rs1 rs2 => encodeR 0b0000000#7 rs2 rs1 0b010#3 rd 0x33#7
  | .sltu rd rs1 rs2 => encodeR 0b0000000#7 rs2 rs1 0b011#3 rd 0x33#7
  | .xor rd rs1 rs2 => encodeR 0b0000000#7 rs2 rs1 0b100#3 rd 0x33#7
  | .srl rd rs1 rs2 => encodeR 0b0000000#7 rs2 rs1 0b101#3 rd 0x33#7
  | .sra rd rs1 rs2 => encodeR 0b0100000#7 rs2 rs1 0b101#3 rd 0x33#7
  | .or rd rs1 rs2 => encodeR 0b0000000#7 rs2 rs1 0b110#3 rd 0x33#7
  | .and rd rs1 rs2 => encodeR 0b0000000#7 rs2 rs1 0b111#3 rd 0x33#7
  | .lui rd imm => encodeU imm rd 0x37#7
  | .auipc rd imm => encodeU imm rd 0x17#7
  | .sb rs1 rs2 imm => encodeS imm rs2 rs1 0b000#3
  | .sh rs1 rs2 imm => encodeS imm rs2 rs1 0b001#3
  | .sw rs1 rs2 imm => encodeS imm rs2 rs1 0b010#3
  | .beq rs1 rs2 offset => encodeB offset rs2 rs1 0b000#3
  | .bne rs1 rs2 offset => encodeB offset rs2 rs1 0b001#3
  | .blt rs1 rs2 offset => encodeB offset rs2 rs1 0b100#3
  | .bge rs1 rs2 offset => encodeB offset rs2 rs1 0b101#3
  | .bltu rs1 rs2 offset => encodeB offset rs2 rs1 0b110#3
  | .bgeu rs1 rs2 offset => encodeB offset rs2 rs1 0b111#3
  | .jal rd offset => encodeJ offset rd
  | .jalr rd rs1 imm => encodeI imm rs1 0b000#3 rd 0x67#7
  | .ecall => 0x00000073#32
  | .ebreak => 0x00100073#32

/-- The bytes of an instruction, lowest address first. -/
def encodeBytes (i : Instr) : List Byte := bytesOfWord (encode i)

/-! ### The opcode table -/

/-- A row of `opcode_table.json`: a word `w` matches it when `w & mask == match` (R127). -/
structure OpcodeRow where
  mnemonic : String
  matchBits : Word
  maskBits : Word
  deriving DecidableEq, Repr

/-- `w & mask == match`. -/
def OpcodeRow.matches (r : OpcodeRow) (w : Word) : Bool := w &&& r.maskBits == r.matchBits

/-- Rows of `41_loads.md`. -/
def tableLoads : List OpcodeRow :=
  [⟨"LB", 0x00000003#32, 0x0000707F#32⟩,
   ⟨"LH", 0x00001003#32, 0x0000707F#32⟩,
   ⟨"LW", 0x00002003#32, 0x0000707F#32⟩,
   ⟨"LBU", 0x00004003#32, 0x0000707F#32⟩,
   ⟨"LHU", 0x00005003#32, 0x0000707F#32⟩]

/-- Rows of `42_misc_mem.md` and OP-IMM. -/
def tableOpImm : List OpcodeRow :=
  [⟨"FENCE", 0x0000000F#32, 0x0000707F#32⟩,
   ⟨"ADDI", 0x00000013#32, 0x0000707F#32⟩,
   ⟨"SLTI", 0x00002013#32, 0x0000707F#32⟩,
   ⟨"SLTIU", 0x00003013#32, 0x0000707F#32⟩,
   ⟨"XORI", 0x00004013#32, 0x0000707F#32⟩,
   ⟨"ORI", 0x00006013#32, 0x0000707F#32⟩,
   ⟨"ANDI", 0x00007013#32, 0x0000707F#32⟩,
   ⟨"SLLI", 0x00001013#32, 0xFE00707F#32⟩,
   ⟨"SRLI", 0x00005013#32, 0xFE00707F#32⟩,
   ⟨"SRAI", 0x40005013#32, 0xFE00707F#32⟩]

/-- Rows of OP. -/
def tableOp : List OpcodeRow :=
  [⟨"ADD", 0x00000033#32, 0xFE00707F#32⟩,
   ⟨"SUB", 0x40000033#32, 0xFE00707F#32⟩,
   ⟨"SLL", 0x00001033#32, 0xFE00707F#32⟩,
   ⟨"SLT", 0x00002033#32, 0xFE00707F#32⟩,
   ⟨"SLTU", 0x00003033#32, 0xFE00707F#32⟩,
   ⟨"XOR", 0x00004033#32, 0xFE00707F#32⟩,
   ⟨"SRL", 0x00005033#32, 0xFE00707F#32⟩,
   ⟨"SRA", 0x40005033#32, 0xFE00707F#32⟩,
   ⟨"OR", 0x00006033#32, 0xFE00707F#32⟩,
   ⟨"AND", 0x00007033#32, 0xFE00707F#32⟩]

/-- Rows of `44_upper_imm.md` and `45_stores.md`. -/
def tableUpperStore : List OpcodeRow :=
  [⟨"LUI", 0x00000037#32, 0x0000007F#32⟩,
   ⟨"AUIPC", 0x00000017#32, 0x0000007F#32⟩,
   ⟨"SB", 0x00000023#32, 0x0000707F#32⟩,
   ⟨"SH", 0x00001023#32, 0x0000707F#32⟩,
   ⟨"SW", 0x00002023#32, 0x0000707F#32⟩]

/-- Rows of `46_branches.md` to `48_system.md`. -/
def tableControl : List OpcodeRow :=
  [⟨"BEQ", 0x00000063#32, 0x0000707F#32⟩,
   ⟨"BNE", 0x00001063#32, 0x0000707F#32⟩,
   ⟨"BLT", 0x00004063#32, 0x0000707F#32⟩,
   ⟨"BGE", 0x00005063#32, 0x0000707F#32⟩,
   ⟨"BLTU", 0x00006063#32, 0x0000707F#32⟩,
   ⟨"BGEU", 0x00007063#32, 0x0000707F#32⟩,
   ⟨"JAL", 0x0000006F#32, 0x0000007F#32⟩,
   ⟨"JALR", 0x00000067#32, 0x0000707F#32⟩,
   ⟨"ECALL", 0x00000073#32, 0xFFFFFFFF#32⟩,
   ⟨"EBREAK", 0x00100073#32, 0xFFFFFFFF#32⟩]

/-- The 40 rows of `opcode_table.json`. -/
def opcodeTable : List OpcodeRow :=
  tableLoads ++ tableOpImm ++ tableOp ++ tableUpperStore ++ tableControl

/-- The row an instruction belongs to. -/
def Instr.mnemonic : Instr → String
  | .lb _ _ _ => "LB"
  | .lh _ _ _ => "LH"
  | .lw _ _ _ => "LW"
  | .lbu _ _ _ => "LBU"
  | .lhu _ _ _ => "LHU"
  | .fence _ _ _ _ _ => "FENCE"
  | .addi _ _ _ => "ADDI"
  | .slti _ _ _ => "SLTI"
  | .sltiu _ _ _ => "SLTIU"
  | .xori _ _ _ => "XORI"
  | .ori _ _ _ => "ORI"
  | .andi _ _ _ => "ANDI"
  | .slli _ _ _ => "SLLI"
  | .srli _ _ _ => "SRLI"
  | .srai _ _ _ => "SRAI"
  | .add _ _ _ => "ADD"
  | .sub _ _ _ => "SUB"
  | .sll _ _ _ => "SLL"
  | .slt _ _ _ => "SLT"
  | .sltu _ _ _ => "SLTU"
  | .xor _ _ _ => "XOR"
  | .srl _ _ _ => "SRL"
  | .sra _ _ _ => "SRA"
  | .or _ _ _ => "OR"
  | .and _ _ _ => "AND"
  | .lui _ _ => "LUI"
  | .auipc _ _ => "AUIPC"
  | .sb _ _ _ => "SB"
  | .sh _ _ _ => "SH"
  | .sw _ _ _ => "SW"
  | .beq _ _ _ => "BEQ"
  | .bne _ _ _ => "BNE"
  | .blt _ _ _ => "BLT"
  | .bge _ _ _ => "BGE"
  | .bltu _ _ _ => "BLTU"
  | .bgeu _ _ _ => "BGEU"
  | .jal _ _ => "JAL"
  | .jalr _ _ _ => "JALR"
  | .ecall => "ECALL"
  | .ebreak => "EBREAK"

end Sys2Proof
end

