-- ==== Sys2Proof/Config.lean ====
section
/-! DEFINITION. What an implementation fixes and what the spec leaves free.
The OPEN parameters of `00_scope.md` R8 that decide where an access goes are plain data (`Params`),
held in State, so every statement about all states is a statement about all their values.
The OPEN values and the draws (`93_implementation_defined.md`) are constants without a body. -/

namespace Sys2Proof

/-- A range of byte addresses, `base` to `base + size - 1`. -/
structure AddrRange where
  base : Nat
  size : Nat
  deriving DecidableEq, Repr

/-- The OPEN parameters of R8 that a run needs to know.
`memDepthExp` stands for `MEM_DEPTH = 2 ^ (memDepthExp + 1)` cells, so that every value is a power of
two of at least 2 (R63, D4) and divides 2^31 ("2^31 is a multiple of `MEM_DEPTH`", R63; log 6). `uart` lists the addresses where `IsUart` holds (R65, D5). -/
structure Params where
  memDepthExp : Fin 31
  uart : List AddrRange
  deriving DecidableEq, Repr

/-- The parameters of `State.reset`: 2^31 cells, so that no address below 2^32 aliases, and bit 31 as
the "reserved high address bit" of R80. DESIGN CHOICE, unsafe for a claim about a run from
`State.reset` (log 6, log 7): the spec leaves both OPEN. -/
def Config.resetParams : Params :=
  { memDepthExp := 30, uart := [{ base := 2 ^ 31, size := 2 ^ 31 }] }

/-- `RESET_PC` (R39, D2; log 9). -/
def Config.resetPc : Word := 0#32

/-- `ECALL_X1` (R320, D8): an OPEN 32-bit value; nothing constrains it (log 8). -/
opaque Config.ecallX1 : Word

/-- `EBREAK_X1` (R321, D8): an OPEN 32-bit value, which may equal `ECALL_X1` (log 8). -/
opaque Config.ebreakX1 : Word

/-- The byte that physical byte address `a` holds until something writes it (R46, D6): a draw (log 5). -/
opaque Config.powerOnByte : Nat → Byte

/-- The word a misaligned JAL, JALR or taken branch latches (R313, D10): a draw (log 10). -/
opaque Config.latchDraw : Nat → Word

/-- Whether such a fault leaves pc at the misaligned target or at the instruction's own address
(R313, D10): a draw from the two (log 10). -/
opaque Config.pcDraw : Nat → Bool

/-- Whether such a fault of JAL or JALR has written the link register (R313, D10): a draw (log 10). -/
opaque Config.linkDraw : Nat → Bool

/-- The `data` of an in-flight read of the given address and width (R51): a read request carries no data
(R172) and the spec gives that part of the tuple no value, so it is free (log 31). -/
opaque Config.readData : Nat → Word → Width → Word

/-- `insn` after an external reset (R48, R371, D22): a draw (log 4). -/
opaque Config.insnDraw : Nat → Word

/-- The remembered load destination after an external reset (R50, R371, D22): a draw (log 4). -/
opaque Config.loadDestDraw : Nat → RegIdx

/-- The remembered load width after an external reset (R50, R371, D22): a draw (log 4). -/
opaque Config.loadKindDraw : Nat → LoadKind

end Sys2Proof
end

