-- ==== Sys2Proof/Machine/State.lean ====
section
/-! DEFINITION. The state of the CORE as plain data (`10_state.md`), its outcomes' reasons, and reset. -/

namespace Sys2Proof.Machine

/-- `run_state` (R43). -/
inductive RunState where
  | running
  | faulted
  deriving DecidableEq, Repr

/-- `fault_code` (R43). Its numbers for the debug surface are `FaultCode.number`. -/
inductive FaultCode where
  | unset
  | illegalInstruction
  | pcMisaligned
  deriving DecidableEq, Repr

/-- The hart's states (R47, R160). `loadResolve` carries the response that `LOAD_WAIT` captured (R167),
`storeWait` whether the write request has been accepted (R168). -/
inductive HartState where
  | fetchRequest
  | fetchWait
  | decode
  | loadWait
  | loadResolve (kind : LoadKind) (response : Word)
  | aluImm
  | aluReg
  | storeWait (accepted : Bool)
  | storeResolve
  | branchResolve
  | jalrResolve
  | faulted
  deriving DecidableEq, Repr

/-- A read request as the hart presents it and the read engine captures it (R172, R52). -/
structure ReadReq where
  addr : Word
  width : Width
  deriving DecidableEq, Repr

/-- A write request as the hart presents it and the write engine captures it (R172, R52). -/
structure WriteReq where
  addr : Word
  width : Width
  data : Word
  deriving DecidableEq, Repr

/-- The read engine (R52, R71): its state, and while it is busy its captured request and the cells that
have arrived so far. `pipe` is listed by the source and never entered (R71, N9; log 16). -/
inductive ReadEngine where
  | idle
  | pipe
  | collect (req : ReadReq)
  | collect0 (req : ReadReq)
  | collect1 (req : ReadReq) (cell0 : CellWord)
  | collect2 (req : ReadReq) (cell0 cell1 : CellWord)
  deriving DecidableEq, Repr

/-- The write engine (R52, R73): its state and, while it is busy, its captured request with the bytes
it still carries. -/
inductive WriteEngine where
  | idle
  | halfUnaligned (req : WriteReq)
  | word (req : WriteReq)
  | wordUnaligned (req : WriteReq)
  | wordUnalignedFish (req : WriteReq)
  deriving DecidableEq, Repr

/-- The direction of a bus transaction (R51). -/
inductive Direction where
  | read
  | write
  deriving DecidableEq, Repr

/-- An in-flight bus transaction (R51). -/
structure Transaction where
  addr : Word
  width : Width
  direction : Direction
  data : Word
  deriving DecidableEq, Repr

/-- What an access is for (R65: "fetch, load or store"). -/
inductive AccessKind where
  | fetch
  | load
  | store
  deriving DecidableEq, Repr

/-- The faults of the model. There are none: a fault of the spec is the terminal state FAULTED, which is
a next state (R330, R171), so nothing raises one (log 29). -/
inductive Fault where
  deriving DecidableEq, Repr

/-- Why the model gives no next state. -/
inductive Refusal where
  /-- Raised by an arm of `exec` whose instruction has no meaning yet; no arm is such. Safe. -/
  | notModelled (mnemonic : String)
  /-- Raised by a fetch, load or store that touches the UART region, at byte address `addr` (R65, D5:
  "refused by the model"). Safe: the run has no next state. -/
  | uartAccess (kind : AccessKind) (addr : Word)
  deriving DecidableEq, Repr

/-- The written bytes of memory by physical byte address, in strictly rising order (`Memory.wf`).
Byte `2 * i` is the low lane of cell `i`, byte `2 * i + 1` its high lane (R44, R62; log 25).
A byte nothing has written is not listed and holds the draw `Config.powerOnByte` (R46; log 5). -/
abbrev Memory := List Host.Cell

/-- The state of the machine. -/
structure State where
  /-- The register file (R30); entry 0 is never written (R31, R32). -/
  regs : Vector Word 32
  /-- The program counter (R36). -/
  pc : Word
  /-- The hart's state (R47); `run_state` is its view (`State.runState`). -/
  hart : HartState
  /-- The fault latch's code (R43). -/
  faultCode : FaultCode
  /-- The fault latch's word (R43). -/
  faultInsn : Word
  /-- The instruction register (R48). -/
  insn : Word
  /-- The pending write-back: register, value, and whether it is valid (R49). -/
  pending : Option (RegIdx × Word)
  /-- The remembered destination of the last load (R50). -/
  loadDest : RegIdx
  /-- The remembered width of the last load (R50). -/
  loadKind : LoadKind
  /-- The read engine (R52). -/
  readEngine : ReadEngine
  /-- `mem_rd_data`: the cell whose index was presented in the step before, if one was (R61, R173). -/
  readPort : Option CellWord
  /-- The write engine (R52). -/
  writeEngine : WriteEngine
  /-- The cell memory (R44). -/
  mem : Memory
  /-- The OPEN parameters `MEM_DEPTH` and `IsUart` (R8), constant through a run; the model's own field. -/
  params : Params
  /-- How many free values have been taken; the model's own field. -/
  draws : Nat
  deriving DecidableEq, Repr

/-- The machine right after power-on and reset (R371, R372). The values of x1 to x31, `insn`, the load
bookkeeping, `params` and `draws` are the model's choices (log 2, 3, 6, 7, 23); the spec states the rest. -/
def State.reset : State where
  regs := Vector.replicate 32 0#32
  pc := Config.resetPc
  hart := .fetchRequest
  faultCode := .unset
  faultInsn := 0#32
  insn := 0#32
  pending := none
  loadDest := 0
  loadKind := .w
  readEngine := .idle
  readPort := none
  writeEngine := .idle
  mem := []
  params := Config.resetParams
  draws := 0

end Sys2Proof.Machine
end

