-- ==== Sys2Proof/Machine/Flags.lean ====
section
/-! DEFINITION. The comparisons that stand where other hardware has flags: "There are no status flags,
condition codes or predicate registers: branches compare two registers directly" (`10_state.md` R40). -/

namespace Sys2Proof.Machine

/-- Equality of BEQ and BNE (R291, R292). -/
def cmpEq (a b : Word) : Bool := a == b

/-- `signed(a) < signed(b)` (R10; SLT, SLTI, BLT, BGE). -/
def cmpLtSigned (a b : Word) : Bool := decide (a.toInt < b.toInt)

/-- `unsigned(a) < unsigned(b)` (R10; SLTU, SLTIU, BLTU, BGEU). -/
def cmpLtUnsigned (a b : Word) : Bool := decide (a.toNat < b.toNat)

/-- `c ? 1 : 0` as a word (R232, R244). -/
def boolWord (c : Bool) : Word := if c then 1#32 else 0#32

/-- The low two bits of an address are zero: it is a multiple of 4 (R161, R297, R310). -/
def aligned4 (a : Word) : Bool := a.extractLsb' 0 2 == 0#2

/-- A sentinel word, all zeros or all ones (R128, R162). -/
def isSentinel (w : Word) : Bool := w == 0x00000000#32 || w == 0xFFFFFFFF#32

end Sys2Proof.Machine
end

