-- ==== Sys2Proof/Machine/Memory.lean ====
section
/-! DEFINITION. The cell memory and the MMU's arithmetic: addresses, lanes, beats and reassembly
(`20_memory.md`). Everything here is a function of the memory and `MEM_DEPTH`, so that the read and write
engines and the instruction level share one definition. -/

namespace Sys2Proof.Machine

/-- `MEM_DEPTH`, the number of cells (R8, R63): a power of two of at least 2 that divides 2^31. -/
def memDepth (p : Params) : Nat := 2 ^ (p.memDepthExp.val + 1)

/-- `IsUart(a)` (R8, R65). -/
def isUart (p : Params) (a : Word) : Bool :=
  p.uart.any fun r => decide (r.base ≤ a.toNat) && decide (a.toNat < r.base + r.size)

/-- The number of bytes of an access (R66). -/
def widthBytes : Width → Nat
  | .byte => 1
  | .half => 2
  | .word => 4

/-- Some byte of the access has an address where `IsUart` holds (R65); byte addresses wrap (D21). -/
def touchesUart (p : Params) (a : Word) (w : Width) : Bool :=
  (List.range (widthBytes w)).any fun k => isUart p (a + BitVec.ofNat 32 k)

/-! ### Bytes by physical address -/

/-- The byte written last at physical address `k`, if any was. -/
def Memory.lookup : Memory → Nat → Option Byte
  | [], _ => none
  | (a, b) :: m, k => if k = a then some b else Memory.lookup m k

/-- Write one byte, keeping the addresses strictly rising. -/
def Memory.insert : Memory → Nat → Byte → Memory
  | [], k, v => [(k, v)]
  | (a, b) :: m, k, v =>
    if k < a then (k, v) :: (a, b) :: m
    else if k = a then (k, v) :: m
    else (a, b) :: Memory.insert m k v

/-- What physical address `k` reads as when nothing has been written there (R46; log 5). -/
def unlistedByte (k : Nat) : Byte := Config.powerOnByte k

/-- The byte at physical address `k`. -/
def Memory.byte (m : Memory) (k : Nat) : Byte := (m.lookup k).getD (unlistedByte k)

/-- Every address of `m` is above `lo`, and they rise strictly. -/
def Memory.risingAbove (lo : Nat) : Memory → Bool
  | [] => true
  | (a, _) :: m => decide (lo < a) && Memory.risingAbove a m

/-- The canonical form: addresses strictly rising. No listed byte equals what an unlisted address reads
as, because that is a free value that no byte is known to equal (log 5). -/
def Memory.wf : Memory → Bool
  | [] => true
  | (a, _) :: m => Memory.risingAbove a m

/-! ### Addresses and cells (R62, R63) -/

/-- `cell_index = address >> 1`, before the wrap modulo `MEM_DEPTH`. -/
def cellIndex (a : Word) : Nat := a.toNat / 2

/-- `byte_offset = address & 1` is 1. -/
def oddAddr (a : Word) : Bool := a.toNat % 2 == 1

/-- The physical byte address of byte address `a`: lane `a & 1` of cell `(a >> 1) mod MEM_DEPTH`. -/
def physAddr (depth : Nat) (a : Word) : Nat := 2 * (cellIndex a % depth) + a.toNat % 2

/-- `ByteAt(a)` (R63). -/
def byteAt (depth : Nat) (m : Memory) (a : Word) : Byte := m.byte (physAddr depth a)

/-- `cell[i mod MEM_DEPTH]`, the odd byte in the high lane (R62). -/
def cellAt (depth : Nat) (m : Memory) (i : Nat) : CellWord :=
  m.byte (2 * (i % depth) + 1) ++ m.byte (2 * (i % depth))

/-! ### Reads (R68 to R70) -/

/-- The number of beats of a read (R68). -/
def readBeatCount : Width → Bool → Nat
  | .byte, _ => 1
  | .half, false => 1
  | .half, true => 2
  | .word, false => 2
  | .word, true => 3

/-- `lo(c)`. -/
def laneLo (c : CellWord) : Byte := c.extractLsb' 0 8

/-- `hi(c)`. -/
def laneHi (c : CellWord) : Byte := c.extractLsb' 8 8

/-- The response made of the cells the beats read (R70); its bits above the width are zero (D26). -/
def reassemble : Width → Bool → CellWord → CellWord → CellWord → Word
  | .byte, false, c0, _, _ => (laneLo c0).setWidth 32
  | .byte, true, c0, _, _ => (laneHi c0).setWidth 32
  | .half, false, c0, _, _ => c0.setWidth 32
  | .half, true, c0, c1, _ => (laneLo c1 ++ laneHi c0).setWidth 32
  | .word, false, c0, c1, _ => c1 ++ c0
  | .word, true, c0, c1, c2 => laneLo c2 ++ (c1 ++ laneHi c0)

/-- `MemRead(a, n)` (R70): beat `k` reads cell `(cell_index + k) mod MEM_DEPTH` (R69). -/
def memRead (depth : Nat) (m : Memory) (w : Width) (a : Word) : Word :=
  reassemble w (oddAddr a) (cellAt depth m (cellIndex a)) (cellAt depth m (cellIndex a + 1))
    (cellAt depth m (cellIndex a + 2))

/-! ### Writes (R73 to R75) -/

/-- One masked cell write: cell index before the wrap, lane mask, 16-bit data (R61, R73). -/
structure Beat where
  cell : Nat
  low : Bool
  high : Bool
  data : CellWord
  deriving DecidableEq, Repr

/-- `b_k = v[8k+7:8k]`. -/
def byteOf (v : Word) (k : Nat) : Byte := v.extractLsb' (8 * k) 8

/-- The beats of a write, in order: the table of R73. -/
def writeBeats (w : Width) (a v : Word) : List Beat :=
  let c := cellIndex a
  let b := byteOf v
  match w, oddAddr a with
  | .byte, false => [⟨c, true, false, b 0 ++ b 0⟩]
  | .byte, true => [⟨c, false, true, b 0 ++ b 0⟩]
  | .half, false => [⟨c, true, true, b 1 ++ b 0⟩]
  | .half, true => [⟨c, false, true, b 0 ++ b 0⟩, ⟨c + 1, true, false, b 1 ++ b 1⟩]
  | .word, false => [⟨c, true, true, b 1 ++ b 0⟩, ⟨c + 1, true, true, b 3 ++ b 2⟩]
  | .word, true =>
    [⟨c, false, true, b 0 ++ b 0⟩, ⟨c + 1, true, true, b 2 ++ b 1⟩, ⟨c + 2, true, false, b 3 ++ b 3⟩]

/-- Perform one beat (R74): the masked lanes take the data's lanes, the others keep their value. -/
def applyBeat (depth : Nat) (m : Memory) (b : Beat) : Memory :=
  let i := b.cell % depth
  let m := if b.low then m.insert (2 * i) (laneLo b.data) else m
  if b.high then m.insert (2 * i + 1) (laneHi b.data) else m

/-- `MemWrite(a, n, v)`: all the beats in order. -/
def memWrite (depth : Nat) (m : Memory) (w : Width) (a v : Word) : Memory :=
  (writeBeats w a v).foldl (applyBeat depth) m

/-- Memory after the first `k` beats of a write: what an external reset that falls inside it may leave
(R375). -/
def memWriteBeats (k depth : Nat) (m : Memory) (w : Width) (a v : Word) : Memory :=
  ((writeBeats w a v).take k).foldl (applyBeat depth) m

end Sys2Proof.Machine
end

