-- ==== Sys2Proof/Machine/Operands.lean ====
section
/-! DEFINITION. Operand forms: registers, immediates, the one addressing mode, and the views of State
that read without changing (`10_state.md`, `30_encoding.md` R122 to R124). -/

namespace Sys2Proof.Machine

/-! ### Immediates (R122) -/

/-- `imm_I` and `imm_S`: the 12-bit field sign-extended. -/
def sextImm (imm : BitVec 12) : Word := imm.signExtend 32

/-- `imm_B`. -/
def sextBranch (offset : BitVec 13) : Word := offset.signExtend 32

/-- `imm_J`. -/
def sextJump (offset : BitVec 21) : Word := offset.signExtend 32

/-- `imm_U = {insn[31:12], 0x000}`. -/
def upperImm (imm : BitVec 20) : Word := imm ++ 0#12

/-- The low 5 bits of a shift amount (R123). -/
def shiftAmount (b : Word) : Nat := (b.extractLsb' 0 5).toNat

/-- The extension each load width selects (R167, R201 to R205). -/
def extendLoad : LoadKind → Word → Word
  | .w, v => v
  | .h, v => (v.extractLsb' 0 16).signExtend 32
  | .hu, v => (v.extractLsb' 0 16).setWidth 32
  | .b, v => (v.extractLsb' 0 8).signExtend 32
  | .bu, v => (v.extractLsb' 0 8).setWidth 32

/-- The access width of a load (R66). -/
def loadWidth : LoadKind → Width
  | .w => .word
  | .h => .half
  | .hu => .half
  | .b => .byte
  | .bu => .byte

/-! ### Views of State -/

/-- Register `i` as an instruction reads it and the debug surface shows it: x0 is 0 (R31), a pending
write-back is merged in (R33, R163, R346). -/
def State.reg (s : State) (i : RegIdx) : Word :=
  if i = 0 then 0#32
  else match s.pending with
    | some (j, v) => if j = i then v else s.regs[i]
    | none => s.regs[i]

/-- `run_state` (R43, R47). -/
def State.runState (s : State) : RunState :=
  if s.hart = .faulted then .faulted else .running

/-- The byte at byte address `a` (R63). -/
def State.byteAt (s : State) (a : Word) : Byte := Machine.byteAt (memDepth s.params) s.mem a

/-- `MemRead` on the state's memory (R70). -/
def State.memRead (s : State) (w : Width) (a : Word) : Word := Machine.memRead (memDepth s.params) s.mem w a

/-- The access touches the UART region (R65). -/
def State.touchesUart (s : State) (a : Word) (w : Width) : Bool := Machine.touchesUart s.params a w

/-- Base plus displacement, `x[rs1] + imm` modulo 2^32 (R124, R200, R280, D21). -/
def State.effAddr (s : State) (rs1 : RegIdx) (imm : BitVec 12) : Word := s.reg rs1 + sextImm imm

/-- The read engine's captured request (R52). -/
def ReadEngine.request : ReadEngine → Option ReadReq
  | .idle => none
  | .pipe => none
  | .collect r => some r
  | .collect0 r => some r
  | .collect1 r _ => some r
  | .collect2 r _ _ => some r

/-- The write engine's captured request (R52). -/
def WriteEngine.request : WriteEngine → Option WriteReq
  | .idle => none
  | .halfUnaligned r => some r
  | .word r => some r
  | .wordUnaligned r => some r
  | .wordUnalignedFish r => some r

/-- The in-flight bus transactions (R51): one for each engine that is not idle. The `data` of a read is a
free value, the model's choice: the spec gives it none (R172; log 31). -/
def State.inFlight (s : State) : List Transaction :=
  (s.readEngine.request.map fun r => (⟨r.addr, r.width, .read, Config.readData s.draws r.addr r.width⟩ : Transaction)).toList ++
  (s.writeEngine.request.map fun r => (⟨r.addr, r.width, .write, r.data⟩ : Transaction)).toList

/-- The state is an instruction boundary (R13, R175): the hart is about to fetch, no transaction is in
flight and no read data is on its way. -/
abbrev State.AtBoundary (s : State) : Prop :=
  s.hart = .fetchRequest ∧ s.readEngine = .idle ∧ s.readPort = none ∧ s.writeEngine = .idle

end Sys2Proof.Machine
end

