-- ==== Sys2Proof/Machine/Ops.lean ====
section
/-! DEFINITION. The named operations over State that every meaning is made of: the write-back, the pc,
memory accesses, taking a fault and leaving one (`40_hart_fsm.md`, `60_exceptions.md`). -/

namespace Sys2Proof.Machine

/-- What an instruction or a step answers. -/
abbrev Result := Host.Outcome State Fault Refusal

/-! ### Registers and pc -/

/-- Write the register file; a write to x0 is discarded (R32). -/
def writeFile (regs : Vector Word 32) (i : RegIdx) (v : Word) : Vector Word 32 :=
  if i = 0 then regs else regs.set i v

/-- Apply the pending write-back, if there is one (R161, R163). -/
def State.commit (s : State) : State :=
  match s.pending with
  | none => s
  | some (i, v) => { s with regs := writeFile s.regs i v, pending := none }

/-- `x[i] <- v`: schedule the write-back (R11, R163). An earlier pending write is applied first; an
instruction never meets one, because the fetch applies it (log 12). -/
def State.schedule (s : State) (i : RegIdx) (v : Word) : State :=
  { s.commit with pending := some (i, v) }

/-- `pc <- t`, and the instruction is complete: the next state is `FETCH_REQUEST` (R166). -/
def State.complete (s : State) (t : Word) : State := { s with pc := t, hart := .fetchRequest }

/-- The address of the next instruction in memory, modulo 2^32 (R37, R38). -/
def State.nextPc (s : State) : Word := s.pc + 4#32

/-- `x[rd] <- v; pc <- pc + 4`: how every instruction that only writes a register ends. -/
def State.writeBack (s : State) (rd : RegIdx) (v : Word) : State :=
  (s.schedule rd v).complete s.nextPc

/-! ### Taking a fault and leaving one -/

/-- `raise code(w)` (R333, R334): FAULTED with the latch written; nothing else changes. -/
def State.raiseFault (s : State) (code : FaultCode) (w : Word) : State :=
  { s with hart := .faulted, faultCode := code, faultInsn := w }

/-- `raise PC_MISALIGNED(draw)` of a JAL, JALR or taken branch with target `t` (R313, D10). `link` is the
destination register of JAL and JALR. The latched word is a free value, pc is drawn from the
instruction's address and the target, and the link register from its old value and `pc + 4` (log 10). -/
def State.raiseTarget (s : State) (link : Option RegIdx) (t : Word) : State :=
  let c := s.commit
  let regs := match link with
    | some rd => if Config.linkDraw s.draws then writeFile c.regs rd s.nextPc else c.regs
    | none => c.regs
  let pc := if Config.pcDraw s.draws then t else s.pc
  ({ c with regs := regs, pc := pc, draws := s.draws + 1 }).raiseFault .pcMisaligned (Config.latchDraw s.draws)

/-- External reset (R340, R370, R371): the only way out of FAULTED. Registers and memory are unchanged, a
pending write-back and any transaction are dropped, `insn` and the load bookkeeping are free values. -/
def State.externalReset (s : State) : State :=
  { s with
    pc := Config.resetPc
    hart := .fetchRequest
    faultCode := .unset
    faultInsn := 0#32
    insn := Config.insnDraw s.draws
    pending := none
    loadDest := Config.loadDestDraw s.draws
    loadKind := Config.loadKindDraw s.draws
    readEngine := .idle
    readPort := none
    writeEngine := .idle
    draws := s.draws + 1 }

/-! ### Shared bodies of the meanings -/

/-- The body of a load (R200): `LOAD_WAIT` and `LOAD_RESOLVE[kind]` at the instruction level. -/
def State.load (s : State) (kind : LoadKind) (rd rs1 : RegIdx) (imm : BitVec 12) : Result :=
  let ea := s.effAddr rs1 imm
  if s.touchesUart ea (loadWidth kind) then .refused (.uartAccess .load ea)
  else .next (State.writeBack { s with loadDest := rd, loadKind := kind } rd
    (extendLoad kind (s.memRead (loadWidth kind) ea)))

/-- The body of a store (R280). -/
def State.store (s : State) (w : Width) (rs1 rs2 : RegIdx) (imm : BitVec 12) : Result :=
  let ea := s.effAddr rs1 imm
  if s.touchesUart ea w then .refused (.uartAccess .store ea)
  else .next (State.complete { s with mem := memWrite (memDepth s.params) s.mem w ea (s.reg rs2) } s.nextPc)

/-- The body of a branch (R290, R297): `BRANCH_RESOLVE`. -/
def State.branch (s : State) (taken : Bool) (offset : BitVec 13) : Result :=
  if taken then
    let t := s.pc + sextBranch offset
    if aligned4 t then .next (s.complete t) else .next (s.raiseTarget none t)
  else .next (s.complete s.nextPc)

/-- The body of a jump to `t` that links in `rd` (R310, R311). -/
def State.jump (s : State) (rd : RegIdx) (t : Word) : Result :=
  if aligned4 t then .next ((s.schedule rd s.nextPc).complete t) else .next (s.raiseTarget (some rd) t)

end Sys2Proof.Machine
end

