-- ==== Sys2Proof/Machine/AluImm.lean ====
section
/-! DEFINITION. The meanings of the OP-IMM instructions (`43_alu.md` R230 to R239). -/

namespace Sys2Proof.Machine

/-- ADDI: `x[rs1] + imm_I` modulo 2^32 (R231). -/
def execAddi (rd rs1 : RegIdx) (imm : BitVec 12) (s : State) : Result :=
  .next (s.writeBack rd (s.reg rs1 + sextImm imm))

/-- SLTI: 1 if `x[rs1] < imm_I` as signed integers, else 0 (R232). -/
def execSlti (rd rs1 : RegIdx) (imm : BitVec 12) (s : State) : Result :=
  .next (s.writeBack rd (boolWord (cmpLtSigned (s.reg rs1) (sextImm imm))))

/-- SLTIU: 1 if `x[rs1] < imm_I` as unsigned integers, the immediate sign-extended first, else 0 (R233). -/
def execSltiu (rd rs1 : RegIdx) (imm : BitVec 12) (s : State) : Result :=
  .next (s.writeBack rd (boolWord (cmpLtUnsigned (s.reg rs1) (sextImm imm))))

/-- XORI: `x[rs1] ^ imm_I` (R234). -/
def execXori (rd rs1 : RegIdx) (imm : BitVec 12) (s : State) : Result :=
  .next (s.writeBack rd (s.reg rs1 ^^^ sextImm imm))

/-- ORI: `x[rs1] | imm_I` (R235). -/
def execOri (rd rs1 : RegIdx) (imm : BitVec 12) (s : State) : Result :=
  .next (s.writeBack rd (s.reg rs1 ||| sextImm imm))

/-- ANDI: `x[rs1] & imm_I` (R236). -/
def execAndi (rd rs1 : RegIdx) (imm : BitVec 12) (s : State) : Result :=
  .next (s.writeBack rd (s.reg rs1 &&& sextImm imm))

/-- SLLI: left shift by `shamt` (R237). -/
def execSlli (rd rs1 : RegIdx) (shamt : BitVec 5) (s : State) : Result :=
  .next (s.writeBack rd (s.reg rs1 <<< shamt.toNat))

/-- SRLI: logical right shift by `shamt` (R238). -/
def execSrli (rd rs1 : RegIdx) (shamt : BitVec 5) (s : State) : Result :=
  .next (s.writeBack rd (s.reg rs1 >>> shamt.toNat))

/-- SRAI: arithmetic right shift by `shamt` (R239). -/
def execSrai (rd rs1 : RegIdx) (shamt : BitVec 5) (s : State) : Result :=
  .next (s.writeBack rd ((s.reg rs1).sshiftRight shamt.toNat))

end Sys2Proof.Machine
end

