-- ==== Sys2Proof/Machine/AluReg.lean ====
section
/-! DEFINITION. The meanings of the OP instructions (`43_alu.md` R240 to R250). -/

namespace Sys2Proof.Machine

/-- ADD: sum modulo 2^32 (R241). -/
def execAdd (rd rs1 rs2 : RegIdx) (s : State) : Result :=
  .next (s.writeBack rd (s.reg rs1 + s.reg rs2))

/-- SUB: difference modulo 2^32 (R242). -/
def execSub (rd rs1 rs2 : RegIdx) (s : State) : Result :=
  .next (s.writeBack rd (s.reg rs1 - s.reg rs2))

/-- SLL: left shift by `x[rs2][4:0]` (R243). -/
def execSll (rd rs1 rs2 : RegIdx) (s : State) : Result :=
  .next (s.writeBack rd (s.reg rs1 <<< shiftAmount (s.reg rs2)))

/-- SLT: 1 if less as signed integers, else 0 (R244). -/
def execSlt (rd rs1 rs2 : RegIdx) (s : State) : Result :=
  .next (s.writeBack rd (boolWord (cmpLtSigned (s.reg rs1) (s.reg rs2))))

/-- SLTU: 1 if less as unsigned integers, else 0 (R245). -/
def execSltu (rd rs1 rs2 : RegIdx) (s : State) : Result :=
  .next (s.writeBack rd (boolWord (cmpLtUnsigned (s.reg rs1) (s.reg rs2))))

/-- XOR: exclusive or (R246). -/
def execXor (rd rs1 rs2 : RegIdx) (s : State) : Result :=
  .next (s.writeBack rd (s.reg rs1 ^^^ s.reg rs2))

/-- SRL: logical right shift by `x[rs2][4:0]` (R247). -/
def execSrl (rd rs1 rs2 : RegIdx) (s : State) : Result :=
  .next (s.writeBack rd (s.reg rs1 >>> shiftAmount (s.reg rs2)))

/-- SRA: arithmetic right shift by `x[rs2][4:0]` (R248). -/
def execSra (rd rs1 rs2 : RegIdx) (s : State) : Result :=
  .next (s.writeBack rd ((s.reg rs1).sshiftRight (shiftAmount (s.reg rs2))))

/-- OR: inclusive or (R249). -/
def execOr (rd rs1 rs2 : RegIdx) (s : State) : Result :=
  .next (s.writeBack rd (s.reg rs1 ||| s.reg rs2))

/-- AND: and (R250). -/
def execAnd (rd rs1 rs2 : RegIdx) (s : State) : Result :=
  .next (s.writeBack rd (s.reg rs1 &&& s.reg rs2))

end Sys2Proof.Machine
end

