-- ==== Sys2Proof/Machine/Branches.lean ====
section
/-! DEFINITION. The meanings of the conditional branches (`46_branches.md`). -/

namespace Sys2Proof.Machine

/-- BEQ: branch if equal (R291, R290, R297). -/
def execBeq (rs1 rs2 : RegIdx) (offset : BitVec 13) (s : State) : Result :=
  s.branch (cmpEq (s.reg rs1) (s.reg rs2)) offset

/-- BNE: branch if not equal (R292, R290, R297). -/
def execBne (rs1 rs2 : RegIdx) (offset : BitVec 13) (s : State) : Result :=
  s.branch (!cmpEq (s.reg rs1) (s.reg rs2)) offset

/-- BLT: branch if less, signed (R293, R290, R297). -/
def execBlt (rs1 rs2 : RegIdx) (offset : BitVec 13) (s : State) : Result :=
  s.branch (cmpLtSigned (s.reg rs1) (s.reg rs2)) offset

/-- BGE: branch if greater or equal, signed (R294, R290, R297). -/
def execBge (rs1 rs2 : RegIdx) (offset : BitVec 13) (s : State) : Result :=
  s.branch (!cmpLtSigned (s.reg rs1) (s.reg rs2)) offset

/-- BLTU: branch if less, unsigned (R295, R290, R297). -/
def execBltu (rs1 rs2 : RegIdx) (offset : BitVec 13) (s : State) : Result :=
  s.branch (cmpLtUnsigned (s.reg rs1) (s.reg rs2)) offset

/-- BGEU: branch if greater or equal, unsigned (R296, R290, R297). -/
def execBgeu (rs1 rs2 : RegIdx) (offset : BitVec 13) (s : State) : Result :=
  s.branch (!cmpLtUnsigned (s.reg rs1) (s.reg rs2)) offset

end Sys2Proof.Machine
end

