-- ==== Sys2Proof/Machine/Jumps.lean ====
section
/-! DEFINITION. The meanings of JAL and JALR (`47_jumps.md`). -/

namespace Sys2Proof.Machine

/-- JAL: to `pc + imm_J`, linking `pc + 4` (R310). -/
def execJal (rd : RegIdx) (offset : BitVec 21) (s : State) : Result :=
  s.jump rd (s.pc + sextJump offset)

/-- JALR: to `(x[rs1] + imm_I) & ~1`, the old `x[rs1]` even if `rd = rs1`, linking `pc + 4` (R311). -/
def execJalr (rd rs1 : RegIdx) (imm : BitVec 12) (s : State) : Result :=
  s.jump rd (s.effAddr rs1 imm &&& 0xFFFFFFFE#32)

end Sys2Proof.Machine
end

