-- ==== Sys2Proof/Machine/Loads.lean ====
section
/-! DEFINITION. The meanings of LB, LH, LW, LBU and LHU (`41_loads.md`). -/

namespace Sys2Proof.Machine

/-- LB: sign-extended byte at `x[rs1] + imm_I` (R201, R200). -/
def execLb (rd rs1 : RegIdx) (imm : BitVec 12) (s : State) : Result :=
  s.load .b rd rs1 imm

/-- LH: sign-extended half-word at `x[rs1] + imm_I` (R202, R200). -/
def execLh (rd rs1 : RegIdx) (imm : BitVec 12) (s : State) : Result :=
  s.load .h rd rs1 imm

/-- LW: word at `x[rs1] + imm_I` (R203, R200). -/
def execLw (rd rs1 : RegIdx) (imm : BitVec 12) (s : State) : Result :=
  s.load .w rd rs1 imm

/-- LBU: zero-extended byte at `x[rs1] + imm_I` (R204, R200). -/
def execLbu (rd rs1 : RegIdx) (imm : BitVec 12) (s : State) : Result :=
  s.load .bu rd rs1 imm

/-- LHU: zero-extended half-word at `x[rs1] + imm_I` (R205, R200). -/
def execLhu (rd rs1 : RegIdx) (imm : BitVec 12) (s : State) : Result :=
  s.load .hu rd rs1 imm

end Sys2Proof.Machine
end

