-- ==== Sys2Proof/Machine/MiscMem.lean ====
section
/-! DEFINITION. The meaning of FENCE (`42_misc_mem.md`). -/

namespace Sys2Proof.Machine

/-- FENCE: a no-op that ignores every field but funct3, so its fields are not even arguments; it writes no
register even if `rd` is not 0 (R220, D15). -/
def execFence (s : State) : Result :=
  .next (s.complete s.nextPc)

end Sys2Proof.Machine
end

