-- ==== Sys2Proof/Machine/Stores.lean ====
section
/-! DEFINITION. The meanings of SB, SH and SW (`45_stores.md`). -/

namespace Sys2Proof.Machine

/-- SB: the low byte of `x[rs2]` to `x[rs1] + imm_S` (R281, R280). -/
def execSb (rs1 rs2 : RegIdx) (imm : BitVec 12) (s : State) : Result :=
  s.store .byte rs1 rs2 imm

/-- SH: the low half-word of `x[rs2]` to `x[rs1] + imm_S` (R282, R280). -/
def execSh (rs1 rs2 : RegIdx) (imm : BitVec 12) (s : State) : Result :=
  s.store .half rs1 rs2 imm

/-- SW: the low word of `x[rs2]` to `x[rs1] + imm_S` (R283, R280). -/
def execSw (rs1 rs2 : RegIdx) (imm : BitVec 12) (s : State) : Result :=
  s.store .word rs1 rs2 imm

end Sys2Proof.Machine
end

