-- ==== Sys2Proof/Machine/System.lean ====
section
/-! DEFINITION. The meanings of ECALL and EBREAK (`48_system.md`). They do not trap. -/

namespace Sys2Proof.Machine

/-- ECALL: `x[1] <- ECALL_X1` (R320). -/
def execEcall (s : State) : Result :=
  .next (s.writeBack 1 Config.ecallX1)

/-- EBREAK: `x[1] <- EBREAK_X1` (R321). -/
def execEbreak (s : State) : Result :=
  .next (s.writeBack 1 Config.ebreakX1)

end Sys2Proof.Machine
end

