-- ==== Sys2Proof/Machine/UpperImm.lean ====
section
/-! DEFINITION. The meanings of LUI and AUIPC (`44_upper_imm.md`). -/

namespace Sys2Proof.Machine

/-- LUI: `imm << 12` (R270). -/
def execLui (rd : RegIdx) (imm : BitVec 20) (s : State) : Result :=
  .next (s.writeBack rd (upperImm imm))

/-- AUIPC: `(imm << 12) + pc` modulo 2^32, `pc` the instruction's own address (R271). -/
def execAuipc (rd : RegIdx) (imm : BitVec 20) (s : State) : Result :=
  .next (s.writeBack rd (s.pc + upperImm imm))

end Sys2Proof.Machine
end

