-- ==== Sys2Proof/Machine/Instruction.lean ====
section
/-! DEFINITION. One instruction from a boundary: the relation `Exec` of `40_hart_fsm.md` R175. -/

namespace Sys2Proof.Machine

/-- The word the fetch reads (R161, R120). -/
def State.fetchWord (s : State) : Word := s.memRead .word s.pc

/-- The bytes the fetch reads, the byte at pc first (R120). -/
def State.fetchBytes (s : State) : List Byte := (List.range 4).map fun k => s.byteAt (s.pc + BitVec.ofNat 32 k)

/-- What `DECODE` and the states after it do with the fetched word: the instruction register holds it,
an undecodable word faults, any other runs (R162, R164, R175). -/
def State.runWord (s : State) (w : Word) : Result :=
  let f : State := { s with insn := w }
  match decodeWord w with
  | .ok i => exec i f
  | .error _ => .next (f.raiseFault .illegalInstruction w)

/-- `Exec(s)` (R175), its checks in the order of R337. -/
def instruction (s : State) : Result :=
  let c := s.commit
  if !aligned4 c.pc then .next (c.raiseFault .pcMisaligned c.pc)
  else if c.touchesUart c.pc .word then .refused (.uartAccess .fetch c.pc)
  else if isSentinel c.fetchWord then .next (c.raiseFault .illegalInstruction c.fetchWord)
  else c.runWord c.fetchWord

/-- Store a word at pc, where the next instruction is fetched. -/
def State.putFetchWord (s : State) (w : Word) : State :=
  { s with mem := memWrite (memDepth s.params) s.mem .word s.pc w }

end Sys2Proof.Machine
end

