-- ==== Sys2Proof/Machine/Cycle.lean ====
section
/-! DEFINITION. One clock cycle: the hart's state machine of `40_hart_fsm.md` R160 and the two MMU
engines of `20_memory.md` R71 and R76, stepped in lockstep (R12, R60) on the schedule of D19. -/

namespace Sys2Proof.Machine

/-! ### How the hart dispatches an instruction (R164) -/

/-- Where `DECODE` takes an instruction. -/
inductive HartWork where
  /-- It completes, or faults, in `DECODE`. -/
  | inDecode
  /-- A load: `DECODE` issues the read. -/
  | load (kind : LoadKind) (rd rs1 : RegIdx) (imm : BitVec 12)
  /-- A store: `DECODE` issues the write. -/
  | store (width : Width) (rs1 rs2 : RegIdx) (imm : BitVec 12)
  /-- `ALU_IMM`, `ALU_REG`, `BRANCH_RESOLVE` or `JALR_RESOLVE` does the work (C6). -/
  | resolve (state : HartState)
  deriving DecidableEq, Repr

/-- The dispatch table of R160 and R164. -/
def hartWork : Instr → HartWork
  | .lb rd rs1 imm => .load .b rd rs1 imm
  | .lh rd rs1 imm => .load .h rd rs1 imm
  | .lw rd rs1 imm => .load .w rd rs1 imm
  | .lbu rd rs1 imm => .load .bu rd rs1 imm
  | .lhu rd rs1 imm => .load .hu rd rs1 imm
  | .fence _ _ _ _ _ => .inDecode
  | .addi _ _ _ => .resolve .aluImm
  | .slti _ _ _ => .resolve .aluImm
  | .sltiu _ _ _ => .resolve .aluImm
  | .xori _ _ _ => .resolve .aluImm
  | .ori _ _ _ => .resolve .aluImm
  | .andi _ _ _ => .resolve .aluImm
  | .slli _ _ _ => .resolve .aluImm
  | .srli _ _ _ => .resolve .aluImm
  | .srai _ _ _ => .resolve .aluImm
  | .add _ _ _ => .resolve .aluReg
  | .sub _ _ _ => .resolve .aluReg
  | .sll _ _ _ => .resolve .aluReg
  | .slt _ _ _ => .resolve .aluReg
  | .sltu _ _ _ => .resolve .aluReg
  | .xor _ _ _ => .resolve .aluReg
  | .srl _ _ _ => .resolve .aluReg
  | .sra _ _ _ => .resolve .aluReg
  | .or _ _ _ => .resolve .aluReg
  | .and _ _ _ => .resolve .aluReg
  | .lui _ _ => .inDecode
  | .auipc _ _ => .inDecode
  | .sb rs1 rs2 imm => .store .byte rs1 rs2 imm
  | .sh rs1 rs2 imm => .store .half rs1 rs2 imm
  | .sw rs1 rs2 imm => .store .word rs1 rs2 imm
  | .beq _ _ _ => .resolve .branchResolve
  | .bne _ _ _ => .resolve .branchResolve
  | .blt _ _ _ => .resolve .branchResolve
  | .bge _ _ _ => .resolve .branchResolve
  | .bltu _ _ _ => .resolve .branchResolve
  | .bgeu _ _ _ => .resolve .branchResolve
  | .jal _ _ => .inDecode
  | .jalr _ _ _ => .resolve .jalrResolve
  | .ecall => .inDecode
  | .ebreak => .inDecode

/-! ### The read engine (R68 to R71) -/

/-- How many beats a captured read takes (R68). -/
def ReadReq.beats (r : ReadReq) : Nat := readBeatCount r.width (oddAddr r.addr)

/-- `mem_rd_data` (R173). -/
def State.readData (s : State) : CellWord := s.readPort.getD 0#16

/-- `rd_resp_valid` and `rd_resp_data` in this step: the response comes in the step in which the last
beat's cell arrives (R71). -/
def State.readResponse (s : State) : Option Word :=
  match s.readEngine with
  | .idle => none
  | .pipe => none
  | .collect r => some (reassemble r.width (oddAddr r.addr) s.readData 0#16 0#16)
  | .collect0 _ => none
  | .collect1 r c0 =>
    if r.beats = 2 then some (reassemble r.width (oddAddr r.addr) c0 s.readData 0#16) else none
  | .collect2 r c0 c1 => some (reassemble r.width (oddAddr r.addr) c0 c1 s.readData)

/-- The read engine's next state and the cell index it presents in this step (R69, R71). A request
is accepted only in `IDLE` (R172). -/
def State.readAdvance (s : State) (request : Option ReadReq) : ReadEngine × Option Nat :=
  match s.readEngine with
  | .idle => match request with
    | none => (.idle, none)
    | some r => (if r.beats = 1 then .collect r else .collect0 r, some (cellIndex r.addr))
  | .pipe => (.pipe, none)
  | .collect _ => (.idle, none)
  | .collect0 r => (.collect1 r s.readData, some (cellIndex r.addr + 1))
  | .collect1 r c0 =>
    if r.beats = 2 then (.idle, none) else (.collect2 r c0 s.readData, some (cellIndex r.addr + 2))
  | .collect2 _ _ _ => (.idle, none)

/-! ### The write engine (R73, R76) -/

/-- `wr_ready`: the write engine is `IDLE` (R76, R172). -/
def State.writeReady (s : State) : Bool := s.writeEngine == .idle

/-- The beats of a captured write (R73). -/
def WriteReq.beats (r : WriteReq) : List Beat := writeBeats r.width r.addr r.data

/-- The state that follows `IDLE` when a request is accepted: the state of its second beat (R73). -/
def WriteReq.afterFirst (r : WriteReq) : WriteEngine :=
  match r.width, oddAddr r.addr with
  | .byte, _ => .idle
  | .half, false => .idle
  | .half, true => .halfUnaligned r
  | .word, false => .word r
  | .word, true => .wordUnaligned r

/-- The write engine's next state and the beat it performs in this step (R73, R76). -/
def State.writeAdvance (s : State) (request : Option WriteReq) : WriteEngine × Option Beat :=
  match s.writeEngine with
  | .idle => match request with
    | none => (.idle, none)
    | some r => (r.afterFirst, r.beats[0]?)
  | .halfUnaligned r => (.idle, r.beats[1]?)
  | .word r => (.idle, r.beats[1]?)
  | .wordUnaligned r => (.wordUnalignedFish r, r.beats[1]?)
  | .wordUnalignedFish r => (.idle, r.beats[2]?)

/-! ### The step (R12, R160) -/

/-- Commit: the hart's new state `h`, with both engines advanced from the state `s` before the step on
the requests the hart presents in it. -/
def State.clocked (s h : State) (read : Option ReadReq) (write : Option WriteReq) : State :=
  let r := s.readAdvance read
  let w := s.writeAdvance write
  { h with
    readEngine := r.1
    readPort := r.2.map (cellAt (memDepth s.params) s.mem)
    writeEngine := w.1
    mem := match w.2 with
      | none => h.mem
      | some b => applyBeat (memDepth s.params) h.mem b }

/-- Commit what an instruction's meaning answers. -/
def State.clockedResult (s : State) : Result → Result
  | .next h => .next (s.clocked h none none)
  | .fault f => .fault f
  | .refused r => .refused r

/-- `FETCH_REQUEST`: apply the pending write-back, check pc, present the read (R161). -/
def cycleFetchRequest (s : State) : Result :=
  let c := s.commit
  if !aligned4 c.pc then .next (s.clocked (c.raiseFault .pcMisaligned c.pc) none none)
  else if c.touchesUart c.pc .word then .refused (.uartAccess .fetch c.pc)
  else .next (s.clocked { c with hart := .fetchWait } (some ⟨c.pc, .word⟩) none)

/-- `FETCH_WAIT` (R162). -/
def cycleFetchWait (s : State) : Result :=
  match s.readResponse with
  | none => .next (s.clocked s none none)
  | some w =>
    if isSentinel w then .next (s.clocked (s.raiseFault .illegalInstruction w) none none)
    else .next (s.clocked { s with insn := w, hart := .decode } none none)

/-- Present a load's read (R164, R200). -/
def cycleIssueLoad (s : State) (kind : LoadKind) (rd rs1 : RegIdx) (imm : BitVec 12) : Result :=
  let ea := s.effAddr rs1 imm
  if s.touchesUart ea (loadWidth kind) then .refused (.uartAccess .load ea)
  else .next (s.clocked { s with loadDest := rd, loadKind := kind, hart := .loadWait }
    (some ⟨ea, loadWidth kind⟩) none)

/-- Present a store's write; it is accepted if the write engine is ready (R164, R168, R280). -/
def cycleIssueStore (s : State) (w : Width) (rs1 rs2 : RegIdx) (imm : BitVec 12) : Result :=
  let ea := s.effAddr rs1 imm
  if s.touchesUart ea w then .refused (.uartAccess .store ea)
  else .next (s.clocked { s with hart := .storeWait s.writeReady } none (some ⟨ea, w, s.reg rs2⟩))

/-- `DECODE` (R164). -/
def cycleDecode (s : State) : Result :=
  match decodeWord s.insn with
  | .error _ => .next (s.clocked (s.raiseFault .illegalInstruction s.insn) none none)
  | .ok i => match hartWork i with
    | .inDecode => s.clockedResult (exec i s)
    | .load kind rd rs1 imm => cycleIssueLoad s kind rd rs1 imm
    | .store w rs1 rs2 imm => cycleIssueStore s w rs1 rs2 imm
    | .resolve h => .next (s.clocked { s with hart := h } none none)

/-- `LOAD_WAIT`: capture the response (R167). -/
def cycleLoadWait (s : State) : Result :=
  match s.readResponse with
  | none => .next (s.clocked s none none)
  | some v => .next (s.clocked { s with hart := .loadResolve s.loadKind v } none none)

/-- `LOAD_RESOLVE[kind]`: extend, schedule the write-back, advance pc (R167). -/
def cycleLoadResolve (s : State) (kind : LoadKind) (response : Word) : Result :=
  .next (s.clocked (s.writeBack s.loadDest (extendLoad kind response)) none none)

/-- `ALU_IMM`, `ALU_REG`, `BRANCH_RESOLVE` and `JALR_RESOLVE`: the meaning of `insn` (R169, R170).
`insn` has been decoded in `DECODE`; a word that does not decode cannot be met here and would fault. -/
def cycleResolve (s : State) : Result :=
  s.clockedResult (s.runWord s.insn)

/-- `STORE_WAIT` (R168). A request not yet accepted is presented again; `DECODE` finds the engine ready
(D19), so that case is not met from reset (log 18). -/
def cycleStoreWait (s : State) (accepted : Bool) : Result :=
  if accepted then .next (s.clocked { s with hart := .storeResolve } none none)
  else match decodeWord s.insn with
    | .error _ => .next (s.clocked s none none)
    | .ok i => match hartWork i with
      | .store w rs1 rs2 imm => cycleIssueStore s w rs1 rs2 imm
      | .load _ _ _ _ => .next (s.clocked s none none)
      | .resolve _ => .next (s.clocked s none none)
      | .inDecode => .next (s.clocked s none none)

/-- `STORE_RESOLVE`: wait for the write engine to be ready, then advance pc (R168). -/
def cycleStoreResolve (s : State) : Result :=
  if s.writeReady then .next (s.clocked (s.complete s.nextPc) none none)
  else .next (s.clocked s none none)

/-- One clock cycle (R160). In FAULTED nothing changes (R171, R330). -/
def cycle (s : State) : Result :=
  match s.hart with
  | .fetchRequest => cycleFetchRequest s
  | .fetchWait => cycleFetchWait s
  | .decode => cycleDecode s
  | .loadWait => cycleLoadWait s
  | .loadResolve kind response => cycleLoadResolve s kind response
  | .aluImm => cycleResolve s
  | .aluReg => cycleResolve s
  | .storeWait accepted => cycleStoreWait s accepted
  | .storeResolve => cycleStoreResolve s
  | .branchResolve => cycleResolve s
  | .jalrResolve => cycleResolve s
  | .faulted => .next s

/-- `n` clock cycles, stopping at a refusal. -/
def cycles : Nat → State → Result
  | 0, s => .next s
  | n + 1, s => match cycle s with
    | .next t => cycles n t
    | .fault f => .fault f
    | .refused r => .refused r

end Sys2Proof.Machine
end

