-- ==== Sys2Proof/Machine/Step.lean ====
section
/-! DEFINITION. The step of the machine: a whole instruction from a boundary (R175), one clock cycle
from a state inside an instruction and from FAULTED (R160; log 1, log 11, log 17). -/

namespace Sys2Proof.Machine

/-- One step. -/
def step (s : State) : Host.Outcome State Fault Refusal :=
  if s.AtBoundary then instruction s else cycle s

/-- `s` with an instruction's word stored where the fetch reads it, for a state at a boundary. The bits
above `nbits` are zero. A program comes to be in memory from outside the machine (R373; log 21). -/
def State.withFetchWord (s : State) (nbits w : Nat) : State :=
  s.putFetchWord (BitVec.ofNat 32 (w % 2 ^ nbits))

end Sys2Proof.Machine
end

