-- ==== Sys2Proof/Machine/Environment.lean ====
section
/-! DEFINITION. What the outside world can do to the machine: power it on with a boot image, clock it,
reset it, and read the debug surface (`70_reset_and_hazards.md` R370 to R375, `60_exceptions.md` R346). -/

namespace Sys2Proof.Machine

/-! ### Power-on and the boot image (R372, R373) -/

/-- The bytes of a flat image, the first at physical address `k`. -/
def bootBytes (k : Nat) : List Byte → Memory
  | [] => []
  | b :: bs => (k, b) :: bootBytes (k + 1) bs

/-- Memory that holds the image from byte address 0 and draws elsewhere (R373, D6). The odd lane beside
an odd image's last byte is not listed, so it holds a draw (C1; log 22). -/
def bootMemory (image : List Byte) : Memory := bootBytes 0 image

/-- The power-on state (R372) for any draws of x1 to x31, any boot image and any parameters. -/
def State.powerOn (draws : Vector Word 32) (image : List Byte) (p : Params) : State :=
  { State.reset with regs := draws.set 0 0#32, mem := bootMemory image, params := p }

/-! ### Events -/

/-- What the environment does at a step boundary (R12, R336, R370). -/
inductive Event where
  | clock
  | externalReset
  deriving DecidableEq, Repr

/-- The machine's answer to one event. -/
def react : Event → State → Result
  | .clock, s => cycle s
  | .externalReset, s => .next s.externalReset

/-- The machine's answer to events in order, stopping at a refusal. -/
def reactAll : List Event → State → Result
  | [], s => .next s
  | e :: es, s => match react e s with
    | .next t => reactAll es t
    | .fault f => .fault f
    | .refused r => .refused r

/-- An external reset after `k` cycles: with `s` at a boundary, a reset that falls inside the
instruction (R375; log 30). -/
def resetAfter (k : Nat) (s : State) : Result :=
  match cycles k s with
  | .next t => .next t.externalReset
  | .fault f => .fault f
  | .refused r => .refused r

/-! ### The debug surface (R346, R78) -/

/-- The numbers of `fault_code` (R332, D7). -/
def FaultCode.number : FaultCode → Nat
  | .unset => 0
  | .illegalInstruction => 1
  | .pcMisaligned => 2

/-- What a harness can read at a step boundary: the list of R346, and the memory, which it "can read ... at
a step boundary between two beats" (R78). It sees the memory as the beats performed so far have left it. -/
structure DebugView where
  pc : Word
  regs : Vector Word 32
  runState : RunState
  faultCode : Nat
  faultInsn : Word
  /-- `MEM_DEPTH`, which says where a byte address lies in `mem`. -/
  depth : Nat
  mem : Memory
  deriving DecidableEq, Repr

/-- Cell `i mod MEM_DEPTH` as the debug surface reads it (R78, R63). R78 does not say by what unit the
surface reads memory; that it reads it by cell and by byte is the model's choice (log 32). -/
def DebugView.cell (v : DebugView) (i : Nat) : CellWord := cellAt v.depth v.mem i

/-- The byte at byte address `a` as the debug surface reads it (R78, R63; log 32). -/
def DebugView.byte (v : DebugView) (a : Word) : Byte := byteAt v.depth v.mem a

/-- The debug surface of a state; reading it changes nothing (R346, R78, D28). -/
def State.debugView (s : State) : DebugView where
  pc := s.pc
  regs := Vector.ofFn s.reg
  runState := s.runState
  faultCode := s.faultCode.number
  faultInsn := s.faultInsn
  depth := memDepth s.params
  mem := s.mem

end Sys2Proof.Machine
end

