-- ==== Sys2Proof/Safety.lean ====
section
/-! DEFINITION. The terms claims are made in: how a run ends, the invariant of the machine, and what an
instruction changes and leaves unchanged. -/

namespace Sys2Proof.Machine

/-! ### How a run ends (R348) -/

/-- FAULTED on a fetched sentinel word: the normal end of a program. -/
abbrev State.Halted (s : State) : Prop :=
  s.runState = .faulted ∧ s.faultCode = .illegalInstruction ∧ isSentinel s.faultInsn = true

/-- Any other FAULTED state. -/
abbrev State.Failed (s : State) : Prop := s.runState = .faulted ∧ ¬ s.Halted

/-! ### The invariant -/

/-- The bus in each state of the hart (R64, R160): a read is in flight exactly while the hart waits for
one, a write at most while the hart is in a store state, and `STORE_WAIT` has its request accepted. -/
def State.BusOk (s : State) : Prop :=
  match s.hart with
  | .fetchWait => s.readEngine.request.isSome = true ∧ s.writeEngine = .idle
  | .loadWait => s.readEngine.request.isSome = true ∧ s.writeEngine = .idle
  | .storeWait accepted => accepted = true ∧ s.readEngine = .idle ∧ s.readPort = none
  | .storeResolve => s.readEngine = .idle ∧ s.readPort = none
  | .fetchRequest => s.readEngine = .idle ∧ s.readPort = none ∧ s.writeEngine = .idle
  | .decode => s.readEngine = .idle ∧ s.readPort = none ∧ s.writeEngine = .idle
  | .loadResolve _ _ => s.readEngine = .idle ∧ s.readPort = none ∧ s.writeEngine = .idle
  | .aluImm => s.readEngine = .idle ∧ s.readPort = none ∧ s.writeEngine = .idle
  | .aluReg => s.readEngine = .idle ∧ s.readPort = none ∧ s.writeEngine = .idle
  | .branchResolve => s.readEngine = .idle ∧ s.readPort = none ∧ s.writeEngine = .idle
  | .jalrResolve => s.readEngine = .idle ∧ s.readPort = none ∧ s.writeEngine = .idle
  | .faulted => s.readEngine = .idle ∧ s.readPort = none ∧ s.writeEngine = .idle

/-- What holds of every state a run can reach. -/
structure State.Inv (s : State) : Prop where
  /-- Memory is in its canonical form. -/
  memCanonical : s.mem.wf = true
  /-- Every written byte lies in the memory: `cell[0 .. MEM_DEPTH-1]` (R44). -/
  memBounded : ∀ c ∈ s.mem, c.1 < 2 * memDepth s.params
  /-- "while the hart is RUNNING, `pc mod 4 == 0`" (R36). -/
  pcAligned : s.runState = .running → s.pc.toNat % 4 = 0
  /-- "`fault_code` is UNSET exactly when `run_state` is RUNNING" (R43). -/
  latchAgrees : s.faultCode = .unset ↔ s.runState = .running
  /-- The stored entry of x0 is 0 (R31, R32). -/
  zeroStored : s.regs[0] = 0#32
  /-- A write-back is pending only until the next fetch is issued (R49, R163). -/
  pendingOnlyAtFetch : s.pending ≠ none → s.hart = .fetchRequest
  /-- The bus agrees with the hart's state. -/
  busOk : s.BusOk

/-! ### Effects and frames -/

/-- Every byte of memory reads as before. -/
def SameMemory (s t : State) : Prop := ∀ a : Word, t.byteAt a = s.byteAt a

/-- Every register reads as before. -/
def SameRegs (s t : State) : Prop := ∀ i : RegIdx, t.reg i = s.reg i

/-- Register `rd` reads as `v`, unless it is x0, and every other register reads as before. -/
def WritesReg (s t : State) (rd : RegIdx) (v : Word) : Prop :=
  ∀ i : RegIdx, t.reg i = if i = rd ∧ i ≠ 0 then v else s.reg i

/-- The instruction completed with pc at `next`, and everything but registers and memory is as before: the
fault latch, `insn`, the load bookkeeping, both engines, the parameters and the free values taken. -/
structure Completes (s t : State) (next : Word) : Prop where
  hart : t.hart = .fetchRequest
  pc : t.pc = next
  faultCode : t.faultCode = s.faultCode
  faultInsn : t.faultInsn = s.faultInsn
  insn : t.insn = s.insn
  loadDest : t.loadDest = s.loadDest
  loadKind : t.loadKind = s.loadKind
  readEngine : t.readEngine = s.readEngine
  readPort : t.readPort = s.readPort
  writeEngine : t.writeEngine = s.writeEngine
  params : t.params = s.params
  draws : t.draws = s.draws

/-- An instruction that only writes `rd` and advances pc. -/
def OnlyWrites (s t : State) (rd : RegIdx) (v : Word) : Prop :=
  WritesReg s t rd v ∧ SameMemory s t ∧ Completes s t (s.pc + 4#32)

/-- The `n` bytes from byte address `a` hold the bytes of `v`, lowest first, and every byte of memory
that is not one of them reads as before (R75). Two addresses are one byte when they are equal modulo
`2 * MEM_DEPTH` (R63). -/
def StoresBytes (s t : State) (a : Word) (n : Nat) (v : Word) : Prop :=
  (∀ k < n, t.byteAt (a + BitVec.ofNat 32 k) = v.extractLsb' (8 * k) 8) ∧
  (∀ b : Word,
    (∀ k < n, b.toNat % (2 * memDepth s.params) ≠ (a + BitVec.ofNat 32 k).toNat % (2 * memDepth s.params)) →
    t.byteAt b = s.byteAt b)

/-- A fault that changes nothing but the latch and the hart's state (R333, R338): besides registers, memory
and pc also the load bookkeeping, both engines, the parameters and the free values taken. `insn` is left to
the statement, since a word that faults in `DECODE` is in it and one that faults earlier is not. -/
structure FaultsWith (s t : State) (code : FaultCode) (w : Word) : Prop where
  runState : t.runState = .faulted
  faultCode : t.faultCode = code
  faultInsn : t.faultInsn = w
  pc : t.pc = s.pc
  regs : SameRegs s t
  memory : SameMemory s t
  loadDest : t.loadDest = s.loadDest
  loadKind : t.loadKind = s.loadKind
  readEngine : t.readEngine = s.readEngine
  readPort : t.readPort = s.readPort
  writeEngine : t.writeEngine = s.writeEngine
  params : t.params = s.params
  draws : t.draws = s.draws

/-- What a misaligned target `t` of JAL, JALR or a taken branch leaves (R313): the code, pc at one of two
values, the link register at one of two values, any latched word, and everything else unchanged but the
model's own counter of free values (log 10). -/
structure FaultsOnTarget (s t : State) (link : Option RegIdx) (target : Word) : Prop where
  runState : t.runState = .faulted
  faultCode : t.faultCode = .pcMisaligned
  pc : t.pc = s.pc ∨ t.pc = target
  linkReg : ∀ i : RegIdx, t.reg i = s.reg i ∨ (link = some i ∧ i ≠ 0 ∧ t.reg i = s.pc + 4#32)
  memory : SameMemory s t
  insn : t.insn = s.insn
  loadDest : t.loadDest = s.loadDest
  loadKind : t.loadKind = s.loadKind
  readEngine : t.readEngine = s.readEngine
  readPort : t.readPort = s.readPort
  writeEngine : t.writeEngine = s.writeEngine
  params : t.params = s.params

/-! ### What an instruction answers -/

/-- No byte of the access of `n` bytes at `a` is in the UART region (R65). -/
def ClearOfUart (s : State) (a : Word) (n : Nat) : Prop :=
  ∀ k < n, isUart s.params (a + BitVec.ofNat 32 k) = false

/-- `i` completes and only writes `v` to `rd`. -/
def WriteResult (s : State) (i : Instr) (rd : RegIdx) (v : Word) : Prop :=
  ∃ t, exec i s = .next t ∧ OnlyWrites s t rd v

/-- `i` completes as a load of kind `kind` that writes `v` to `rd`; it also remembers its destination and
width (R50). -/
def LoadResult (s : State) (i : Instr) (kind : LoadKind) (rd : RegIdx) (v : Word) : Prop :=
  ∃ t, exec i s = .next t ∧ WritesReg s t rd v ∧ SameMemory s t ∧
    Completes { s with loadDest := rd, loadKind := kind } t (s.pc + 4#32)

/-- `i` completes as a store of the low `n` bytes of `v` at `a`; no register changes. -/
def StoreResult (s : State) (i : Instr) (a : Word) (n : Nat) (v : Word) : Prop :=
  ∃ t, exec i s = .next t ∧ StoresBytes s t a n v ∧ SameRegs s t ∧ Completes s t (s.pc + 4#32)

/-- `i` is a branch with condition `taken`: taken to an aligned target it goes there, taken to a
misaligned one it faults, not taken it goes on at `pc + 4` whatever its target (R290, R297). -/
def BranchResult (s : State) (i : Instr) (target : Word) (taken : Prop) : Prop :=
  (taken → target.toNat % 4 = 0 →
    ∃ t, exec i s = .next t ∧ SameRegs s t ∧ SameMemory s t ∧ Completes s t target) ∧
  (taken → target.toNat % 4 ≠ 0 → ∃ t, exec i s = .next t ∧ FaultsOnTarget s t none target) ∧
  (¬ taken → ∃ t, exec i s = .next t ∧ SameRegs s t ∧ SameMemory s t ∧ Completes s t (s.pc + 4#32))

/-- `i` is a jump that links in `rd`: to an aligned target it links and goes there, to a misaligned one
it faults (R310, R311). -/
def JumpResult (s : State) (i : Instr) (rd : RegIdx) (target : Word) : Prop :=
  (target.toNat % 4 = 0 →
    ∃ t, exec i s = .next t ∧ WritesReg s t rd (s.pc + 4#32) ∧ SameMemory s t ∧ Completes s t target) ∧
  (target.toNat % 4 ≠ 0 → ∃ t, exec i s = .next t ∧ FaultsOnTarget s t (some rd) target)

/-! ### Instructions by what they may do -/

/-- The register an instruction may write (R32). -/
def destReg : Instr → Option RegIdx
  | .lb rd _ _ => some rd
  | .lh rd _ _ => some rd
  | .lw rd _ _ => some rd
  | .lbu rd _ _ => some rd
  | .lhu rd _ _ => some rd
  | .fence _ _ _ _ _ => none
  | .addi rd _ _ => some rd
  | .slti rd _ _ => some rd
  | .sltiu rd _ _ => some rd
  | .xori rd _ _ => some rd
  | .ori rd _ _ => some rd
  | .andi rd _ _ => some rd
  | .slli rd _ _ => some rd
  | .srli rd _ _ => some rd
  | .srai rd _ _ => some rd
  | .add rd _ _ => some rd
  | .sub rd _ _ => some rd
  | .sll rd _ _ => some rd
  | .slt rd _ _ => some rd
  | .sltu rd _ _ => some rd
  | .xor rd _ _ => some rd
  | .srl rd _ _ => some rd
  | .sra rd _ _ => some rd
  | .or rd _ _ => some rd
  | .and rd _ _ => some rd
  | .lui rd _ => some rd
  | .auipc rd _ => some rd
  | .sb _ _ _ => none
  | .sh _ _ _ => none
  | .sw _ _ _ => none
  | .beq _ _ _ => none
  | .bne _ _ _ => none
  | .blt _ _ _ => none
  | .bge _ _ _ => none
  | .bltu _ _ _ => none
  | .bgeu _ _ _ => none
  | .jal rd _ => some rd
  | .jalr rd _ _ => some rd
  | .ecall => some 1
  | .ebreak => some 1

/-- JAL, JALR and the branches: the instructions that may set pc to a target (R37). -/
def isTransfer : Instr → Bool
  | .lb _ _ _ => false
  | .lh _ _ _ => false
  | .lw _ _ _ => false
  | .lbu _ _ _ => false
  | .lhu _ _ _ => false
  | .fence _ _ _ _ _ => false
  | .addi _ _ _ => false
  | .slti _ _ _ => false
  | .sltiu _ _ _ => false
  | .xori _ _ _ => false
  | .ori _ _ _ => false
  | .andi _ _ _ => false
  | .slli _ _ _ => false
  | .srli _ _ _ => false
  | .srai _ _ _ => false
  | .add _ _ _ => false
  | .sub _ _ _ => false
  | .sll _ _ _ => false
  | .slt _ _ _ => false
  | .sltu _ _ _ => false
  | .xor _ _ _ => false
  | .srl _ _ _ => false
  | .sra _ _ _ => false
  | .or _ _ _ => false
  | .and _ _ _ => false
  | .lui _ _ => false
  | .auipc _ _ => false
  | .sb _ _ _ => false
  | .sh _ _ _ => false
  | .sw _ _ _ => false
  | .beq _ _ _ => true
  | .bne _ _ _ => true
  | .blt _ _ _ => true
  | .bge _ _ _ => true
  | .bltu _ _ _ => true
  | .bgeu _ _ _ => true
  | .jal _ _ => true
  | .jalr _ _ _ => true
  | .ecall => false
  | .ebreak => false

/-- Where an instruction transfers control to: the target of JAL (R310) and JALR (R311), and of a branch
whose condition holds (R290 to R296); none for every other instruction and for a branch not taken. -/
def transferTarget (s : State) : Instr → Option Word
  | .lb _ _ _ => none
  | .lh _ _ _ => none
  | .lw _ _ _ => none
  | .lbu _ _ _ => none
  | .lhu _ _ _ => none
  | .fence _ _ _ _ _ => none
  | .addi _ _ _ => none
  | .slti _ _ _ => none
  | .sltiu _ _ _ => none
  | .xori _ _ _ => none
  | .ori _ _ _ => none
  | .andi _ _ _ => none
  | .slli _ _ _ => none
  | .srli _ _ _ => none
  | .srai _ _ _ => none
  | .add _ _ _ => none
  | .sub _ _ _ => none
  | .sll _ _ _ => none
  | .slt _ _ _ => none
  | .sltu _ _ _ => none
  | .xor _ _ _ => none
  | .srl _ _ _ => none
  | .sra _ _ _ => none
  | .or _ _ _ => none
  | .and _ _ _ => none
  | .lui _ _ => none
  | .auipc _ _ => none
  | .sb _ _ _ => none
  | .sh _ _ _ => none
  | .sw _ _ _ => none
  | .beq rs1 rs2 offset => if s.reg rs1 = s.reg rs2 then some (s.pc + sextBranch offset) else none
  | .bne rs1 rs2 offset => if s.reg rs1 ≠ s.reg rs2 then some (s.pc + sextBranch offset) else none
  | .blt rs1 rs2 offset => if (s.reg rs1).toInt < (s.reg rs2).toInt then some (s.pc + sextBranch offset) else none
  | .bge rs1 rs2 offset => if (s.reg rs1).toInt ≥ (s.reg rs2).toInt then some (s.pc + sextBranch offset) else none
  | .bltu rs1 rs2 offset => if (s.reg rs1).toNat < (s.reg rs2).toNat then some (s.pc + sextBranch offset) else none
  | .bgeu rs1 rs2 offset => if (s.reg rs1).toNat ≥ (s.reg rs2).toNat then some (s.pc + sextBranch offset) else none
  | .jal _ offset => some (s.pc + sextJump offset)
  | .jalr _ rs1 imm => some (s.effAddr rs1 imm &&& 0xFFFFFFFE#32)
  | .ecall => none
  | .ebreak => none

/-- SB, SH and SW. -/
def isStore : Instr → Bool
  | .lb _ _ _ => false
  | .lh _ _ _ => false
  | .lw _ _ _ => false
  | .lbu _ _ _ => false
  | .lhu _ _ _ => false
  | .fence _ _ _ _ _ => false
  | .addi _ _ _ => false
  | .slti _ _ _ => false
  | .sltiu _ _ _ => false
  | .xori _ _ _ => false
  | .ori _ _ _ => false
  | .andi _ _ _ => false
  | .slli _ _ _ => false
  | .srli _ _ _ => false
  | .srai _ _ _ => false
  | .add _ _ _ => false
  | .sub _ _ _ => false
  | .sll _ _ _ => false
  | .slt _ _ _ => false
  | .sltu _ _ _ => false
  | .xor _ _ _ => false
  | .srl _ _ _ => false
  | .sra _ _ _ => false
  | .or _ _ _ => false
  | .and _ _ _ => false
  | .lui _ _ => false
  | .auipc _ _ => false
  | .sb _ _ _ => true
  | .sh _ _ _ => true
  | .sw _ _ _ => true
  | .beq _ _ _ => false
  | .bne _ _ _ => false
  | .blt _ _ _ => false
  | .bge _ _ _ => false
  | .bltu _ _ _ => false
  | .bgeu _ _ _ => false
  | .jal _ _ => false
  | .jalr _ _ _ => false
  | .ecall => false
  | .ebreak => false

/-- The steps of an instruction in the reference cycle model (R176); `odd` is bit 0 of the effective
address of a load or store. -/
def referenceSteps : Instr → Bool → Nat
  | .lb _ _ _, _ => 6
  | .lh _ _ _, odd => if odd then 7 else 6
  | .lw _ _ _, odd => if odd then 8 else 7
  | .lbu _ _ _, _ => 6
  | .lhu _ _ _, odd => if odd then 7 else 6
  | .fence _ _ _ _ _, _ => 4
  | .addi _ _ _, _ => 5
  | .slti _ _ _, _ => 5
  | .sltiu _ _ _, _ => 5
  | .xori _ _ _, _ => 5
  | .ori _ _ _, _ => 5
  | .andi _ _ _, _ => 5
  | .slli _ _ _, _ => 5
  | .srli _ _ _, _ => 5
  | .srai _ _ _, _ => 5
  | .add _ _ _, _ => 5
  | .sub _ _ _, _ => 5
  | .sll _ _ _, _ => 5
  | .slt _ _ _, _ => 5
  | .sltu _ _ _, _ => 5
  | .xor _ _ _, _ => 5
  | .srl _ _ _, _ => 5
  | .sra _ _ _, _ => 5
  | .or _ _ _, _ => 5
  | .and _ _ _, _ => 5
  | .lui _ _, _ => 4
  | .auipc _ _, _ => 4
  | .sb _ _ _, _ => 6
  | .sh _ _ _, _ => 6
  | .sw _ _ _, odd => if odd then 7 else 6
  | .beq _ _ _, _ => 5
  | .bne _ _ _, _ => 5
  | .blt _ _ _, _ => 5
  | .bge _ _ _, _ => 5
  | .bltu _ _ _, _ => 5
  | .bgeu _ _ _, _ => 5
  | .jal _ _, _ => 4
  | .jalr _ _ _, _ => 5
  | .ecall, _ => 4
  | .ebreak, _ => 4

/-- Bit 0 of the effective address of a load or store; false for any other instruction. -/
def accessOdd (s : State) (i : Instr) : Bool :=
  match hartWork i with
  | .load _ _ rs1 imm => oddAddr (s.effAddr rs1 imm)
  | .store _ rs1 _ imm => oddAddr (s.effAddr rs1 imm)
  | .inDecode => false
  | .resolve _ => false

end Sys2Proof.Machine
end

