-- ==== Sys2Proof/Certificates/Slice0/Obligations.lean ====
section
/-! DEFINITION. The statements about the model, for the provers. -/

open Sys2Proof Sys2Proof.Machine

/-! ### Encoding -/

/-- Every well-formed instruction's word decodes to it with every operand, and so do its bytes followed
by any others. Derived from R121, R122, R126, R127. -/
def Obligations.DecodeOfEncodeIsTheInstruction : Prop :=
  ∀ i : Instr, WellFormed i →
    decodeWord (encode i) = .ok i ∧ ∀ rest, decode (encodeBytes i ++ rest) = .ok (i, rest)

/-- A word that decodes is the only word of its instruction, which is well-formed: no bit of a word is
read twice, dropped or ignored by the decoder. Derived from R121, R122, R126. -/
def Obligations.EncodeOfDecodeIsTheWord : Prop :=
  ∀ (w : Word) (i : Instr), decodeWord w = .ok i → WellFormed i ∧ encode i = w

/-- R127: a word decodes to an instruction exactly when it matches that instruction's row of the opcode
table, and it matches at most one row. -/
def Obligations.DecoderFollowsTheOpcodeTable : Prop :=
  (∀ w i, decodeWord w = .ok i → ∃ r ∈ opcodeTable, r.matches w = true ∧ r.mnemonic = i.mnemonic) ∧
  (∀ w, ∀ r ∈ opcodeTable, r.matches w = true → ∃ i, decodeWord w = .ok i ∧ i.mnemonic = r.mnemonic) ∧
  (∀ w, ∀ r ∈ opcodeTable, ∀ q ∈ opcodeTable, r.matches w = true → q.matches w = true → r = q)

/-- The rows of R126 with the fields of R121 and R122: a word that matches a row's mask decodes to that row's
instruction with the register numbers and the immediate that stand in the word. -/
def Obligations.EveryRowDecodesToItsFields : Prop :=
  (∀ (w : Word) (rd rs1 rs2 : RegIdx), rd.val = w.toNat / 2 ^ 7 % 32 → rs1.val = w.toNat / 2 ^ 15 % 32 →
    rs2.val = w.toNat / 2 ^ 20 % 32 →
    let immI : BitVec 12 := w.extractLsb' 20 12
    let immS : BitVec 12 := w.extractLsb' 25 7 ++ w.extractLsb' 7 5
    let offsetB : BitVec 13 :=
      w.extractLsb' 31 1 ++ (w.extractLsb' 7 1 ++ (w.extractLsb' 25 6 ++ (w.extractLsb' 8 4 ++ 0#1)))
    let offsetJ : BitVec 21 :=
      w.extractLsb' 31 1 ++ (w.extractLsb' 12 8 ++ (w.extractLsb' 20 1 ++ (w.extractLsb' 21 10 ++ 0#1)))
    (w &&& 0x0000707F#32 = 0x00000003#32 → decodeWord w = .ok (.lb rd rs1 immI)) ∧
    (w &&& 0x0000707F#32 = 0x00001003#32 → decodeWord w = .ok (.lh rd rs1 immI)) ∧
    (w &&& 0x0000707F#32 = 0x00002003#32 → decodeWord w = .ok (.lw rd rs1 immI)) ∧
    (w &&& 0x0000707F#32 = 0x00004003#32 → decodeWord w = .ok (.lbu rd rs1 immI)) ∧
    (w &&& 0x0000707F#32 = 0x00005003#32 → decodeWord w = .ok (.lhu rd rs1 immI)) ∧
    (w &&& 0x0000707F#32 = 0x0000000F#32 → decodeWord w = .ok (.fence rd rs1 (w.extractLsb' 28 4) (w.extractLsb' 24 4) (w.extractLsb' 20 4))) ∧
    (w &&& 0x0000707F#32 = 0x00000013#32 → decodeWord w = .ok (.addi rd rs1 immI)) ∧
    (w &&& 0x0000707F#32 = 0x00002013#32 → decodeWord w = .ok (.slti rd rs1 immI)) ∧
    (w &&& 0x0000707F#32 = 0x00003013#32 → decodeWord w = .ok (.sltiu rd rs1 immI)) ∧
    (w &&& 0x0000707F#32 = 0x00004013#32 → decodeWord w = .ok (.xori rd rs1 immI)) ∧
    (w &&& 0x0000707F#32 = 0x00006013#32 → decodeWord w = .ok (.ori rd rs1 immI)) ∧
    (w &&& 0x0000707F#32 = 0x00007013#32 → decodeWord w = .ok (.andi rd rs1 immI)) ∧
    (w &&& 0xFE00707F#32 = 0x00001013#32 → decodeWord w = .ok (.slli rd rs1 (w.extractLsb' 20 5))) ∧
    (w &&& 0xFE00707F#32 = 0x00005013#32 → decodeWord w = .ok (.srli rd rs1 (w.extractLsb' 20 5))) ∧
    (w &&& 0xFE00707F#32 = 0x40005013#32 → decodeWord w = .ok (.srai rd rs1 (w.extractLsb' 20 5))) ∧
    (w &&& 0xFE00707F#32 = 0x00000033#32 → decodeWord w = .ok (.add rd rs1 rs2)) ∧
    (w &&& 0xFE00707F#32 = 0x40000033#32 → decodeWord w = .ok (.sub rd rs1 rs2)) ∧
    (w &&& 0xFE00707F#32 = 0x00001033#32 → decodeWord w = .ok (.sll rd rs1 rs2)) ∧
    (w &&& 0xFE00707F#32 = 0x00002033#32 → decodeWord w = .ok (.slt rd rs1 rs2)) ∧
    (w &&& 0xFE00707F#32 = 0x00003033#32 → decodeWord w = .ok (.sltu rd rs1 rs2)) ∧
    (w &&& 0xFE00707F#32 = 0x00004033#32 → decodeWord w = .ok (.xor rd rs1 rs2)) ∧
    (w &&& 0xFE00707F#32 = 0x00005033#32 → decodeWord w = .ok (.srl rd rs1 rs2)) ∧
    (w &&& 0xFE00707F#32 = 0x40005033#32 → decodeWord w = .ok (.sra rd rs1 rs2)) ∧
    (w &&& 0xFE00707F#32 = 0x00006033#32 → decodeWord w = .ok (.or rd rs1 rs2)) ∧
    (w &&& 0xFE00707F#32 = 0x00007033#32 → decodeWord w = .ok (.and rd rs1 rs2)) ∧
    (w &&& 0x0000007F#32 = 0x00000037#32 → decodeWord w = .ok (.lui rd (w.extractLsb' 12 20))) ∧
    (w &&& 0x0000007F#32 = 0x00000017#32 → decodeWord w = .ok (.auipc rd (w.extractLsb' 12 20))) ∧
    (w &&& 0x0000707F#32 = 0x00000023#32 → decodeWord w = .ok (.sb rs1 rs2 immS)) ∧
    (w &&& 0x0000707F#32 = 0x00001023#32 → decodeWord w = .ok (.sh rs1 rs2 immS)) ∧
    (w &&& 0x0000707F#32 = 0x00002023#32 → decodeWord w = .ok (.sw rs1 rs2 immS)) ∧
    (w &&& 0x0000707F#32 = 0x00000063#32 → decodeWord w = .ok (.beq rs1 rs2 offsetB)) ∧
    (w &&& 0x0000707F#32 = 0x00001063#32 → decodeWord w = .ok (.bne rs1 rs2 offsetB)) ∧
    (w &&& 0x0000707F#32 = 0x00004063#32 → decodeWord w = .ok (.blt rs1 rs2 offsetB)) ∧
    (w &&& 0x0000707F#32 = 0x00005063#32 → decodeWord w = .ok (.bge rs1 rs2 offsetB)) ∧
    (w &&& 0x0000707F#32 = 0x00006063#32 → decodeWord w = .ok (.bltu rs1 rs2 offsetB)) ∧
    (w &&& 0x0000707F#32 = 0x00007063#32 → decodeWord w = .ok (.bgeu rs1 rs2 offsetB)) ∧
    (w &&& 0x0000007F#32 = 0x0000006F#32 → decodeWord w = .ok (.jal rd offsetJ)) ∧
    (w &&& 0x0000707F#32 = 0x00000067#32 → decodeWord w = .ok (.jalr rd rs1 immI))) ∧
  decodeWord 0x00000073#32 = .ok .ecall ∧ decodeWord 0x00100073#32 = .ok .ebreak

/-- The immediates of R122, by value and bit by bit: `imm_I` is the word's signed value without its low
20 bits, `imm_U` the word without its low 12 bits, and each bit of `imm_S`, `imm_B` and `imm_J` is the bit
of the word that the rule names, with `insn[31]` above. -/
def Obligations.ImmediatesAreTheNamedBits : Prop :=
  ∀ w : Word,
    (sextImm (fieldImmI w)).toInt = w.toInt / 2 ^ 20 ∧
    upperImm (fieldImmU w) = w &&& 0xFFFFF000#32 ∧
    (∀ k < 32, (sextImm (fieldImmS w)).getLsbD k =
      if k < 5 then w.getLsbD (k + 7) else if k < 11 then w.getLsbD (k + 20) else w.getLsbD 31) ∧
    (∀ k < 32, (sextBranch (fieldImmB w)).getLsbD k =
      if k = 0 then false else if k < 5 then w.getLsbD (k + 7) else if k < 11 then w.getLsbD (k + 20)
      else if k = 11 then w.getLsbD 7 else w.getLsbD 31) ∧
    (∀ k < 32, (sextJump (fieldImmJ w)).getLsbD k =
      if k = 0 then false else if k < 11 then w.getLsbD (k + 20) else if k = 11 then w.getLsbD 20
      else if k < 20 then w.getLsbD k else w.getLsbD 31)

/-- The words of the spec's own examples decode to the instructions it gives for them, one for each
family, and its illegal examples do not decode. -/
def Obligations.ExampleWordsDecode : Prop :=
  decodeWord 0x00108283#32 = .ok (.lb 5 1 1#12) ∧
  decodeWord 0x0FF0000F#32 = .ok (.fence 0 0 0#4 15#4 15#4) ∧
  decodeWord 0xFFF08293#32 = .ok (.addi 5 1 0xFFF#12) ∧
  decodeWord 0x4040D293#32 = .ok (.srai 5 1 4#5) ∧
  decodeWord 0x402082B3#32 = .ok (.sub 5 1 2) ∧
  decodeWord 0x12345297#32 = .ok (.auipc 5 0x12345#20) ∧
  decodeWord 0x0020A0A3#32 = .ok (.sw 1 2 1#12) ∧
  decodeWord 0xFE209CE3#32 = .ok (.bne 1 2 0x1FF8#13) ∧
  decodeWord 0xFF9FF0EF#32 = .ok (.jal 1 0x1FFFF8#21) ∧
  decodeWord 0xFFC28067#32 = .ok (.jalr 0 5 0xFFC#12) ∧
  decodeWord 0x00100073#32 = .ok .ebreak ∧
  decodeWord 0x0200D293#32 = .error (.unknownFunct7 0x13#7 5#3 1#7) ∧
  decodeWord 0x0000100F#32 = .error (.unknownFunct3 0x0F#7 1#3) ∧
  decodeWord 0x30200073#32 = .error (.unknownSystem 0x30200073#32)

/-- R129 and R128: a word whose low two bits are not 11, and both sentinel words, do not decode. Fewer
than four bytes decode to nothing. -/
def Obligations.ShortAndSentinelWordsAreIllegal : Prop :=
  (∀ w : Word, w.extractLsb' 0 2 ≠ 0b11#2 → ∃ e, decodeWord w = .error e) ∧
  (∃ e, decodeWord 0x00000000#32 = .error e) ∧ (∃ e, decodeWord 0xFFFFFFFF#32 = .error e) ∧
  (∀ bytes : List Byte, bytes.length < 4 → decode bytes = .error (.truncated bytes.length))

/-! ### Memory -/

/-- R62, R63: byte address `a` is lane `a & 1` of cell `(a >> 1) mod MEM_DEPTH`, the even address in the
low lane, and two addresses are the same byte when they agree modulo `2 * MEM_DEPTH`. -/
def Obligations.ByteIsItsLaneOfItsCell : Prop :=
  ∀ (s : State) (a : Word),
    s.byteAt a = (let c := cellAt (memDepth s.params) s.mem (a.toNat / 2)
      if a.toNat % 2 = 0 then laneLo c else laneHi c) ∧
    (∀ b : Word, a.toNat % (2 * memDepth s.params) = b.toNat % (2 * memDepth s.params) → s.byteAt a = s.byteAt b) ∧
    (∀ i, cellAt (memDepth s.params) s.mem (i % memDepth s.params) = cellAt (memDepth s.params) s.mem i)

/-- R70: byte `k` of a response is `ByteAt(a + k)`, and the bits above the width are zero; those zeros are
the spec's choice D26 (log 27). -/
def Obligations.ReadAssemblesBytesLittleEndian : Prop :=
  ∀ (s : State) (w : Width) (a : Word),
    (∀ k < widthBytes w, (s.memRead w a).extractLsb' (8 * k) 8 = s.byteAt (a + BitVec.ofNat 32 k)) ∧
    (∀ j, 8 * widthBytes w ≤ j → (s.memRead w a).getLsbD j = false)

/-- R74: a beat sets the masked lanes of its cell, modulo `MEM_DEPTH`, and leaves every other lane. -/
def Obligations.BeatWritesMaskedLanes : Prop :=
  ∀ (p : Params) (m : Memory) (b : Beat) (i : Nat),
    laneLo (cellAt (memDepth p) (applyBeat (memDepth p) m b) i) =
      (if b.low = true ∧ i % memDepth p = b.cell % memDepth p then laneLo b.data else laneLo (cellAt (memDepth p) m i)) ∧
    laneHi (cellAt (memDepth p) (applyBeat (memDepth p) m b) i) =
      (if b.high = true ∧ i % memDepth p = b.cell % memDepth p then laneHi b.data else laneHi (cellAt (memDepth p) m i))

/-- R75: after all beats of a write the bytes at `a`, `a + 1`, ... hold the bytes of the value and every
other byte of memory is unchanged. -/
def Obligations.WriteStoresConsecutiveBytes : Prop :=
  ∀ (s : State) (w : Width) (a v : Word),
    StoresBytes s { s with mem := memWrite (memDepth s.params) s.mem w a v } a (widthBytes w) v

/-- R77: reading back what was written gives the value masked to the width, at every address, width and
value, and for every `MEM_DEPTH`. -/
def Obligations.ReadAfterWriteReturnsTheValue : Prop :=
  ∀ (s : State) (w : Width) (a v : Word),
    State.memRead { s with mem := memWrite (memDepth s.params) s.mem w a v } w a =
      v &&& (match w with | .byte => 0xFF#32 | .half => 0xFFFF#32 | .word => 0xFFFFFFFF#32)

/-- R373: byte `i` of a boot image that fits is at byte address `i`; cell `k` holds bytes `2k` and `2k + 1`
of it; an odd image's last byte is in the low lane of its cell and the high lane is a draw. -/
def Obligations.BootImageLiesAtItsAddresses : Prop :=
  ∀ (draws : Vector Word 32) (image : List Byte) (p : Params), image.length ≤ 2 * memDepth p →
    let s := State.powerOn draws image p
    (∀ i, (h : i < image.length) → s.byteAt (BitVec.ofNat 32 i) = image[i]) ∧
    (∀ k, (h : 2 * k + 1 < image.length) → cellAt (memDepth p) s.mem k = image[2 * k + 1] ++ image[2 * k]) ∧
    (∀ k, (h : image.length = 2 * k + 1) →
      cellAt (memDepth p) s.mem k = Config.powerOnByte (2 * k + 1) ++ image[2 * k])

/-! ### Fetch and decode of a step -/

/-- A step from a boundary runs the instruction that the four bytes at pc decode to: it applies the pending
write-back, stores the word in `insn`, and is `exec` of that instruction (R175, R120, R162). -/
def Obligations.StepRunsTheDecodedInstruction : Prop :=
  ∀ (s : State) (i : Instr) (rest : List Byte), s.AtBoundary → s.pc.toNat % 4 = 0 → ClearOfUart s s.pc 4 →
    decode s.fetchBytes = .ok (i, rest) →
    step s = exec i { s.commit with
      insn := wordOfBytes (s.byteAt s.pc) (s.byteAt (s.pc + 1#32)) (s.byteAt (s.pc + 2#32)) (s.byteAt (s.pc + 3#32)) }

/-- R162, R128: fetching a sentinel word is the fault ILLEGAL_INSTRUCTION latching that word; nothing but
the latch and the hart's state changes, and the word is not stored in `insn`. -/
def Obligations.SentinelWordHalts : Prop :=
  ∀ s : State, s.AtBoundary → s.pc.toNat % 4 = 0 → ClearOfUart s s.pc 4 →
    (s.fetchWord = 0x00000000#32 ∨ s.fetchWord = 0xFFFFFFFF#32) →
    ∃ t, step s = .next t ∧ FaultsWith s t .illegalInstruction s.fetchWord ∧ t.insn = s.insn

/-- R131, R333: fetching a word that is no instruction is the fault ILLEGAL_INSTRUCTION latching that word,
which `insn` holds unless it is a sentinel (R162); nothing but these and the hart's state changes. -/
def Obligations.UndecodableWordFaults : Prop :=
  ∀ (s : State) (e : DecodeError), s.AtBoundary → s.pc.toNat % 4 = 0 → ClearOfUart s s.pc 4 →
    decodeWord s.fetchWord = .error e →
    ∃ t, step s = .next t ∧ FaultsWith s t .illegalInstruction s.fetchWord ∧
      t.insn = if s.fetchWord = 0x00000000#32 ∨ s.fetchWord = 0xFFFFFFFF#32 then s.insn else s.fetchWord

/-- R161, R334: a fetch from a misaligned pc is the fault PC_MISALIGNED latching the pc; nothing but the
latch and the hart's state changes, `insn` included. That it comes before the UART check is the order of
R337, the spec's decision D25. -/
def Obligations.MisalignedFetchLatchesThePc : Prop :=
  ∀ s : State, s.AtBoundary → s.pc.toNat % 4 ≠ 0 →
    ∃ t, step s = .next t ∧ FaultsWith s t .pcMisaligned s.pc ∧ t.insn = s.insn

/-- A fetch, load or store any of whose bytes is in the UART region is refused (R65, the spec's decision
D5); that the refusal names the kind of access and its first byte address is the model's choice (log 24). -/
def Obligations.UartAccessIsRefused : Prop :=
  (∀ s : State, s.AtBoundary → s.pc.toNat % 4 = 0 → ¬ ClearOfUart s s.pc 4 →
    step s = .refused (.uartAccess .fetch s.pc)) ∧
  (∀ (s : State) (r rs1 : RegIdx) (imm : BitVec 12), let a := s.reg rs1 + imm.signExtend 32
    (¬ ClearOfUart s a 1 → exec (.lb r rs1 imm) s = .refused (.uartAccess .load a) ∧
      exec (.lbu r rs1 imm) s = .refused (.uartAccess .load a) ∧
      exec (.sb rs1 r imm) s = .refused (.uartAccess .store a)) ∧
    (¬ ClearOfUart s a 2 → exec (.lh r rs1 imm) s = .refused (.uartAccess .load a) ∧
      exec (.lhu r rs1 imm) s = .refused (.uartAccess .load a) ∧
      exec (.sh rs1 r imm) s = .refused (.uartAccess .store a)) ∧
    (¬ ClearOfUart s a 4 → exec (.lw r rs1 imm) s = .refused (.uartAccess .load a) ∧
      exec (.sw rs1 r imm) s = .refused (.uartAccess .store a)))

/-! ### The instructions -/

/-- R200 to R205: each load returns the bytes at `x[rs1] + imm_I`, at any alignment, extended as its rule
says; a destination of x0 discards the value; memory is unchanged. -/
def Obligations.LoadsReturnTheExtendedBytes : Prop :=
  ∀ (s : State) (rd rs1 : RegIdx) (imm : BitVec 12),
    let a := s.reg rs1 + imm.signExtend 32
    let half : BitVec 16 := s.byteAt (a + 1#32) ++ s.byteAt a
    (ClearOfUart s a 1 → LoadResult s (.lb rd rs1 imm) .b rd (BitVec.ofInt 32 (s.byteAt a).toInt)) ∧
    (ClearOfUart s a 2 → LoadResult s (.lh rd rs1 imm) .h rd (BitVec.ofInt 32 half.toInt)) ∧
    (ClearOfUart s a 4 → LoadResult s (.lw rd rs1 imm) .w rd
      (s.byteAt (a + 3#32) ++ (s.byteAt (a + 2#32) ++ (s.byteAt (a + 1#32) ++ s.byteAt a)))) ∧
    (ClearOfUart s a 1 → LoadResult s (.lbu rd rs1 imm) .bu rd (BitVec.ofNat 32 (s.byteAt a).toNat)) ∧
    (ClearOfUart s a 2 → LoadResult s (.lhu rd rs1 imm) .hu rd (BitVec.ofNat 32 half.toNat))

/-- R220: FENCE with any fields is a no-op: pc advances and nothing else changes, not even `x[rd]`. -/
def Obligations.FenceOnlyAdvancesThePc : Prop :=
  ∀ (s : State) (rd rs1 : RegIdx) (fm pred succ : BitVec 4),
    ∃ t, exec (.fence rd rs1 fm pred succ) s = .next t ∧
      SameRegs s t ∧ SameMemory s t ∧ Completes s t (s.pc + 4#32)

/-- R231 to R236: the OP-IMM arithmetic, comparisons and bitwise operations, by integer value. -/
def Obligations.ImmediateArithmeticResults : Prop :=
  ∀ (s : State) (rd rs1 : RegIdx) (imm : BitVec 12),
    let a := s.reg rs1
    WriteResult s (.addi rd rs1 imm) rd (BitVec.ofInt 32 (a.toInt + imm.toInt)) ∧
    WriteResult s (.slti rd rs1 imm) rd (if a.toInt < imm.toInt then 1#32 else 0#32) ∧
    WriteResult s (.sltiu rd rs1 imm) rd (if a.toNat < (imm.signExtend 32).toNat then 1#32 else 0#32) ∧
    WriteResult s (.xori rd rs1 imm) rd (a ^^^ imm.signExtend 32) ∧
    WriteResult s (.ori rd rs1 imm) rd (a ||| imm.signExtend 32) ∧
    WriteResult s (.andi rd rs1 imm) rd (a &&& imm.signExtend 32)

/-- R237 to R239: the OP-IMM shifts, by integer value: SLLI multiplies, SRLI divides the unsigned value and
SRAI the signed value (rounding down) by `2 ^ shamt`. -/
def Obligations.ImmediateShiftResults : Prop :=
  ∀ (s : State) (rd rs1 : RegIdx) (shamt : BitVec 5),
    let a := s.reg rs1
    WriteResult s (.slli rd rs1 shamt) rd (BitVec.ofNat 32 (a.toNat * 2 ^ shamt.toNat)) ∧
    WriteResult s (.srli rd rs1 shamt) rd (BitVec.ofNat 32 (a.toNat / 2 ^ shamt.toNat)) ∧
    WriteResult s (.srai rd rs1 shamt) rd (BitVec.ofInt 32 (a.toInt / 2 ^ shamt.toNat))

/-- R241, R242, R244 to R246, R249, R250: OP arithmetic, comparisons and bitwise operations. -/
def Obligations.RegisterArithmeticResults : Prop :=
  ∀ (s : State) (rd rs1 rs2 : RegIdx),
    let a := s.reg rs1
    let b := s.reg rs2
    WriteResult s (.add rd rs1 rs2) rd (BitVec.ofNat 32 (a.toNat + b.toNat)) ∧
    WriteResult s (.sub rd rs1 rs2) rd (BitVec.ofInt 32 (a.toInt - b.toInt)) ∧
    WriteResult s (.slt rd rs1 rs2) rd (if a.toInt < b.toInt then 1#32 else 0#32) ∧
    WriteResult s (.sltu rd rs1 rs2) rd (if a.toNat < b.toNat then 1#32 else 0#32) ∧
    WriteResult s (.xor rd rs1 rs2) rd (a ^^^ b) ∧
    WriteResult s (.or rd rs1 rs2) rd (a ||| b) ∧
    WriteResult s (.and rd rs1 rs2) rd (a &&& b)

/-- R243, R247, R248: the OP shifts take their amount modulo 32 (R251). -/
def Obligations.RegisterShiftResults : Prop :=
  ∀ (s : State) (rd rs1 rs2 : RegIdx),
    let a := s.reg rs1
    let n := (s.reg rs2).toNat % 32
    WriteResult s (.sll rd rs1 rs2) rd (BitVec.ofNat 32 (a.toNat * 2 ^ n)) ∧
    WriteResult s (.srl rd rs1 rs2) rd (BitVec.ofNat 32 (a.toNat / 2 ^ n)) ∧
    WriteResult s (.sra rd rs1 rs2) rd (BitVec.ofInt 32 (a.toInt / 2 ^ n))

/-- R270, R271: LUI writes `imm << 12`, AUIPC adds it to the instruction's own address. -/
def Obligations.UpperImmediateResults : Prop :=
  ∀ (s : State) (rd : RegIdx) (imm : BitVec 20),
    WriteResult s (.lui rd imm) rd (BitVec.ofNat 32 (imm.toNat * 4096)) ∧
    WriteResult s (.auipc rd imm) rd (BitVec.ofNat 32 (s.pc.toNat + imm.toNat * 4096))

/-- R280 to R283: each store writes the low bytes of `x[rs2]` at `x[rs1] + imm_S`, at any alignment, and no
other byte and no register. -/
def Obligations.StoresWriteTheLowBytes : Prop :=
  ∀ (s : State) (rs1 rs2 : RegIdx) (imm : BitVec 12),
    let a := s.reg rs1 + imm.signExtend 32
    (ClearOfUart s a 1 → StoreResult s (.sb rs1 rs2 imm) a 1 (s.reg rs2)) ∧
    (ClearOfUart s a 2 → StoreResult s (.sh rs1 rs2 imm) a 2 (s.reg rs2)) ∧
    (ClearOfUart s a 4 → StoreResult s (.sw rs1 rs2 imm) a 4 (s.reg rs2))

/-- R290 to R297: each branch compares two registers as its rule says, and goes to `pc + imm_B`, faults on
a misaligned target only if taken, or goes on. -/
def Obligations.BranchesCompareAndGo : Prop :=
  ∀ (s : State) (rs1 rs2 : RegIdx) (offset : BitVec 13),
    let a := s.reg rs1
    let b := s.reg rs2
    let target := s.pc + offset.signExtend 32
    BranchResult s (.beq rs1 rs2 offset) target (a = b) ∧
    BranchResult s (.bne rs1 rs2 offset) target (a ≠ b) ∧
    BranchResult s (.blt rs1 rs2 offset) target (a.toInt < b.toInt) ∧
    BranchResult s (.bge rs1 rs2 offset) target (a.toInt ≥ b.toInt) ∧
    BranchResult s (.bltu rs1 rs2 offset) target (a.toNat < b.toNat) ∧
    BranchResult s (.bgeu rs1 rs2 offset) target (a.toNat ≥ b.toNat)

/-- R310: JAL links `pc + 4` and goes to `pc + imm_J`, or faults on a misaligned target. -/
def Obligations.JalLinksAndGoes : Prop :=
  ∀ (s : State) (rd : RegIdx) (offset : BitVec 21),
    JumpResult s (.jal rd offset) rd (s.pc + offset.signExtend 32)

/-- R311: JALR links `pc + 4` and goes to `x[rs1] + imm_I` with bit 0 cleared, the old `x[rs1]` if `rd = rs1`,
or faults on a misaligned target. -/
def Obligations.JalrLinksAndGoes : Prop :=
  ∀ (s : State) (rd rs1 : RegIdx) (imm : BitVec 12),
    JumpResult s (.jalr rd rs1 imm) rd (BitVec.ofNat 32 ((s.reg rs1 + imm.signExtend 32).toNat / 2 * 2))

/-- R320, R321: ECALL and EBREAK write their fixed values to x1, the same at every one of a run, and do
not trap. -/
def Obligations.SystemCallsWriteTheirValuesToX1 : Prop :=
  ∀ s : State, WriteResult s .ecall 1 Config.ecallX1 ∧ WriteResult s .ebreak 1 Config.ebreakX1

/-! ### Whole-machine rules -/

/-- R32: an instruction changes the reading of no register but its destination, and never of x0; stores,
branches and FENCE have no destination. -/
def Obligations.OnlyTheDestinationRegisterChanges : Prop :=
  ∀ (i : Instr) (s t : State), exec i s = .next t →
    (∀ r : RegIdx, destReg i ≠ some r ∨ r = 0 → t.reg r = s.reg r) ∧ t.reg 0 = 0#32

/-- Only SB, SH and SW change memory (R79, R280). -/
def Obligations.OnlyStoresChangeMemory : Prop :=
  ∀ (i : Instr) (s t : State), exec i s = .next t → isStore i = false → SameMemory s t

/-- R37: an instruction that completes sets pc to `pc + 4`, unless it is JAL, JALR or a branch, which may
set an aligned target. -/
def Obligations.PcAdvancesByFourUnlessTransferred : Prop :=
  ∀ (i : Instr) (s t : State), exec i s = .next t → t.runState = .running →
    (isTransfer i = false → t.pc = s.pc + 4#32) ∧ (s.pc.toNat % 4 = 0 → t.pc.toNat % 4 = 0)

/-- R335, R313: once decoded, only JAL, JALR and taken branches can fault, only when the target they transfer
to is misaligned, and such a fault leaves everything but the latch, pc, the link register and the counter
of free values unchanged; which of their values the first three take is free (log 10). -/
def Obligations.OnlyMisalignedTransfersFault : Prop :=
  ∀ (i : Instr) (s t : State), exec i s = .next t → t.runState = .faulted →
    isTransfer i = true ∧ ∃ target : Word, transferTarget s i = some target ∧ target.toNat % 4 ≠ 0 ∧
      FaultsOnTarget s t (destReg i) target

/-- Every decoded instruction has an effect: it answers a next state, or it is a load or store some byte of
whose access at `x[rs1] + imm` is in the UART region, and is refused for that (R65, R175). The refusal's
name and address are the model's choice (log 24). -/
def Obligations.EveryInstructionRunsOrTouchesUart : Prop :=
  ∀ (i : Instr) (s : State), (∃ t, exec i s = .next t) ∨
    (∃ k rd rs1 imm, hartWork i = .load k rd rs1 imm ∧
      ¬ ClearOfUart s (s.effAddr rs1 imm) (widthBytes (loadWidth k)) ∧
      exec i s = .refused (.uartAccess .load (s.effAddr rs1 imm))) ∨
    (∃ w rs1 rs2 imm, hartWork i = .store w rs1 rs2 imm ∧
      ¬ ClearOfUart s (s.effAddr rs1 imm) (widthBytes w) ∧
      exec i s = .refused (.uartAccess .store (s.effAddr rs1 imm)))

/-- R86, R379: a store to the next instruction is seen by its fetch. -/
def Obligations.NextFetchSeesTheStore : Prop :=
  ∀ (s t : State) (rs1 rs2 : RegIdx) (imm : BitVec 12), exec (.sw rs1 rs2 imm) s = .next t →
    s.reg rs1 + imm.signExtend 32 = s.pc + 4#32 → t.fetchWord = s.reg rs2

/-- R330, R171: from FAULTED no number of steps or cycles changes anything. -/
def Obligations.FaultedIsTerminal : Prop :=
  ∀ (s : State) (n : Nat), s.runState = .faulted →
    core.run n s = .next s ∧ cycles n s = .next s

/-- R340, R370: whatever the environment does, FAULTED is left only by an external reset, which is accepted
in every state. -/
def Obligations.OnlyExternalResetLeavesFaulted : Prop :=
  (∀ (s t : State) (es : List Event), s.runState = .faulted → reactAll es s = .next t → t.runState = .running →
    Event.externalReset ∈ es) ∧
  (∀ s : State, ∃ t, react .externalReset s = .next t ∧ t.AtBoundary ∧ t.runState = .running)

/-- R371: the reset state of every piece of state the rule gives a value, and what reset leaves
unchanged; a pending write-back and any transaction are dropped. -/
def Obligations.ExternalResetState : Prop :=
  ∀ s : State, let t := s.externalReset
    t.hart = .fetchRequest ∧ t.pc = 0#32 ∧ t.runState = .running ∧ t.faultCode = .unset ∧ t.faultInsn = 0#32 ∧
    t.reg 0 = 0#32 ∧ (∀ i : RegIdx, i ≠ 0 → t.reg i = s.regs[i]) ∧ t.pending = none ∧
    t.readEngine = .idle ∧ t.writeEngine = .idle ∧ t.inFlight = [] ∧ SameMemory s t

/-- R348: a step ends in the halt exactly when it fetched a sentinel word. -/
def Obligations.HaltIsExactlyASentinelFetch : Prop :=
  ∀ s t : State, s.AtBoundary → s.Inv → step s = .next t →
    (t.Halted ↔ ClearOfUart s s.pc 4 ∧ (s.fetchWord = 0x00000000#32 ∨ s.fetchWord = 0xFFFFFFFF#32))

/-- R346: the debug surface shows register `i` as the next instruction would read it, a pending write-back
merged in, and applying that write-back changes nothing it shows; x0 shows 0. It shows every cell and byte
of memory as they stand (R78; the units are log 32's choice). -/
def Obligations.DebugSurfaceMergesThePendingWrite : Prop :=
  (∀ (s : State) (i : RegIdx), s.debugView.regs[i] = s.commit.reg i ∧ s.commit.debugView = s.debugView) ∧
  (∀ (s : State) (i : RegIdx) (v : Word), i ≠ 0 → (s.schedule i v).debugView.regs[i] = v) ∧
  (∀ s : State, s.debugView.regs[(0 : RegIdx)] = 0#32 ∧ s.debugView.pc = s.pc ∧ s.debugView.runState = s.runState ∧
    s.debugView.faultInsn = s.faultInsn ∧
    s.debugView.faultCode = (match s.faultCode with | .unset => 0 | .illegalInstruction => 1 | .pcMisaligned => 2)) ∧
  (∀ (s : State) (a : Word) (i : Nat), s.debugView.byte a = s.byteAt a ∧
    s.debugView.cell i = cellAt (memDepth s.params) s.mem i)

/-- The OPEN parameters of R8 are fixed: no step and no event changes them. -/
def Obligations.ParametersNeverChange : Prop :=
  (∀ s t : State, step s = .next t → t.params = s.params) ∧
  (∀ (e : Event) (s t : State), react e s = .next t → t.params = s.params)

/-! ### Invariants -/

/-- The invariant holds at `State.reset` and at power-on with any draws, any image that fits and any
parameters (R371 to R374). -/
def Obligations.PowerOnMeetsTheInvariant : Prop :=
  State.reset.Inv ∧
  ∀ (draws : Vector Word 32) (image : List Byte) (p : Params), image.length ≤ 2 * memDepth p →
    (State.powerOn draws image p).Inv

/-- Every step keeps the invariant: canonical memory, aligned pc while RUNNING (R36), a fault code exactly
while FAULTED (R43), nothing stored in x0 (R31), no write-back pending past the fetch (R49, R163) and a bus
that agrees with the hart (R64). -/
def Obligations.EveryStepKeepsTheInvariant : Prop :=
  ∀ s t : State, s.Inv → step s = .next t → t.Inv

/-- Every sequence of clock cycles and external resets keeps the invariant. -/
def Obligations.EveryEventKeepsTheInvariant : Prop :=
  ∀ (es : List Event) (s t : State), s.Inv → reactAll es s = .next t → t.Inv

/-- R64: at most one transaction is in flight, in every state that meets the invariant, and none at an
instruction boundary or in FAULTED. -/
def Obligations.AtMostOneTransactionInFlight : Prop :=
  ∀ s : State, s.Inv → s.inFlight.length ≤ 1 ∧
    (s.hart = .fetchRequest → s.AtBoundary) ∧ (s.runState = .faulted → s.inFlight = [])

/-! ### The cycle level -/

/-- R13: the instruction level is the composition of the cycle level's steps. From every boundary, at most
eight cycles of the hart and both engines give exactly the outcome of one step, every field included. -/
def Obligations.CyclesComposeToTheInstruction : Prop :=
  ∀ s : State, s.AtBoundary → ∃ n, 0 < n ∧ n ≤ 8 ∧ cycles n s = step s

/-- The cycle counts of R176: an instruction that completes takes exactly the steps of the table from one
`FETCH_REQUEST` to the next. -/
def Obligations.InstructionsTakeTheReferenceSteps : Prop :=
  ∀ (s t : State) (i : Instr), s.AtBoundary → s.pc.toNat % 4 = 0 → ClearOfUart s s.pc 4 →
    decodeWord s.fetchWord = .ok i → step s = .next t → t.runState = .running →
    cycles (referenceSteps i (accessOdd s i)) s = .next t ∧
    ∀ k, 0 < k → k < referenceSteps i (accessOdd s i) →
      ∃ u, cycles k s = .next u ∧ u.hart ≠ .fetchRequest

/-- From every state that meets the invariant, at most eight cycles reach the next `FETCH_REQUEST`, a
fault or a refusal: the hart never waits for ever (R60, R160). -/
def Obligations.EveryInstructionEndsWithinEightCycles : Prop :=
  ∀ s : State, s.Inv → ∃ n, 0 < n ∧ n ≤ 8 ∧
    ((∃ t, cycles n s = .next t ∧ (t.hart = .fetchRequest ∨ t.runState = .faulted)) ∨
     (∃ r, cycles n s = .refused r))

/-- R375: an external reset that falls inside a store leaves memory with a prefix of the store's beats
applied, and each prefix, from none to all, can be what it leaves. -/
def Obligations.ResetInsideAStoreLeavesAPrefix : Prop :=
  ∀ (s : State) (i : Instr) (w : Width) (rs1 rs2 : RegIdx) (imm : BitVec 12),
    s.AtBoundary → s.pc.toNat % 4 = 0 → ClearOfUart s s.pc 4 → decodeWord s.fetchWord = .ok i →
    hartWork i = .store w rs1 rs2 imm → ClearOfUart s (s.effAddr rs1 imm) (widthBytes w) →
    (∀ k ≤ referenceSteps i (accessOdd s i), ∃ j t, resetAfter k s = .next t ∧
      j ≤ (writeBeats w (s.effAddr rs1 imm) (s.reg rs2)).length ∧
      t.mem = memWriteBeats j (memDepth s.params) s.mem w (s.effAddr rs1 imm) (s.reg rs2)) ∧
    (∀ j ≤ (writeBeats w (s.effAddr rs1 imm) (s.reg rs2)).length, ∃ k t,
      k ≤ referenceSteps i (accessOdd s i) ∧ resetAfter k s = .next t ∧
      t.mem = memWriteBeats j (memDepth s.params) s.mem w (s.effAddr rs1 imm) (s.reg rs2))

/-- R78: a store is not atomic to the debug surface, which reads memory at the step boundaries inside it.
After each of the store's cycles the surface shows a prefix of the store's beats performed, and each
prefix, from none to all, is shown after one of them. Which cycle shows which rests on D19 (log 28). -/
def Obligations.DebugSurfaceReadsMemoryBetweenBeats : Prop :=
  ∀ (s : State) (i : Instr) (w : Width) (rs1 rs2 : RegIdx) (imm : BitVec 12),
    s.AtBoundary → s.pc.toNat % 4 = 0 → ClearOfUart s s.pc 4 → decodeWord s.fetchWord = .ok i →
    hartWork i = .store w rs1 rs2 imm → ClearOfUart s (s.effAddr rs1 imm) (widthBytes w) →
    let beats := (writeBeats w (s.effAddr rs1 imm) (s.reg rs2)).length
    let after := fun j => memWriteBeats j (memDepth s.params) s.mem w (s.effAddr rs1 imm) (s.reg rs2)
    (∀ k ≤ referenceSteps i (accessOdd s i), ∃ j t, cycles k s = .next t ∧ j ≤ beats ∧
      ∀ a : Word, t.debugView.byte a = byteAt (memDepth s.params) (after j) a) ∧
    (∀ j ≤ beats, ∃ k t, k ≤ referenceSteps i (accessOdd s i) ∧ cycles k s = .next t ∧
      ∀ a : Word, t.debugView.byte a = byteAt (memDepth s.params) (after j) a)
end

