-- ==== Sys2Proof/Laws/Memory.lean ====
section
/-! SUPPORT. Laws of the cell memory: one byte after a write, the canonical form, and the MMU's beats and
reassembly in terms of bytes. -/

namespace Sys2Proof.Machine

/-! ### `MEM_DEPTH` -/

theorem two_le_memDepth (p : Params) : 2 ≤ memDepth p := by
  have := Nat.one_le_two_pow (n := p.memDepthExp.val)
  simp only [memDepth, Nat.pow_succ]; omega

/-- "2^31 is a multiple of `MEM_DEPTH`" (R63). -/
theorem memDepth_dvd (p : Params) : memDepth p ∣ 2 ^ 31 :=
  Nat.pow_dvd_pow 2 (by have := p.memDepthExp.isLt; omega)

theorem double_depth_dvd {d : Nat} (h : d ∣ 2 ^ 31) : 2 * d ∣ 2 ^ 32 := by
  have := Nat.mul_dvd_mul_left 2 h
  simpa using this

/-! ### One byte -/

theorem lookup_insert (m : Memory) (k j : Nat) (v : Byte) :
    (m.insert k v).lookup j = if j = k then some v else m.lookup j := by
  induction m with
  | nil => simp [Memory.insert, Memory.lookup]
  | cons c m ih =>
    obtain ⟨a, b⟩ := c
    simp only [Memory.insert]
    split
    · simp [Memory.lookup]
    · split
      · subst_vars; by_cases h : j = a <;> simp [Memory.lookup, h]
      · by_cases h : j = a
        · subst h; simp [Memory.lookup]; intro e; omega
        · simp [Memory.lookup, h, ih]

/-- A byte after a write: the written one at its address, every other as before. -/
@[simp] theorem byte_insert (m : Memory) (k j : Nat) (v : Byte) :
    (m.insert k v).byte j = if j = k then v else m.byte j := by
  simp only [Memory.byte, lookup_insert]; split <;> rfl

/-! ### The canonical form is kept -/

theorem risingAbove_weaken {lo lo' : Nat} (h : lo' ≤ lo) (m : Memory) :
    m.risingAbove lo = true → m.risingAbove lo' = true := by
  cases m with
  | nil => simp [Memory.risingAbove]
  | cons c m =>
    simp only [Memory.risingAbove, Bool.and_eq_true, decide_eq_true_eq]
    exact fun hm => ⟨by omega, hm.2⟩

theorem risingAbove_insert (m : Memory) (lo k : Nat) (v : Byte) (hk : lo < k)
    (h : m.risingAbove lo = true) : (m.insert k v).risingAbove lo = true := by
  induction m generalizing lo with
  | nil => simp [Memory.insert, Memory.risingAbove, hk]
  | cons c m ih =>
    obtain ⟨a, b⟩ := c
    simp only [Memory.risingAbove, Bool.and_eq_true, decide_eq_true_eq] at h
    simp only [Memory.insert]
    split
    · simp_all [Memory.risingAbove]
    · split
      · subst_vars; simp_all [Memory.risingAbove]
      · simp only [Memory.risingAbove, Bool.and_eq_true, decide_eq_true_eq]
        exact ⟨h.1, ih a (by omega) h.2⟩

theorem wf_insert (m : Memory) (k : Nat) (v : Byte) (h : m.wf = true) : (m.insert k v).wf = true := by
  cases m with
  | nil => rfl
  | cons c m =>
    obtain ⟨a, b⟩ := c
    simp only [Memory.wf] at h
    simp only [Memory.insert]
    split
    · rename_i hlt; simp [Memory.wf, Memory.risingAbove, hlt, h]
    · split
      · subst_vars; exact h
      · exact risingAbove_insert m a k v (by omega) h

theorem mem_insert {m : Memory} {k : Nat} {v : Byte} {c : Host.Cell} (h : c ∈ m.insert k v) :
    c.1 = k ∨ c ∈ m := by
  induction m with
  | nil => simp [Memory.insert] at h; simp [h]
  | cons d m ih =>
    obtain ⟨a, b⟩ := d
    simp only [Memory.insert] at h
    split at h
    · rcases List.mem_cons.mp h with h | h
      · simp [h]
      · exact .inr h
    · split at h
      · rcases List.mem_cons.mp h with h | h
        · simp [h]
        · simp [h]
      · rcases List.mem_cons.mp h with h | h
        · simp [h]
        · rcases ih h with h | h
          · exact .inl h
          · simp [h]

/-- One beat keeps the canonical form. -/
theorem wf_applyBeat (d : Nat) (m : Memory) (b : Beat) (h : m.wf = true) : (applyBeat d m b).wf = true := by
  simp only [applyBeat]
  split <;> split <;> simp [wf_insert, h]

/-- One beat writes only bytes of the memory. -/
theorem bounded_applyBeat {d : Nat} (hd : 0 < d) (m : Memory) (b : Beat) (h : ∀ c ∈ m, c.1 < 2 * d) :
    ∀ c ∈ applyBeat d m b, c.1 < 2 * d := by
  have hi := Nat.mod_lt b.cell hd
  intro c hc
  simp only [applyBeat] at hc
  have low : ∀ c ∈ (if b.low then m.insert (2 * (b.cell % d)) (laneLo b.data) else m), c.1 < 2 * d := by
    intro c hc
    split at hc
    · rcases mem_insert hc with e | e
      · omega
      · exact h c e
    · exact h c hc
  split at hc
  · rcases mem_insert hc with e | e
    · omega
    · exact low c e
  · exact low c hc

/-- Any number of beats keeps the canonical form; `memWrite` and `memWriteBeats` are such. -/
theorem wf_beats (d : Nat) (bs : List Beat) (m : Memory) (h : m.wf = true) :
    (bs.foldl (applyBeat d) m).wf = true := by
  induction bs generalizing m with
  | nil => exact h
  | cons b bs ih => exact ih _ (wf_applyBeat d m b h)

theorem bounded_beats {d : Nat} (hd : 0 < d) (bs : List Beat) (m : Memory) (h : ∀ c ∈ m, c.1 < 2 * d) :
    ∀ c ∈ bs.foldl (applyBeat d) m, c.1 < 2 * d := by
  induction bs generalizing m with
  | nil => exact h
  | cons b bs ih => exact ih _ (bounded_applyBeat hd m b h)

/-- `memWrite` keeps the canonical form. -/
theorem wf_memWrite (d : Nat) (m : Memory) (w : Width) (a v : Word) (h : m.wf = true) :
    (memWrite d m w a v).wf = true := wf_beats d _ m h

theorem bounded_memWrite {d : Nat} (hd : 0 < d) (m : Memory) (w : Width) (a v : Word)
    (h : ∀ c ∈ m, c.1 < 2 * d) : ∀ c ∈ memWrite d m w a v, c.1 < 2 * d := bounded_beats hd _ m h

/-! ### Addresses -/

/-- The physical address is the byte address modulo `2 * MEM_DEPTH` (R63). -/
theorem physAddr_eq (d : Nat) (a : Word) : physAddr d a = a.toNat % (2 * d) := by
  rw [Nat.mod_mul]; simp [physAddr, cellIndex, Nat.add_comm]

/-- Adding to a byte address modulo 2^32 and then wrapping into memory is wrapping once (R63). -/
theorem physAddr_add {d : Nat} (hd : d ∣ 2 ^ 31) (a : Word) (k : Nat) :
    physAddr d (a + BitVec.ofNat 32 k) = (a.toNat + k) % (2 * d) := by
  rw [physAddr_eq, BitVec.toNat_add, BitVec.toNat_ofNat, Nat.mod_mod_of_dvd _ (double_depth_dvd hd),
    Nat.add_mod, Nat.mod_mod_of_dvd _ (double_depth_dvd hd), ← Nat.add_mod]

/-- Byte `k` of an access at an even address: lane `k mod 2` of the cell `k div 2` further on. -/
theorem even_phys {n : Nat} (h : n % 2 = 0) (d k : Nat) :
    (n + k) % (2 * d) = 2 * ((n / 2 + k / 2) % d) + k % 2 := by
  rw [Nat.mod_mul]
  have h1 : (n + k) % 2 = k % 2 := by omega
  have h2 : (n + k) / 2 = n / 2 + k / 2 := by omega
  rw [h1, h2]; omega

/-- Byte `k` of an access at an odd address. -/
theorem odd_phys {n : Nat} (h : n % 2 = 1) (d k : Nat) :
    (n + k) % (2 * d) = 2 * ((n / 2 + (k + 1) / 2) % d) + (k + 1) % 2 := by
  rw [Nat.mod_mul]
  have h1 : (n + k) % 2 = (k + 1) % 2 := by omega
  have h2 : (n + k) / 2 = n / 2 + (k + 1) / 2 := by omega
  rw [h1, h2]; omega

/-- Neighbouring cells are different cells (R75: "`MEM_DEPTH` at least 2"). -/
theorem next_cell_ne {d : Nat} (hd : 2 ≤ d) (c : Nat) : (c + 1) % d ≠ c % d := by
  intro h
  have h1 : (1 : Nat) ≡ 0 [MOD d] := Nat.ModEq.add_left_cancel' c (by simpa [Nat.ModEq] using h)
  have h2 : (1 : Nat) % d = 0 := by simpa [Nat.ModEq] using h1
  rw [Nat.mod_eq_of_lt (by omega)] at h2
  omega

/-! ### Lanes -/

@[simp] theorem laneLo_append (h l : Byte) : laneLo (h ++ l) = l := by
  change BitVec.extractLsb' 0 8 (h ++ l) = l
  apply BitVec.eq_of_getLsbD_eq
  intro i hi; simp only [BitVec.getLsbD_extractLsb', BitVec.getLsbD_append]; simp [hi]

@[simp] theorem laneHi_append (h l : Byte) : laneHi (h ++ l) = h := by
  change BitVec.extractLsb' 8 8 (h ++ l) = h
  apply BitVec.eq_of_getLsbD_eq
  intro i hi; simp only [BitVec.getLsbD_extractLsb', BitVec.getLsbD_append]; simp [hi]

@[simp] theorem laneLo_cellAt (d : Nat) (m : Memory) (i : Nat) : laneLo (cellAt d m i) = m.byte (2 * (i % d)) :=
  laneLo_append _ _

@[simp] theorem laneHi_cellAt (d : Nat) (m : Memory) (i : Nat) : laneHi (cellAt d m i) = m.byte (2 * (i % d) + 1) :=
  laneHi_append _ _

/-- Two cells side by side are their four bytes. -/
theorem append_four (a b c d : Byte) : ((a ++ b : CellWord) ++ (c ++ d : CellWord) : Word) = a ++ (b ++ (c ++ d)) :=
  (BitVec.append_assoc (x₁ := a) (x₂ := b) (x₃ := c ++ d)).trans (BitVec.cast_eq _ _)

/-- A cell between two bytes is four bytes. -/
theorem append_inner (a b c d : Byte) : (a ++ ((b ++ c : CellWord) ++ d) : Word) = a ++ (b ++ (c ++ d)) :=
  congrArg (a ++ ·) ((BitVec.append_assoc (x₁ := b) (x₂ := c) (x₃ := d)).trans (BitVec.cast_eq _ _))

/-! ### Reads and writes by bytes -/

/-- One byte after one beat (R74). -/
theorem byte_applyBeat (d : Nat) (m : Memory) (b : Beat) (j : Nat) :
    (applyBeat d m b).byte j =
      if b.high = true ∧ j = 2 * (b.cell % d) + 1 then laneHi b.data
      else if b.low = true ∧ j = 2 * (b.cell % d) then laneLo b.data
      else m.byte j := by
  cases hh : b.high <;> cases hl : b.low <;> simp [applyBeat, hh, hl]

/-- `MemRead` is the little-endian concatenation of the bytes of the access (R70). -/
theorem memRead_bytes {d : Nat} (hd : d ∣ 2 ^ 31) (m : Memory) (w : Width) (a : Word) :
    memRead d m w a =
      match w with
      | .byte => (byteAt d m a).setWidth 32
      | .half => (byteAt d m (a + 1#32) ++ byteAt d m a).setWidth 32
      | .word => byteAt d m (a + 3#32) ++ (byteAt d m (a + 2#32) ++ (byteAt d m (a + 1#32) ++ byteAt d m a)) := by
  have p0 : physAddr d a = (a.toNat + 0) % (2 * d) := physAddr_eq d a
  have p1 : physAddr d (a + 1#32) = (a.toNat + 1) % (2 * d) := physAddr_add hd a 1
  have p2 : physAddr d (a + 2#32) = (a.toNat + 2) % (2 * d) := physAddr_add hd a 2
  have p3 : physAddr d (a + 3#32) = (a.toNat + 3) % (2 * d) := physAddr_add hd a 3
  rcases Nat.mod_two_eq_zero_or_one a.toNat with h | h
  · have ho : oddAddr a = false := by simp [oddAddr, h]
    cases w <;> simp only [memRead, ho, reassemble, byteAt, p0, p1, p2, p3, even_phys h, laneLo_cellAt] <;>
      simp [cellAt, cellIndex]
    exact append_four _ _ _ _
  · have ho : oddAddr a = true := by simp [oddAddr, h]
    cases w <;> simp only [memRead, ho, reassemble, byteAt, p0, p1, p2, p3, odd_phys h, laneLo_cellAt, laneHi_cellAt] <;>
      simp [cellAt, cellIndex]
    exact append_inner _ _ _ _

/-- One physical byte after `MemWrite`: byte `k` of the value at the address of byte `k`, every other as
before (R75). -/
theorem memWrite_byte {d : Nat} (hd : 2 ≤ d) (m : Memory) (w : Width) (a v : Word) (j : Nat) :
    (memWrite d m w a v).byte j =
      if j = (a.toNat + 0) % (2 * d) then byteOf v 0
      else if 1 < widthBytes w ∧ j = (a.toNat + 1) % (2 * d) then byteOf v 1
      else if 2 < widthBytes w ∧ j = (a.toNat + 2) % (2 * d) then byteOf v 2
      else if 3 < widthBytes w ∧ j = (a.toNat + 3) % (2 * d) then byteOf v 3
      else m.byte j := by
  have n1 := next_cell_ne hd (a.toNat / 2)
  have n2 : (a.toNat / 2 + 2) % d ≠ (a.toNat / 2 + 1) % d := next_cell_ne hd (a.toNat / 2 + 1)
  rcases Nat.mod_two_eq_zero_or_one a.toNat with h | h
  · have ho : oddAddr a = false := by simp [oddAddr, h]
    simp only [even_phys h]
    cases w <;> simp [memWrite, writeBeats, ho, byte_applyBeat, widthBytes, cellIndex] <;>
      split_ifs <;> first | rfl | omega
  · have ho : oddAddr a = true := by simp [oddAddr, h]
    simp only [odd_phys h]
    cases w <;> simp [memWrite, writeBeats, ho, byte_applyBeat, widthBytes, cellIndex] <;>
      split_ifs <;> first | rfl | omega

end Sys2Proof.Machine
end

