-- ==== Sys2Proof/Laws/State.lean ====
section
/-! SUPPORT. The fields of State after each shared update, and what a register reads after it. -/

namespace Sys2Proof.Machine

/-! ### `commit` -/

@[simp] theorem commit_pc (s : State) : s.commit.pc = s.pc := by unfold State.commit; split <;> rfl
@[simp] theorem commit_hart (s : State) : s.commit.hart = s.hart := by unfold State.commit; split <;> rfl
@[simp] theorem commit_faultCode (s : State) : s.commit.faultCode = s.faultCode := by unfold State.commit; split <;> rfl
@[simp] theorem commit_faultInsn (s : State) : s.commit.faultInsn = s.faultInsn := by unfold State.commit; split <;> rfl
@[simp] theorem commit_insn (s : State) : s.commit.insn = s.insn := by unfold State.commit; split <;> rfl
@[simp] theorem commit_loadDest (s : State) : s.commit.loadDest = s.loadDest := by unfold State.commit; split <;> rfl
@[simp] theorem commit_loadKind (s : State) : s.commit.loadKind = s.loadKind := by unfold State.commit; split <;> rfl
@[simp] theorem commit_readEngine (s : State) : s.commit.readEngine = s.readEngine := by unfold State.commit; split <;> rfl
@[simp] theorem commit_readPort (s : State) : s.commit.readPort = s.readPort := by unfold State.commit; split <;> rfl
@[simp] theorem commit_writeEngine (s : State) : s.commit.writeEngine = s.writeEngine := by unfold State.commit; split <;> rfl
@[simp] theorem commit_mem (s : State) : s.commit.mem = s.mem := by unfold State.commit; split <;> rfl
@[simp] theorem commit_params (s : State) : s.commit.params = s.params := by unfold State.commit; split <;> rfl
@[simp] theorem commit_draws (s : State) : s.commit.draws = s.draws := by unfold State.commit; split <;> rfl
@[simp] theorem commit_pending (s : State) : s.commit.pending = none := by
  unfold State.commit; split <;> simp_all

theorem commit_of_none (s : State) (h : s.pending = none) : s.commit = s := by
  simp [State.commit, h]

/-! ### `schedule`, `complete`, `writeBack` -/

@[simp] theorem schedule_regs (s : State) (i : RegIdx) (v : Word) : (s.schedule i v).regs = s.commit.regs := rfl
@[simp] theorem schedule_pc (s : State) (i : RegIdx) (v : Word) : (s.schedule i v).pc = s.pc := by
  simp [State.schedule]
@[simp] theorem schedule_hart (s : State) (i : RegIdx) (v : Word) : (s.schedule i v).hart = s.hart := by
  simp [State.schedule]
@[simp] theorem schedule_faultCode (s : State) (i : RegIdx) (v : Word) : (s.schedule i v).faultCode = s.faultCode := by
  simp [State.schedule]
@[simp] theorem schedule_faultInsn (s : State) (i : RegIdx) (v : Word) : (s.schedule i v).faultInsn = s.faultInsn := by
  simp [State.schedule]
@[simp] theorem schedule_insn (s : State) (i : RegIdx) (v : Word) : (s.schedule i v).insn = s.insn := by
  simp [State.schedule]
@[simp] theorem schedule_pending (s : State) (i : RegIdx) (v : Word) : (s.schedule i v).pending = some (i, v) := rfl
@[simp] theorem schedule_loadDest (s : State) (i : RegIdx) (v : Word) : (s.schedule i v).loadDest = s.loadDest := by
  simp [State.schedule]
@[simp] theorem schedule_loadKind (s : State) (i : RegIdx) (v : Word) : (s.schedule i v).loadKind = s.loadKind := by
  simp [State.schedule]
@[simp] theorem schedule_readEngine (s : State) (i : RegIdx) (v : Word) : (s.schedule i v).readEngine = s.readEngine := by
  simp [State.schedule]
@[simp] theorem schedule_readPort (s : State) (i : RegIdx) (v : Word) : (s.schedule i v).readPort = s.readPort := by
  simp [State.schedule]
@[simp] theorem schedule_writeEngine (s : State) (i : RegIdx) (v : Word) : (s.schedule i v).writeEngine = s.writeEngine := by
  simp [State.schedule]
@[simp] theorem schedule_mem (s : State) (i : RegIdx) (v : Word) : (s.schedule i v).mem = s.mem := by
  simp [State.schedule]
@[simp] theorem schedule_params (s : State) (i : RegIdx) (v : Word) : (s.schedule i v).params = s.params := by
  simp [State.schedule]
@[simp] theorem schedule_draws (s : State) (i : RegIdx) (v : Word) : (s.schedule i v).draws = s.draws := by
  simp [State.schedule]

@[simp] theorem complete_regs (s : State) (t : Word) : (s.complete t).regs = s.regs := rfl
@[simp] theorem complete_pc (s : State) (t : Word) : (s.complete t).pc = t := rfl
@[simp] theorem complete_hart (s : State) (t : Word) : (s.complete t).hart = .fetchRequest := rfl
@[simp] theorem complete_faultCode (s : State) (t : Word) : (s.complete t).faultCode = s.faultCode := rfl
@[simp] theorem complete_faultInsn (s : State) (t : Word) : (s.complete t).faultInsn = s.faultInsn := rfl
@[simp] theorem complete_insn (s : State) (t : Word) : (s.complete t).insn = s.insn := rfl
@[simp] theorem complete_pending (s : State) (t : Word) : (s.complete t).pending = s.pending := rfl
@[simp] theorem complete_loadDest (s : State) (t : Word) : (s.complete t).loadDest = s.loadDest := rfl
@[simp] theorem complete_loadKind (s : State) (t : Word) : (s.complete t).loadKind = s.loadKind := rfl
@[simp] theorem complete_readEngine (s : State) (t : Word) : (s.complete t).readEngine = s.readEngine := rfl
@[simp] theorem complete_readPort (s : State) (t : Word) : (s.complete t).readPort = s.readPort := rfl
@[simp] theorem complete_writeEngine (s : State) (t : Word) : (s.complete t).writeEngine = s.writeEngine := rfl
@[simp] theorem complete_mem (s : State) (t : Word) : (s.complete t).mem = s.mem := rfl
@[simp] theorem complete_params (s : State) (t : Word) : (s.complete t).params = s.params := rfl
@[simp] theorem complete_draws (s : State) (t : Word) : (s.complete t).draws = s.draws := rfl

@[simp] theorem writeBack_regs (s : State) (i : RegIdx) (v : Word) : (s.writeBack i v).regs = s.commit.regs := by
  simp [State.writeBack]
@[simp] theorem writeBack_pc (s : State) (i : RegIdx) (v : Word) : (s.writeBack i v).pc = s.nextPc := by
  simp [State.writeBack]
@[simp] theorem writeBack_hart (s : State) (i : RegIdx) (v : Word) : (s.writeBack i v).hart = .fetchRequest := by
  simp [State.writeBack]
@[simp] theorem writeBack_faultCode (s : State) (i : RegIdx) (v : Word) : (s.writeBack i v).faultCode = s.faultCode := by
  simp [State.writeBack]
@[simp] theorem writeBack_faultInsn (s : State) (i : RegIdx) (v : Word) : (s.writeBack i v).faultInsn = s.faultInsn := by
  simp [State.writeBack]
@[simp] theorem writeBack_insn (s : State) (i : RegIdx) (v : Word) : (s.writeBack i v).insn = s.insn := by
  simp [State.writeBack]
@[simp] theorem writeBack_pending (s : State) (i : RegIdx) (v : Word) : (s.writeBack i v).pending = some (i, v) := by
  simp [State.writeBack]
@[simp] theorem writeBack_loadDest (s : State) (i : RegIdx) (v : Word) : (s.writeBack i v).loadDest = s.loadDest := by
  simp [State.writeBack]
@[simp] theorem writeBack_loadKind (s : State) (i : RegIdx) (v : Word) : (s.writeBack i v).loadKind = s.loadKind := by
  simp [State.writeBack]
@[simp] theorem writeBack_readEngine (s : State) (i : RegIdx) (v : Word) : (s.writeBack i v).readEngine = s.readEngine := by
  simp [State.writeBack]
@[simp] theorem writeBack_readPort (s : State) (i : RegIdx) (v : Word) : (s.writeBack i v).readPort = s.readPort := by
  simp [State.writeBack]
@[simp] theorem writeBack_writeEngine (s : State) (i : RegIdx) (v : Word) : (s.writeBack i v).writeEngine = s.writeEngine := by
  simp [State.writeBack]
@[simp] theorem writeBack_mem (s : State) (i : RegIdx) (v : Word) : (s.writeBack i v).mem = s.mem := by
  simp [State.writeBack]
@[simp] theorem writeBack_params (s : State) (i : RegIdx) (v : Word) : (s.writeBack i v).params = s.params := by
  simp [State.writeBack]
@[simp] theorem writeBack_draws (s : State) (i : RegIdx) (v : Word) : (s.writeBack i v).draws = s.draws := by
  simp [State.writeBack]

/-! ### `raiseFault`, `raiseTarget`, `externalReset` -/

@[simp] theorem raiseFault_regs (s : State) (c : FaultCode) (w : Word) : (s.raiseFault c w).regs = s.regs := rfl
@[simp] theorem raiseFault_pc (s : State) (c : FaultCode) (w : Word) : (s.raiseFault c w).pc = s.pc := rfl
@[simp] theorem raiseFault_hart (s : State) (c : FaultCode) (w : Word) : (s.raiseFault c w).hart = .faulted := rfl
@[simp] theorem raiseFault_faultCode (s : State) (c : FaultCode) (w : Word) : (s.raiseFault c w).faultCode = c := rfl
@[simp] theorem raiseFault_faultInsn (s : State) (c : FaultCode) (w : Word) : (s.raiseFault c w).faultInsn = w := rfl
@[simp] theorem raiseFault_insn (s : State) (c : FaultCode) (w : Word) : (s.raiseFault c w).insn = s.insn := rfl
@[simp] theorem raiseFault_pending (s : State) (c : FaultCode) (w : Word) : (s.raiseFault c w).pending = s.pending := rfl
@[simp] theorem raiseFault_loadDest (s : State) (c : FaultCode) (w : Word) : (s.raiseFault c w).loadDest = s.loadDest := rfl
@[simp] theorem raiseFault_loadKind (s : State) (c : FaultCode) (w : Word) : (s.raiseFault c w).loadKind = s.loadKind := rfl
@[simp] theorem raiseFault_readEngine (s : State) (c : FaultCode) (w : Word) : (s.raiseFault c w).readEngine = s.readEngine := rfl
@[simp] theorem raiseFault_readPort (s : State) (c : FaultCode) (w : Word) : (s.raiseFault c w).readPort = s.readPort := rfl
@[simp] theorem raiseFault_writeEngine (s : State) (c : FaultCode) (w : Word) : (s.raiseFault c w).writeEngine = s.writeEngine := rfl
@[simp] theorem raiseFault_mem (s : State) (c : FaultCode) (w : Word) : (s.raiseFault c w).mem = s.mem := rfl
@[simp] theorem raiseFault_params (s : State) (c : FaultCode) (w : Word) : (s.raiseFault c w).params = s.params := rfl
@[simp] theorem raiseFault_draws (s : State) (c : FaultCode) (w : Word) : (s.raiseFault c w).draws = s.draws := rfl

@[simp] theorem raiseTarget_hart (s : State) (l : Option RegIdx) (t : Word) : (s.raiseTarget l t).hart = .faulted := by
  simp [State.raiseTarget]
@[simp] theorem raiseTarget_faultCode (s : State) (l : Option RegIdx) (t : Word) : (s.raiseTarget l t).faultCode = .pcMisaligned := by
  simp [State.raiseTarget]
@[simp] theorem raiseTarget_faultInsn (s : State) (l : Option RegIdx) (t : Word) : (s.raiseTarget l t).faultInsn = Config.latchDraw s.draws := by
  simp [State.raiseTarget]
@[simp] theorem raiseTarget_insn (s : State) (l : Option RegIdx) (t : Word) : (s.raiseTarget l t).insn = s.insn := by
  simp [State.raiseTarget]
@[simp] theorem raiseTarget_pending (s : State) (l : Option RegIdx) (t : Word) : (s.raiseTarget l t).pending = none := by
  simp [State.raiseTarget]
@[simp] theorem raiseTarget_loadDest (s : State) (l : Option RegIdx) (t : Word) : (s.raiseTarget l t).loadDest = s.loadDest := by
  simp [State.raiseTarget]
@[simp] theorem raiseTarget_loadKind (s : State) (l : Option RegIdx) (t : Word) : (s.raiseTarget l t).loadKind = s.loadKind := by
  simp [State.raiseTarget]
@[simp] theorem raiseTarget_readEngine (s : State) (l : Option RegIdx) (t : Word) : (s.raiseTarget l t).readEngine = s.readEngine := by
  simp [State.raiseTarget]
@[simp] theorem raiseTarget_readPort (s : State) (l : Option RegIdx) (t : Word) : (s.raiseTarget l t).readPort = s.readPort := by
  simp [State.raiseTarget]
@[simp] theorem raiseTarget_writeEngine (s : State) (l : Option RegIdx) (t : Word) : (s.raiseTarget l t).writeEngine = s.writeEngine := by
  simp [State.raiseTarget]
@[simp] theorem raiseTarget_mem (s : State) (l : Option RegIdx) (t : Word) : (s.raiseTarget l t).mem = s.mem := by
  simp [State.raiseTarget]
@[simp] theorem raiseTarget_params (s : State) (l : Option RegIdx) (t : Word) : (s.raiseTarget l t).params = s.params := by
  simp [State.raiseTarget]
@[simp] theorem raiseTarget_draws (s : State) (l : Option RegIdx) (t : Word) : (s.raiseTarget l t).draws = s.draws + 1 := by
  simp [State.raiseTarget]

theorem raiseTarget_pc (s : State) (l : Option RegIdx) (t : Word) :
    (s.raiseTarget l t).pc = s.pc ∨ (s.raiseTarget l t).pc = t := by
  simp only [State.raiseTarget, raiseFault_pc]; split <;> simp

@[simp] theorem externalReset_regs (s : State) : s.externalReset.regs = s.regs := rfl
@[simp] theorem externalReset_pc (s : State) : s.externalReset.pc = Config.resetPc := rfl
@[simp] theorem externalReset_hart (s : State) : s.externalReset.hart = .fetchRequest := rfl
@[simp] theorem externalReset_faultCode (s : State) : s.externalReset.faultCode = .unset := rfl
@[simp] theorem externalReset_faultInsn (s : State) : s.externalReset.faultInsn = 0#32 := rfl
@[simp] theorem externalReset_insn (s : State) : s.externalReset.insn = Config.insnDraw s.draws := rfl
@[simp] theorem externalReset_pending (s : State) : s.externalReset.pending = none := rfl
@[simp] theorem externalReset_loadDest (s : State) : s.externalReset.loadDest = Config.loadDestDraw s.draws := rfl
@[simp] theorem externalReset_loadKind (s : State) : s.externalReset.loadKind = Config.loadKindDraw s.draws := rfl
@[simp] theorem externalReset_readEngine (s : State) : s.externalReset.readEngine = .idle := rfl
@[simp] theorem externalReset_readPort (s : State) : s.externalReset.readPort = none := rfl
@[simp] theorem externalReset_writeEngine (s : State) : s.externalReset.writeEngine = .idle := rfl
@[simp] theorem externalReset_mem (s : State) : s.externalReset.mem = s.mem := rfl
@[simp] theorem externalReset_params (s : State) : s.externalReset.params = s.params := rfl
@[simp] theorem externalReset_draws (s : State) : s.externalReset.draws = s.draws + 1 := rfl

/-! ### `clocked` and `putFetchWord` -/

@[simp] theorem clocked_regs (s h : State) (r : Option ReadReq) (w : Option WriteReq) :
    (s.clocked h r w).regs = h.regs := rfl
@[simp] theorem clocked_pc (s h : State) (r : Option ReadReq) (w : Option WriteReq) :
    (s.clocked h r w).pc = h.pc := rfl
@[simp] theorem clocked_hart (s h : State) (r : Option ReadReq) (w : Option WriteReq) :
    (s.clocked h r w).hart = h.hart := rfl
@[simp] theorem clocked_faultCode (s h : State) (r : Option ReadReq) (w : Option WriteReq) :
    (s.clocked h r w).faultCode = h.faultCode := rfl
@[simp] theorem clocked_faultInsn (s h : State) (r : Option ReadReq) (w : Option WriteReq) :
    (s.clocked h r w).faultInsn = h.faultInsn := rfl
@[simp] theorem clocked_insn (s h : State) (r : Option ReadReq) (w : Option WriteReq) :
    (s.clocked h r w).insn = h.insn := rfl
@[simp] theorem clocked_pending (s h : State) (r : Option ReadReq) (w : Option WriteReq) :
    (s.clocked h r w).pending = h.pending := rfl
@[simp] theorem clocked_loadDest (s h : State) (r : Option ReadReq) (w : Option WriteReq) :
    (s.clocked h r w).loadDest = h.loadDest := rfl
@[simp] theorem clocked_loadKind (s h : State) (r : Option ReadReq) (w : Option WriteReq) :
    (s.clocked h r w).loadKind = h.loadKind := rfl
@[simp] theorem clocked_readEngine (s h : State) (r : Option ReadReq) (w : Option WriteReq) :
    (s.clocked h r w).readEngine = (s.readAdvance r).1 := rfl
@[simp] theorem clocked_readPort (s h : State) (r : Option ReadReq) (w : Option WriteReq) :
    (s.clocked h r w).readPort = (s.readAdvance r).2.map (cellAt (memDepth s.params) s.mem) := rfl
@[simp] theorem clocked_writeEngine (s h : State) (r : Option ReadReq) (w : Option WriteReq) :
    (s.clocked h r w).writeEngine = (s.writeAdvance w).1 := rfl
@[simp] theorem clocked_params (s h : State) (r : Option ReadReq) (w : Option WriteReq) :
    (s.clocked h r w).params = h.params := rfl
@[simp] theorem clocked_draws (s h : State) (r : Option ReadReq) (w : Option WriteReq) :
    (s.clocked h r w).draws = h.draws := rfl

@[simp] theorem putFetchWord_regs (s : State) (w : Word) : (s.putFetchWord w).regs = s.regs := rfl
@[simp] theorem putFetchWord_pc (s : State) (w : Word) : (s.putFetchWord w).pc = s.pc := rfl
@[simp] theorem putFetchWord_hart (s : State) (w : Word) : (s.putFetchWord w).hart = s.hart := rfl
@[simp] theorem putFetchWord_faultCode (s : State) (w : Word) : (s.putFetchWord w).faultCode = s.faultCode := rfl
@[simp] theorem putFetchWord_faultInsn (s : State) (w : Word) : (s.putFetchWord w).faultInsn = s.faultInsn := rfl
@[simp] theorem putFetchWord_insn (s : State) (w : Word) : (s.putFetchWord w).insn = s.insn := rfl
@[simp] theorem putFetchWord_pending (s : State) (w : Word) : (s.putFetchWord w).pending = s.pending := rfl
@[simp] theorem putFetchWord_loadDest (s : State) (w : Word) : (s.putFetchWord w).loadDest = s.loadDest := rfl
@[simp] theorem putFetchWord_loadKind (s : State) (w : Word) : (s.putFetchWord w).loadKind = s.loadKind := rfl
@[simp] theorem putFetchWord_readEngine (s : State) (w : Word) : (s.putFetchWord w).readEngine = s.readEngine := rfl
@[simp] theorem putFetchWord_readPort (s : State) (w : Word) : (s.putFetchWord w).readPort = s.readPort := rfl
@[simp] theorem putFetchWord_writeEngine (s : State) (w : Word) : (s.putFetchWord w).writeEngine = s.writeEngine := rfl
@[simp] theorem putFetchWord_params (s : State) (w : Word) : (s.putFetchWord w).params = s.params := rfl
@[simp] theorem putFetchWord_draws (s : State) (w : Word) : (s.putFetchWord w).draws = s.draws := rfl

/-! ### The register view -/

/-- Everything `reg` depends on. -/
theorem reg_congr {s t : State} (hr : t.regs = s.regs) (hp : t.pending = s.pending) (i : RegIdx) :
    t.reg i = s.reg i := by
  simp [State.reg, hr, hp]

@[simp] theorem reg_zero (s : State) : s.reg 0 = 0#32 := by simp [State.reg]

theorem reg_of_none (s : State) (h : s.pending = none) (i : RegIdx) :
    s.reg i = if i = 0 then 0#32 else s.regs[i] := by
  simp [State.reg, h]

/-- What the register file holds after a write (R32). -/
theorem writeFile_get (regs : Vector Word 32) (i j : RegIdx) (v : Word) :
    (writeFile regs i v)[j] = if j = i ∧ i ≠ 0 then v else regs[j] := by
  unfold writeFile
  split
  · simp_all
  · rename_i h
    by_cases hji : j = i
    · subst hji; simp [h]
    · have : (i : Nat) ≠ (j : Nat) := fun e => hji (Fin.ext e.symm)
      simp [hji, this]

/-- Applying the pending write-back changes no register's reading (R346). -/
@[simp] theorem commit_reg (s : State) (i : RegIdx) : s.commit.reg i = s.reg i := by
  rw [reg_of_none _ (commit_pending s)]
  by_cases hi : i = 0
  · simp [hi]
  · obtain h | ⟨⟨j, v⟩, h⟩ := Option.eq_none_or_eq_some s.pending
    · simp [State.commit, State.reg, h]
    · simp only [State.commit, State.reg, h, hi, if_false, writeFile_get]
      by_cases hji : i = j
      · subst hji; simp [hi]
      · simp [hji, Ne.symm hji]

/-- A scheduled write is what the register reads as from then on, unless it is x0 (R163, R32). -/
@[simp] theorem schedule_reg (s : State) (rd : RegIdx) (v : Word) (i : RegIdx) :
    (s.schedule rd v).reg i = if i = rd ∧ i ≠ 0 then v else s.reg i := by
  rw [← commit_reg s i, reg_of_none _ (commit_pending s)]
  by_cases hi : i = 0
  · simp [hi]
  · by_cases h : i = rd
    · subst h; simp [State.reg, hi]
    · have : ¬ rd = i := fun e => h e.symm
      simp [State.reg, hi, h, this]

@[simp] theorem complete_reg (s : State) (t : Word) (i : RegIdx) : (s.complete t).reg i = s.reg i := rfl

@[simp] theorem writeBack_reg (s : State) (rd : RegIdx) (v : Word) (i : RegIdx) :
    (s.writeBack rd v).reg i = if i = rd ∧ i ≠ 0 then v else s.reg i := by
  simp [State.writeBack]

@[simp] theorem raiseFault_reg (s : State) (c : FaultCode) (w : Word) (i : RegIdx) :
    (s.raiseFault c w).reg i = s.reg i := rfl

/-- What a misaligned target leaves in the registers (R313). -/
theorem raiseTarget_reg (s : State) (l : Option RegIdx) (t : Word) (i : RegIdx) :
    (s.raiseTarget l t).reg i = s.reg i ∨ (l = some i ∧ i ≠ 0 ∧ (s.raiseTarget l t).reg i = s.nextPc) := by
  rw [reg_of_none _ (raiseTarget_pending s l t), ← commit_reg s i, reg_of_none _ (commit_pending s)]
  by_cases hi : i = 0
  · simp [hi]
  · cases l with
    | none => simp [hi, State.raiseTarget]
    | some rd =>
      simp only [State.raiseTarget, raiseFault_regs, hi, if_false]
      split
      · rw [writeFile_get]
        by_cases h : i = rd
        · subst h; simp [hi]
        · simp [h]
      · simp

/-! ### The other views -/

theorem byteAt_congr {s t : State} (hm : t.mem = s.mem) (hp : t.params = s.params) (a : Word) :
    t.byteAt a = s.byteAt a := by
  simp [State.byteAt, hm, hp]

@[simp] theorem commit_byteAt (s : State) (a : Word) : s.commit.byteAt a = s.byteAt a :=
  byteAt_congr (by simp) (by simp) a

@[simp] theorem commit_memRead (s : State) (w : Width) (a : Word) : s.commit.memRead w a = s.memRead w a := by
  simp [State.memRead]

@[simp] theorem commit_touchesUart (s : State) (a : Word) (w : Width) :
    s.commit.touchesUart a w = s.touchesUart a w := by
  simp [State.touchesUart]

@[simp] theorem commit_fetchWord (s : State) : s.commit.fetchWord = s.fetchWord := by
  simp [State.fetchWord]

@[simp] theorem commit_nextPc (s : State) : s.commit.nextPc = s.nextPc := by
  simp [State.nextPc]

theorem runState_faulted_iff (s : State) : s.runState = .faulted ↔ s.hart = .faulted := by
  unfold State.runState; split <;> simp_all

theorem runState_running_iff (s : State) : s.runState = .running ↔ s.hart ≠ .faulted := by
  unfold State.runState; split <;> simp_all

/-- From an instruction boundary a step is a whole instruction (R175). -/
theorem step_of_boundary {s : State} (h : s.AtBoundary) : step s = instruction s := if_pos h

/-- From any other state a step is one clock cycle (R160). -/
theorem step_of_not_boundary {s : State} (h : ¬ s.AtBoundary) : step s = cycle s := if_neg h

end Sys2Proof.Machine
end

