-- ==== Sys2Proof/Laws/Exec.lean ====
section
/-! SUPPORT. What the shared bodies and `exec` can answer, said once; later proofs cite these lemmas. -/

namespace Sys2Proof.Machine

/-! ### The shared bodies -/

/-- A load completes exactly when its access misses the UART region (R200). -/
theorem load_of_clear {s : State} {k : LoadKind} {rd rs1 : RegIdx} {imm : BitVec 12}
    (h : s.touchesUart (s.effAddr rs1 imm) (loadWidth k) = false) :
    s.load k rd rs1 imm = .next (State.writeBack { s with loadDest := rd, loadKind := k } rd
      (extendLoad k (s.memRead (loadWidth k) (s.effAddr rs1 imm)))) := by
  simp [State.load, h]

theorem load_of_uart {s : State} {k : LoadKind} {rd rs1 : RegIdx} {imm : BitVec 12}
    (h : s.touchesUart (s.effAddr rs1 imm) (loadWidth k) = true) :
    s.load k rd rs1 imm = .refused (.uartAccess .load (s.effAddr rs1 imm)) := by
  simp [State.load, h]

/-- A store completes exactly when its access misses the UART region (R280). -/
theorem store_of_clear {s : State} {w : Width} {rs1 rs2 : RegIdx} {imm : BitVec 12}
    (h : s.touchesUart (s.effAddr rs1 imm) w = false) :
    s.store w rs1 rs2 imm = .next (State.complete
      { s with mem := memWrite (memDepth s.params) s.mem w (s.effAddr rs1 imm) (s.reg rs2) } s.nextPc) := by
  simp [State.store, h]

theorem store_of_uart {s : State} {w : Width} {rs1 rs2 : RegIdx} {imm : BitVec 12}
    (h : s.touchesUart (s.effAddr rs1 imm) w = true) :
    s.store w rs1 rs2 imm = .refused (.uartAccess .store (s.effAddr rs1 imm)) := by
  simp [State.store, h]

/-- A branch goes to its aligned target, faults on a misaligned one, or falls through (R290, R297). -/
theorem branch_answer (s : State) (taken : Bool) (offset : BitVec 13) :
    s.branch taken offset = .next (
      if taken = true then
        if aligned4 (s.pc + sextBranch offset) = true then s.complete (s.pc + sextBranch offset)
        else s.raiseTarget none (s.pc + sextBranch offset)
      else s.complete s.nextPc) := by
  cases taken <;> simp [State.branch]; split <;> rfl

/-- A jump links and goes to its aligned target, or faults on a misaligned one (R310, R311). -/
theorem jump_answer (s : State) (rd : RegIdx) (t : Word) :
    s.jump rd t = .next (if aligned4 t = true then (s.schedule rd s.nextPc).complete t
      else s.raiseTarget (some rd) t) := by
  simp only [State.jump]; split <;> rfl

/-! ### Alignment -/

theorem aligned4_iff (a : Word) : aligned4 a = true ↔ a.toNat % 4 = 0 := by
  simp only [aligned4, beq_iff_eq, ← BitVec.toNat_inj, BitVec.extractLsb'_toNat]
  simp

theorem aligned4_nextPc {s : State} (h : s.pc.toNat % 4 = 0) : s.nextPc.toNat % 4 = 0 := by
  simp only [State.nextPc, BitVec.toNat_add, BitVec.toNat_ofNat]; omega

/-! ### `exec` -/

/-- The next states an instruction can answer, by shape. -/
inductive ExecCase (i : Instr) (s : State) : State → Prop where
  /-- A register is written and pc advances; a load also remembers its destination and width. -/
  | writes (rd : RegIdx) (v : Word) (k : LoadKind) (dest : RegIdx) (hd : destReg i = some rd)
      (hs : isStore i = false) (ht : isTransfer i = false) :
      ExecCase i s (State.writeBack { s with loadDest := dest, loadKind := k } rd v)
  /-- Nothing but pc changes: FENCE, and a branch that is not taken. -/
  | advances (hd : destReg i = none) (hs : isStore i = false) : ExecCase i s (s.complete s.nextPc)
  /-- Memory is written and pc advances. -/
  | stores (w : Width) (a v : Word) (hd : destReg i = none) (hs : isStore i = true) (ht : isTransfer i = false) :
      ExecCase i s (State.complete { s with mem := memWrite (memDepth s.params) s.mem w a v } s.nextPc)
  /-- A taken branch with an aligned target. -/
  | branches (t : Word) (hd : destReg i = none) (hs : isStore i = false) (ht : isTransfer i = true)
      (ha : t.toNat % 4 = 0) : ExecCase i s (s.complete t)
  /-- A jump with an aligned target. -/
  | jumps (rd : RegIdx) (t : Word) (hd : destReg i = some rd) (hs : isStore i = false) (ht : isTransfer i = true)
      (ha : t.toNat % 4 = 0) : ExecCase i s ((s.schedule rd s.nextPc).complete t)
  /-- A misaligned target of a jump or of a branch that is taken. -/
  | misaligned (t : Word) (hs : isStore i = false) (ht : isTransfer i = true) (hx : transferTarget s i = some t)
      (ha : t.toNat % 4 ≠ 0) :
      ExecCase i s (s.raiseTarget (destReg i) t)

theorem load_case {i : Instr} {s t : State} {k : LoadKind} {rd rs1 : RegIdx} {imm : BitVec 12}
    (hd : destReg i = some rd) (hs : isStore i = false) (ht : isTransfer i = false)
    (h : s.load k rd rs1 imm = .next t) : ExecCase i s t := by
  cases hu : s.touchesUart (s.effAddr rs1 imm) (loadWidth k) with
  | true => rw [load_of_uart hu] at h; simp at h
  | false =>
    rw [load_of_clear hu] at h
    simp only [Host.Outcome.next.injEq] at h
    exact h ▸ .writes rd _ k rd hd hs ht

theorem store_case {i : Instr} {s t : State} {w : Width} {rs1 rs2 : RegIdx} {imm : BitVec 12}
    (hd : destReg i = none) (hs : isStore i = true) (ht : isTransfer i = false)
    (h : s.store w rs1 rs2 imm = .next t) : ExecCase i s t := by
  cases hu : s.touchesUart (s.effAddr rs1 imm) w with
  | true => rw [store_of_uart hu] at h; simp at h
  | false =>
    rw [store_of_clear hu] at h
    simp only [Host.Outcome.next.injEq] at h
    exact h ▸ .stores w _ _ hd hs ht

theorem branch_case {i : Instr} {s t : State} {taken : Bool} {offset : BitVec 13}
    (hd : destReg i = none) (hs : isStore i = false) (ht : isTransfer i = true)
    (hx : transferTarget s i = if taken = true then some (s.pc + sextBranch offset) else none)
    (h : s.branch taken offset = .next t) : ExecCase i s t := by
  rw [branch_answer] at h
  simp only [Host.Outcome.next.injEq] at h
  subst h
  split
  · rename_i htaken
    rw [if_pos htaken] at hx
    split
    · rename_i ha; exact .branches _ hd hs ht ((aligned4_iff _).mp ha)
    · rename_i ha
      have := ExecCase.misaligned (i := i) (s := s) (s.pc + sextBranch offset) hs ht hx (fun e => ha ((aligned4_iff _).mpr e))
      rwa [hd] at this
  · exact .advances hd hs

theorem jump_case {i : Instr} {s t : State} {rd : RegIdx} {target : Word}
    (hd : destReg i = some rd) (hs : isStore i = false) (ht : isTransfer i = true)
    (hx : transferTarget s i = some target) (h : s.jump rd target = .next t) : ExecCase i s t := by
  rw [jump_answer] at h
  simp only [Host.Outcome.next.injEq] at h
  subst h
  split
  · rename_i ha; exact .jumps rd _ hd hs ht ((aligned4_iff _).mp ha)
  · rename_i ha
    have := ExecCase.misaligned (i := i) (s := s) target hs ht hx (fun e => ha ((aligned4_iff _).mpr e))
    rwa [hd] at this

theorem writeBack_case {i : Instr} {s t : State} {rd : RegIdx} {v : Word}
    (hd : destReg i = some rd) (hs : isStore i = false) (ht : isTransfer i = false)
    (h : (.next (s.writeBack rd v) : Result) = .next t) : ExecCase i s t := by
  simp only [Host.Outcome.next.injEq] at h
  exact h ▸ ExecCase.writes (s := s) rd v s.loadKind s.loadDest hd hs ht

/-- Everything an instruction can do when it answers a next state. -/
theorem exec_cases {i : Instr} {s t : State} (h : exec i s = .next t) : ExecCase i s t := by
  cases i
  case lb => exact load_case rfl rfl rfl h
  case lh => exact load_case rfl rfl rfl h
  case lw => exact load_case rfl rfl rfl h
  case lbu => exact load_case rfl rfl rfl h
  case lhu => exact load_case rfl rfl rfl h
  case fence =>
    simp only [exec, execFence, Host.Outcome.next.injEq] at h
    exact h ▸ .advances rfl rfl
  case addi => exact writeBack_case rfl rfl rfl h
  case slti => exact writeBack_case rfl rfl rfl h
  case sltiu => exact writeBack_case rfl rfl rfl h
  case xori => exact writeBack_case rfl rfl rfl h
  case ori => exact writeBack_case rfl rfl rfl h
  case andi => exact writeBack_case rfl rfl rfl h
  case slli => exact writeBack_case rfl rfl rfl h
  case srli => exact writeBack_case rfl rfl rfl h
  case srai => exact writeBack_case rfl rfl rfl h
  case add => exact writeBack_case rfl rfl rfl h
  case sub => exact writeBack_case rfl rfl rfl h
  case sll => exact writeBack_case rfl rfl rfl h
  case slt => exact writeBack_case rfl rfl rfl h
  case sltu => exact writeBack_case rfl rfl rfl h
  case xor => exact writeBack_case rfl rfl rfl h
  case srl => exact writeBack_case rfl rfl rfl h
  case sra => exact writeBack_case rfl rfl rfl h
  case or => exact writeBack_case rfl rfl rfl h
  case and => exact writeBack_case rfl rfl rfl h
  case lui => exact writeBack_case rfl rfl rfl h
  case auipc => exact writeBack_case rfl rfl rfl h
  case sb => exact store_case rfl rfl rfl h
  case sh => exact store_case rfl rfl rfl h
  case sw => exact store_case rfl rfl rfl h
  case beq => exact branch_case rfl rfl rfl (by simp [transferTarget, cmpEq]) h
  case bne => exact branch_case rfl rfl rfl (by simp [transferTarget, cmpEq]) h
  case blt => exact branch_case rfl rfl rfl (by simp [transferTarget, cmpLtSigned]) h
  case bge => exact branch_case rfl rfl rfl (by simp [transferTarget, cmpLtSigned]) h
  case bltu => exact branch_case rfl rfl rfl (by simp [transferTarget, cmpLtUnsigned]) h
  case bgeu => exact branch_case rfl rfl rfl (by simp [transferTarget, cmpLtUnsigned]) h
  case jal => exact jump_case rfl rfl rfl rfl h
  case jalr => exact jump_case rfl rfl rfl rfl h
  case ecall => exact writeBack_case rfl rfl rfl h
  case ebreak => exact writeBack_case rfl rfl rfl h

/-- An instruction never ends in a fault of the model, and is refused only for a UART access (R65). -/
theorem exec_outcome (i : Instr) (s : State) :
    (∃ t, exec i s = .next t) ∨ (∃ k a, exec i s = .refused (.uartAccess k a)) := by
  cases i <;> simp only [exec, execLb, execLh, execLw, execLbu, execLhu, execFence, execAddi, execSlti, execSltiu, execXori, execOri, execAndi, execSlli, execSrli, execSrai, execAdd, execSub, execSll, execSlt, execSltu, execXor, execSrl, execSra, execOr, execAnd, execLui, execAuipc, execSb, execSh, execSw, execBeq, execBne, execBlt, execBge, execBltu, execBgeu, execJal, execJalr, execEcall, execEbreak, State.load, State.store, State.branch, State.jump] <;> (repeat' split) <;> simp

/-! ### What the predicates of claims mean -/

theorem touchesUart_eq_false {s : State} {a : Word} {w : Width} :
    s.touchesUart a w = false ↔ ClearOfUart s a (widthBytes w) := by
  simp [State.touchesUart, touchesUart, ClearOfUart]

theorem touchesUart_eq_true {s : State} {a : Word} {w : Width} :
    s.touchesUart a w = true ↔ ¬ ClearOfUart s a (widthBytes w) := by
  rw [← touchesUart_eq_false]; simp

theorem isSentinel_iff (w : Word) : isSentinel w = true ↔ w = 0x00000000#32 ∨ w = 0xFFFFFFFF#32 := by
  simp only [isSentinel, Bool.or_eq_true, beq_iff_eq]

/-- A word that decodes is no sentinel (R128). -/
theorem not_sentinel_of_decode {w : Word} {i : Instr} (h : decodeWord w = .ok i) : isSentinel w = false := by
  rw [← Bool.not_eq_true, isSentinel_iff]
  rintro (rfl | rfl) <;> simp [decodeWord, fieldOpcode] at h

/-- The fetched word is its four bytes (R120, R70). -/
theorem fetchWord_bytes (s : State) : s.fetchWord =
    wordOfBytes (s.byteAt s.pc) (s.byteAt (s.pc + 1#32)) (s.byteAt (s.pc + 2#32)) (s.byteAt (s.pc + 3#32)) := by
  simp only [State.fetchWord, State.memRead]; rw [memRead_bytes (memDepth_dvd _)]; rfl

/-- Taking the fault of a misaligned target is what R313 allows. -/
theorem raiseTarget_frame (s : State) (l : Option RegIdx) (t : Word) : FaultsOnTarget s (s.raiseTarget l t) l t where
  runState := by simp [State.runState]
  faultCode := by simp
  pc := raiseTarget_pc s l t
  linkReg := raiseTarget_reg s l t
  memory := fun a => byteAt_congr (by simp) (by simp) a
  insn := by simp
  loadDest := by simp
  loadKind := by simp
  readEngine := by simp
  readPort := by simp
  writeEngine := by simp
  params := by simp

/-- Applying the pending write-back and then raising a fault is what R333 allows. -/
theorem raiseFault_frame (s : State) (code : FaultCode) (w : Word) :
    FaultsWith s (s.commit.raiseFault code w) code w where
  runState := by simp [State.runState]
  faultCode := by simp
  faultInsn := by simp
  pc := by simp
  regs := fun i => by simp
  memory := fun a => byteAt_congr (by simp) (by simp) a
  loadDest := by simp
  loadKind := by simp
  readEngine := by simp
  readPort := by simp
  writeEngine := by simp
  params := by simp
  draws := by simp

/-- The answer of a meaning that ends in `writeBack`. -/
theorem writeBack_result {s : State} {i : Instr} {rd : RegIdx} {v v' : Word} (h : exec i s = .next (s.writeBack rd v))
    (hv : v = v') : WriteResult s i rd v' := by
  subst hv
  refine ⟨_, h, fun i => by simp, fun a => byteAt_congr (by simp) (by simp) a, ?_⟩
  constructor <;> simp [State.nextPc]

/-! ### Operands by value -/

theorem boolWord_ltSigned (a b : Word) : boolWord (cmpLtSigned a b) = if a.toInt < b.toInt then 1#32 else 0#32 := by
  by_cases h : a.toInt < b.toInt <;> simp [boolWord, cmpLtSigned, h]

theorem boolWord_ltUnsigned (a b : Word) : boolWord (cmpLtUnsigned a b) = if a.toNat < b.toNat then 1#32 else 0#32 := by
  by_cases h : a.toNat < b.toNat <;> simp [boolWord, cmpLtUnsigned, h]

/-- A shift amount is its register modulo 32 (R123, R251). -/
theorem shiftAmount_eq (b : Word) : shiftAmount b = b.toNat % 32 := by simp [shiftAmount, BitVec.extractLsb'_toNat]

theorem sshiftRight_eq_div (a : Word) (n : Nat) : a.sshiftRight n = BitVec.ofInt 32 (a.toInt / 2 ^ n) := by
  rw [BitVec.sshiftRight, Int.shiftRight_eq_div_pow]; norm_num

theorem upperImm_eq (imm : BitVec 20) : upperImm imm = BitVec.ofNat 32 (imm.toNat * 4096) := by
  apply BitVec.eq_of_toNat_eq
  have := imm.isLt
  rw [upperImm, BitVec.toNat_append]; simp [Nat.shiftLeft_eq]; omega

/-- Clearing bit 0 rounds down to an even number (R311). -/
theorem clearBit0_eq (x : Word) : x &&& 0xFFFFFFFE#32 = BitVec.ofNat 32 (x.toNat / 2 * 2) := by
  have h : x &&& 0xFFFFFFFE#32 = (x >>> 1) <<< 1 := by ext i hi; simp; interval_cases i <;> simp
  rw [h]; apply BitVec.eq_of_toNat_eq; simp [Nat.shiftRight_eq_div_pow, Nat.shiftLeft_eq]

/-! ### One instruction from a boundary (R175, R337) -/

theorem instruction_of_decode {s : State} {i : Instr} (ha : s.pc.toNat % 4 = 0) (hu : s.touchesUart s.pc .word = false)
    (hd : decodeWord s.fetchWord = .ok i) : instruction s = exec i { s.commit with insn := s.fetchWord } := by
  simp [instruction, (aligned4_iff s.pc).mpr ha, hu, not_sentinel_of_decode hd, State.runWord, hd]

theorem instruction_of_misaligned {s : State} (ha : s.pc.toNat % 4 ≠ 0) :
    instruction s = .next (s.commit.raiseFault .pcMisaligned s.pc) := by
  have h : aligned4 s.pc = false := by rw [← Bool.not_eq_true]; exact fun h => ha ((aligned4_iff s.pc).mp h)
  simp [instruction, h]

/-- The hart's state after an instruction. -/
theorem exec_hart {i : Instr} {s t : State} (h : exec i s = .next t) : t.hart = .fetchRequest ∨ t.hart = .faulted := by
  cases exec_cases h <;> simp

theorem exec_params {i : Instr} {s t : State} (h : exec i s = .next t) : t.params = s.params := by
  cases exec_cases h <;> simp

end Sys2Proof.Machine
end

