-- ==== Sys2Proof/Laws/Cycle.lean ====
section
/-! SUPPORT. The clock cycles of one instruction, phase by phase: the fetch, `DECODE`, a load's read and a
store's write, each from a state whose engines are quiet. -/

namespace Sys2Proof.Machine

/-- No transaction is in flight and no read data is on its way. -/
abbrev State.Quiet (s : State) : Prop := s.readEngine = .idle ∧ s.readPort = none ∧ s.writeEngine = .idle

/-! ### `cycles` -/

theorem cycles_one (s : State) : cycles 1 s = cycle s := by
  simp only [cycles]; cases cycle s <;> rfl

theorem cycles_succ {s t : State} (h : cycle s = .next t) (n : Nat) : cycles (n + 1) s = cycles n t := by
  simp only [cycles, h]

/-- Cycles compose. -/
theorem cycles_add {s t : State} {m : Nat} (h : cycles m s = .next t) (n : Nat) : cycles (m + n) s = cycles n t := by
  induction m generalizing s with
  | zero =>
    simp only [cycles, Host.Outcome.next.injEq] at h
    rw [Nat.zero_add, h]
  | succ m ih =>
    rw [Nat.succ_add]
    simp only [cycles] at h ⊢
    cases hc : cycle s with
    | next u => rw [hc] at h; exact ih h
    | fault r => rw [hc] at h; cases h
    | refused r => rw [hc] at h; cases h

/-! ### Quiet engines -/

/-- With both engines quiet and no request, committing a quiet state is that state. -/
theorem clocked_quiet {s h : State} (hs : s.Quiet) (hh : h.Quiet) : s.clocked h none none = h := by
  obtain ⟨h1, h2, h3⟩ := hs
  obtain ⟨g1, g2, g3⟩ := hh
  cases h
  simp_all [State.clocked, State.readAdvance, State.writeAdvance]

theorem commit_quiet {s : State} (h : s.Quiet) : s.commit.Quiet := by simpa [State.Quiet] using h

/-- An instruction leaves the engines as they are. -/
theorem exec_quiet {i : Instr} {s t : State} (hs : s.Quiet) (h : exec i s = .next t) : t.Quiet := by
  cases exec_cases h <;> simpa [State.Quiet] using hs

/-- Committing the answer of an instruction that met quiet engines is that answer. -/
theorem clockedResult_exec {i : Instr} {s u : State} (hs : s.Quiet) (hu : u.Quiet) :
    s.clockedResult (exec i u) = exec i u := by
  cases h : exec i u with
  | next t => simp only [State.clockedResult, clocked_quiet hs (exec_quiet hu h)]
  | fault r => rfl
  | refused r => rfl

/-! ### An instruction's meaning does not depend on the hart's state -/

theorem commit_withHart (s : State) (h : HartState) :
    State.commit { s with hart := h } = { s.commit with hart := h } := by
  obtain e | ⟨⟨j, v⟩, e⟩ := Option.eq_none_or_eq_some s.pending <;> simp [State.commit, e]

theorem writeBack_withHart (s : State) (h : HartState) (rd : RegIdx) (v : Word) :
    State.writeBack { s with hart := h } rd v = s.writeBack rd v := by
  simp only [State.writeBack, State.complete, State.schedule, commit_withHart]; rfl

theorem raiseTarget_withHart (s : State) (h : HartState) (l : Option RegIdx) (t : Word) :
    State.raiseTarget { s with hart := h } l t = s.raiseTarget l t := by
  simp only [State.raiseTarget, State.raiseFault, commit_withHart]; rfl

theorem load_withHart (s : State) (h : HartState) (k : LoadKind) (rd rs1 : RegIdx) (imm : BitVec 12) :
    State.load { s with hart := h } k rd rs1 imm = s.load k rd rs1 imm := by
  have e := writeBack_withHart { s with loadDest := rd, loadKind := k } h rd
    (extendLoad k (s.memRead (loadWidth k) (s.effAddr rs1 imm)))
  exact if_congr Iff.rfl rfl (congrArg _ e)

theorem store_withHart (s : State) (h : HartState) (w : Width) (rs1 rs2 : RegIdx) (imm : BitVec 12) :
    State.store { s with hart := h } w rs1 rs2 imm = s.store w rs1 rs2 imm := rfl

theorem branch_withHart (s : State) (h : HartState) (taken : Bool) (offset : BitVec 13) :
    State.branch { s with hart := h } taken offset = s.branch taken offset := by
  simp only [State.branch, raiseTarget_withHart]; rfl

theorem jump_withHart (s : State) (h : HartState) (rd : RegIdx) (t : Word) :
    State.jump { s with hart := h } rd t = s.jump rd t := by
  simp only [State.jump, raiseTarget_withHart, State.complete, State.schedule, commit_withHart]; rfl

/-- The state machine runs a meaning in `DECODE` or in a later state; the boundary runs it in
`FETCH_REQUEST`: the answer is the same. -/
theorem exec_withHart (i : Instr) (s : State) (h : HartState) : exec i { s with hart := h } = exec i s := by
  cases i <;> first
    | exact load_withHart s h _ _ _ _
    | exact store_withHart s h _ _ _ _
    | exact branch_withHart s h _ _
    | exact jump_withHart s h _ _
    | exact congrArg Host.Outcome.next (writeBack_withHart s h _ _)
    | rfl

/-- The dispatch of a load names the load's meaning. -/
theorem exec_of_load {i : Instr} {k : LoadKind} {rd rs1 : RegIdx} {imm : BitVec 12}
    (h : hartWork i = .load k rd rs1 imm) (s : State) : exec i s = s.load k rd rs1 imm := by
  cases i <;> simp only [hartWork, HartWork.load.injEq, reduceCtorEq] at h <;> obtain ⟨rfl, rfl, rfl, rfl⟩ := h <;> rfl

/-- The dispatch of a store names the store's meaning. -/
theorem exec_of_store {i : Instr} {w : Width} {rs1 rs2 : RegIdx} {imm : BitVec 12}
    (h : hartWork i = .store w rs1 rs2 imm) (s : State) : exec i s = s.store w rs1 rs2 imm := by
  cases i <;> simp only [hartWork, HartWork.store.injEq, reduceCtorEq] at h <;> obtain ⟨rfl, rfl, rfl, rfl⟩ := h <;> rfl

/-- An instruction that accesses no memory answers a next state. -/
theorem exec_next_of_noAccess {i : Instr} (hl : ∀ k rd rs1 imm, hartWork i ≠ .load k rd rs1 imm)
    (hs : ∀ w rs1 rs2 imm, hartWork i ≠ .store w rs1 rs2 imm) (s : State) : ∃ t, exec i s = .next t := by
  cases i <;> first
    | exact ⟨_, rfl⟩
    | exact absurd rfl (hl _ _ _ _)
    | exact absurd rfl (hs _ _ _ _)
    | exact ⟨_, branch_answer ..⟩
    | exact ⟨_, jump_answer ..⟩

/-! ### The fetch (R161, R162) -/

/-- `FETCH_REQUEST` presented the read of the word at pc. -/
def State.fetch1 (s : State) : State :=
  { s.commit with
    hart := .fetchWait
    readEngine := .collect0 ⟨s.pc, .word⟩
    readPort := some (cellAt (memDepth s.params) s.mem (cellIndex s.pc)) }

/-- The first cell has arrived. -/
def State.fetch2 (s : State) : State :=
  { s.fetch1 with
    readEngine := .collect1 ⟨s.pc, .word⟩ (cellAt (memDepth s.params) s.mem (cellIndex s.pc))
    readPort := some (cellAt (memDepth s.params) s.mem (cellIndex s.pc + 1)) }

/-- The word has arrived and is not a sentinel. -/
def State.fetch3 (s : State) : State := { s.commit with insn := s.fetchWord, hart := .decode }

theorem oddAddr_of_aligned {a : Word} (h : a.toNat % 4 = 0) : oddAddr a = false := by
  simp only [oddAddr, beq_eq_false_iff_ne]; omega

theorem cycle_fetchRequest {s : State} (hb : s.AtBoundary) (ha : s.pc.toNat % 4 = 0)
    (hu : s.touchesUart s.pc .word = false) : cycle s = .next s.fetch1 := by
  obtain ⟨h0, h1, h2, h3⟩ := hb
  have ho := oddAddr_of_aligned ha
  simp [cycle, h0, cycleFetchRequest, (aligned4_iff s.pc).mpr ha, hu, State.clocked, State.readAdvance, h1,
    State.writeAdvance, h3, State.fetch1, ReadReq.beats, readBeatCount, ho]

theorem cycle_fetch1 {s : State} (hw : s.writeEngine = .idle) : cycle s.fetch1 = .next s.fetch2 := by
  simp [cycle, State.fetch1, State.fetch2, cycleFetchWait, State.readResponse, State.clocked, State.readAdvance,
    State.writeAdvance, State.readData, hw]

theorem cycle_fetch2 {s : State} (hq : s.Quiet) (ha : s.pc.toNat % 4 = 0) :
    cycle s.fetch2 = .next (if isSentinel s.fetchWord = true
      then s.commit.raiseFault .illegalInstruction s.fetchWord else s.fetch3) := by
  obtain ⟨h1, h2, h3⟩ := hq
  have ho := oddAddr_of_aligned ha
  have hr : s.fetch2.readResponse = some s.fetchWord := by
    simp [State.fetch2, State.readResponse, ReadReq.beats, readBeatCount, ho, State.readData, State.fetchWord,
      State.memRead, memRead, reassemble]
  have hc : cycle s.fetch2 = cycleFetchWait s.fetch2 := rfl
  rw [hc, cycleFetchWait, hr]
  simp only []
  split <;>
    simp [State.clocked, State.readAdvance, State.writeAdvance, State.fetch2, State.fetch1, State.fetch3, ReadReq.beats,
      readBeatCount, ho, State.raiseFault, h1, h2, h3]

/-! ### `DECODE` and the states that do the work -/

theorem cycle_decode_error {s : State} (hq : s.Quiet) (hh : s.hart = .decode) {e : DecodeError}
    (hd : decodeWord s.insn = .error e) : cycle s = .next (s.raiseFault .illegalInstruction s.insn) := by
  have hc : cycle s = cycleDecode s := by simp only [cycle, hh]
  rw [hc, cycleDecode, hd]
  simp only []
  rw [clocked_quiet hq (by simpa [State.Quiet] using hq)]

theorem cycle_decode_inDecode {s : State} (hq : s.Quiet) (hh : s.hart = .decode) {i : Instr}
    (hd : decodeWord s.insn = .ok i) (hw : hartWork i = .inDecode) : cycle s = exec i s := by
  have hc : cycle s = cycleDecode s := by simp only [cycle, hh]
  rw [hc, cycleDecode, hd]
  simp only [hw]
  exact clockedResult_exec hq hq

theorem cycle_decode_resolve {s : State} (hq : s.Quiet) (hh : s.hart = .decode) {i : Instr} {h : HartState}
    (hd : decodeWord s.insn = .ok i) (hw : hartWork i = .resolve h) : cycle s = .next { s with hart := h } := by
  have hc : cycle s = cycleDecode s := by simp only [cycle, hh]
  rw [hc, cycleDecode, hd]
  simp only [hw]
  rw [clocked_quiet hq (by simpa [State.Quiet] using hq)]

/-- `ALU_IMM`, `ALU_REG`, `BRANCH_RESOLVE` or `JALR_RESOLVE`. -/
theorem cycle_resolve {s : State} (hq : s.Quiet) {i : Instr} (hh : hartWork i = .resolve s.hart)
    (hd : decodeWord s.insn = .ok i) : cycle s = exec i s := by
  have hc : cycle s = cycleResolve s := by
    cases i <;> simp only [hartWork, HartWork.resolve.injEq, reduceCtorEq] at hh <;> simp only [cycle, ← hh]
  rw [hc, cycleResolve, State.runWord, hd]
  exact clockedResult_exec hq hq

/-! ### A load's read (R164, R167, R71) -/

theorem readBeatCount_cases (w : Width) (o : Bool) : readBeatCount w o = 1 ∨ readBeatCount w o = 2 ∨ readBeatCount w o = 3 := by
  cases w <;> cases o <;> simp [readBeatCount]

/-- `DECODE` presented the read of a load. -/
def State.load1 (s : State) (k : LoadKind) (rd : RegIdx) (ea : Word) : State :=
  { s with
    loadDest := rd
    loadKind := k
    hart := .loadWait
    readEngine := if readBeatCount (loadWidth k) (oddAddr ea) = 1 then .collect ⟨ea, loadWidth k⟩
      else .collect0 ⟨ea, loadWidth k⟩
    readPort := some (cellAt (memDepth s.params) s.mem (cellIndex ea)) }

/-- The first cell of several has arrived. -/
def State.load2 (s : State) (k : LoadKind) (rd : RegIdx) (ea : Word) : State :=
  { s.load1 k rd ea with
    readEngine := .collect1 ⟨ea, loadWidth k⟩ (cellAt (memDepth s.params) s.mem (cellIndex ea))
    readPort := some (cellAt (memDepth s.params) s.mem (cellIndex ea + 1)) }

/-- The second cell of three has arrived. -/
def State.load3 (s : State) (k : LoadKind) (rd : RegIdx) (ea : Word) : State :=
  { s.load1 k rd ea with
    readEngine := .collect2 ⟨ea, loadWidth k⟩ (cellAt (memDepth s.params) s.mem (cellIndex ea))
      (cellAt (memDepth s.params) s.mem (cellIndex ea + 1))
    readPort := some (cellAt (memDepth s.params) s.mem (cellIndex ea + 2)) }

/-- The response has been captured. -/
def State.load4 (s : State) (k : LoadKind) (rd : RegIdx) (ea : Word) : State :=
  { s with loadDest := rd, loadKind := k, hart := .loadResolve k (s.memRead (loadWidth k) ea) }

theorem cycle_decode_load {s : State} (hq : s.Quiet) (hh : s.hart = .decode) {i : Instr} {k : LoadKind}
    {rd rs1 : RegIdx} {imm : BitVec 12} (hd : decodeWord s.insn = .ok i) (hw : hartWork i = .load k rd rs1 imm) :
    cycle s = if s.touchesUart (s.effAddr rs1 imm) (loadWidth k) = true
      then .refused (.uartAccess .load (s.effAddr rs1 imm)) else .next (s.load1 k rd (s.effAddr rs1 imm)) := by
  obtain ⟨h1, h2, h3⟩ := hq
  have hc : cycle s = cycleDecode s := by simp only [cycle, hh]
  rw [hc, cycleDecode, hd]
  simp only [hw, cycleIssueLoad]
  refine if_congr Iff.rfl rfl ?_
  simp [State.clocked, State.readAdvance, State.writeAdvance, h1, h3, State.load1, ReadReq.beats]
  rfl

/-- The cycle in which the last cell of a load's read arrives. -/
theorem cycle_load_last {s u : State} {k : LoadKind} {rd : RegIdx} {ea : Word} (hq : s.Quiet)
    (hr : u.readResponse = some (s.memRead (loadWidth k) ea)) (hk : u.loadKind = k)
    (hh : u.hart = .loadWait) (hn : u.readAdvance none = (.idle, none))
    (hu : { u with readEngine := .idle, readPort := none, hart := s.hart } = { s with loadDest := rd, loadKind := k }) :
    cycle u = .next (s.load4 k rd ea) := by
  have hc : cycle u = cycleLoadWait u := by simp only [cycle, hh]
  have hw : u.writeEngine = .idle := (congrArg State.writeEngine hu).trans hq.2.2
  rw [hc, cycleLoadWait, hr]
  simp only [State.clocked, hn, Option.map_none, State.writeAdvance, hw, hk]
  cases u; cases s
  simp_all [State.load4]

theorem cycle_load1 {s : State} (hq : s.Quiet) (k : LoadKind) (rd : RegIdx) (ea : Word) :
    cycle (s.load1 k rd ea) = .next (if readBeatCount (loadWidth k) (oddAddr ea) = 1
      then s.load4 k rd ea else s.load2 k rd ea) := by
  have ⟨h1, h2, h3⟩ := hq
  split
  · rename_i h
    refine cycle_load_last hq ?_ rfl rfl ?_ ?_
    · simp only [State.readResponse, State.load1, h, if_true, State.readData, Option.getD_some, State.memRead, memRead]
      cases k <;> cases ho : oddAddr ea <;> simp_all [loadWidth, readBeatCount, reassemble]
    · simp [State.readAdvance, State.load1, h]
    · simp [State.load1, h1, h2]
  · rename_i h
    simp [cycle, State.load1, cycleLoadWait, State.readResponse, h, State.clocked, State.readAdvance, State.writeAdvance,
      h3, State.readData, State.load2]

theorem cycle_load2 {s : State} (hq : s.Quiet) (k : LoadKind) (rd : RegIdx) (ea : Word)
    (hb : readBeatCount (loadWidth k) (oddAddr ea) ≠ 1) :
    cycle (s.load2 k rd ea) = .next (if readBeatCount (loadWidth k) (oddAddr ea) = 2
      then s.load4 k rd ea else s.load3 k rd ea) := by
  have ⟨h1, h2, h3⟩ := hq
  split
  · rename_i h
    refine cycle_load_last hq ?_ rfl rfl ?_ ?_
    · simp only [State.readResponse, State.load2, ReadReq.beats, h, if_true, State.readData, Option.getD_some, State.memRead, memRead]
      cases k <;> cases ho : oddAddr ea <;> simp_all [loadWidth, readBeatCount, reassemble]
    · simp [State.readAdvance, State.load2, ReadReq.beats, h]
    · simp [State.load2, State.load1, h1, h2]
  · rename_i h
    simp [cycle, State.load1, State.load2, cycleLoadWait, State.readResponse, ReadReq.beats, h, State.clocked,
      State.readAdvance, State.writeAdvance, h3, State.readData, State.load3]

theorem cycle_load3 {s : State} (hq : s.Quiet) (k : LoadKind) (rd : RegIdx) (ea : Word) :
    cycle (s.load3 k rd ea) = .next (s.load4 k rd ea) := by
  have ⟨h1, h2, h3⟩ := hq
  refine cycle_load_last hq ?_ rfl rfl ?_ ?_
  · simp only [State.readResponse, State.load3, State.readData, Option.getD_some, State.memRead, memRead]
  · simp [State.readAdvance, State.load3]
  · simp [State.load3, State.load1, h1, h2]

theorem cycle_load4 {s : State} (hq : s.Quiet) (k : LoadKind) (rd : RegIdx) (ea : Word) :
    cycle (s.load4 k rd ea) = .next (State.writeBack { s with loadDest := rd, loadKind := k } rd
      (extendLoad k (s.memRead (loadWidth k) ea))) := by
  have hc : cycle (s.load4 k rd ea) = cycleLoadResolve (s.load4 k rd ea) k (s.memRead (loadWidth k) ea) := rfl
  rw [hc, cycleLoadResolve, clocked_quiet (by simpa [State.Quiet, State.load4] using hq) (by simpa [State.Quiet, State.load4] using hq)]
  exact congrArg _ (writeBack_withHart { s with loadDest := rd, loadKind := k } _ rd _)

/-! ### A store's write (R164, R168, R73, R76) -/

/-- `DECODE` presented the write, which was accepted, and its first beat is done. -/
def State.store1 (s : State) (w : Width) (ea v : Word) : State :=
  { s with
    hart := .storeWait true
    writeEngine := WriteReq.afterFirst ⟨ea, w, v⟩
    mem := memWriteBeats 1 (memDepth s.params) s.mem w ea v }

/-- In `STORE_RESOLVE`, with two beats done or all there are. -/
def State.store2 (s : State) (w : Width) (ea v : Word) : State :=
  { s with
    hart := .storeResolve
    writeEngine := if (writeBeats w ea v).length = 3 then .wordUnalignedFish ⟨ea, w, v⟩ else .idle
    mem := memWriteBeats 2 (memDepth s.params) s.mem w ea v }

/-- In `STORE_RESOLVE`, with all beats done. -/
def State.store3 (s : State) (w : Width) (ea v : Word) : State :=
  { s with hart := .storeResolve, mem := memWrite (memDepth s.params) s.mem w ea v }

theorem cycle_decode_store {s : State} (hq : s.Quiet) (hh : s.hart = .decode) {i : Instr} {w : Width}
    {rs1 rs2 : RegIdx} {imm : BitVec 12} (hd : decodeWord s.insn = .ok i) (hw : hartWork i = .store w rs1 rs2 imm) :
    cycle s = if s.touchesUart (s.effAddr rs1 imm) w = true
      then .refused (.uartAccess .store (s.effAddr rs1 imm))
      else .next (s.store1 w (s.effAddr rs1 imm) (s.reg rs2)) := by
  obtain ⟨h1, h2, h3⟩ := hq
  have hc : cycle s = cycleDecode s := by simp only [cycle, hh]
  rw [hc, cycleDecode, hd]
  simp only [hw, cycleIssueStore]
  refine if_congr Iff.rfl rfl ?_
  simp only [State.clocked, State.readAdvance, State.writeAdvance, h1, h3, State.writeReady, State.store1,
    WriteReq.beats, Option.map_none, memWriteBeats]
  cases w <;> cases ho : oddAddr (s.effAddr rs1 imm) <;> simp [writeBeats, ho, h2]

theorem cycle_store1 {s : State} (hq : s.Quiet) (w : Width) (ea v : Word) :
    cycle (s.store1 w ea v) = .next (s.store2 w ea v) := by
  obtain ⟨h1, h2, h3⟩ := hq
  have hc : cycle (s.store1 w ea v) = cycleStoreWait (s.store1 w ea v) true := rfl
  rw [hc]
  simp only [cycleStoreWait, if_true, State.clocked, State.readAdvance, State.writeAdvance, State.store1, h1,
    State.store2, memWriteBeats, WriteReq.afterFirst]
  cases w <;> cases ho : oddAddr ea <;> simp [writeBeats, ho, h2, WriteReq.beats]

theorem cycle_store2 {s : State} (hq : s.Quiet) (w : Width) (ea v : Word) :
    cycle (s.store2 w ea v) = .next (if (writeBeats w ea v).length = 3 then s.store3 w ea v
      else State.complete { s with mem := memWrite (memDepth s.params) s.mem w ea v } s.nextPc) := by
  obtain ⟨h1, h2, h3⟩ := hq
  have hc : cycle (s.store2 w ea v) = cycleStoreResolve (s.store2 w ea v) := rfl
  rw [hc]
  simp only [cycleStoreResolve, State.clocked, State.readAdvance, State.writeAdvance, State.store2, h1, State.writeReady,
    State.store3, memWriteBeats, memWrite, State.complete, State.nextPc]
  cases w <;> cases ho : oddAddr ea <;> simp [writeBeats, ho, h2, h3, WriteReq.beats]

theorem cycle_store3 {s : State} (hq : s.Quiet) (w : Width) (ea v : Word) :
    cycle (s.store3 w ea v) =
      .next (State.complete { s with mem := memWrite (memDepth s.params) s.mem w ea v } s.nextPc) := by
  have hc : cycle (s.store3 w ea v) = cycleStoreResolve (s.store3 w ea v) := rfl
  rw [hc]
  have hr : (s.store3 w ea v).writeReady = true := by simp [State.writeReady, State.store3, hq.2.2]
  rw [cycleStoreResolve, if_pos hr, clocked_quiet (by simpa [State.Quiet, State.store3] using hq) (by simpa [State.Quiet, State.store3] using hq)]
  rfl

/-! ### From the boundary to `DECODE`, and from `DECODE` to the end -/

theorem fetch3_quiet {s : State} (h : s.Quiet) : s.fetch3.Quiet := by simpa [State.Quiet, State.fetch3] using h

/-- The three cycles of a fetch. -/
theorem cycles_fetch3 {s : State} (hb : s.AtBoundary) (ha : s.pc.toNat % 4 = 0) (hu : s.touchesUart s.pc .word = false)
    (hs : isSentinel s.fetchWord = false) : cycles 3 s = .next s.fetch3 := by
  rw [cycles_succ (cycle_fetchRequest hb ha hu), cycles_succ (cycle_fetch1 hb.2.2.2), cycles_one, cycle_fetch2 hb.2 ha]
  simp [hs]

theorem exec_fetch3 (i : Instr) (s : State) : exec i s.fetch3 = exec i { s.commit with insn := s.fetchWord } :=
  exec_withHart i { s.commit with insn := s.fetchWord } .decode

theorem effAddr_fetch3 (s : State) (r : RegIdx) (imm : BitVec 12) : s.fetch3.effAddr r imm = s.effAddr r imm :=
  congrArg (· + sextImm imm) (commit_reg s r)

theorem writeBeats_cases (w : Width) (a v : Word) :
    (writeBeats w a v).length = 1 ∨ (writeBeats w a v).length = 2 ∨ (writeBeats w a v).length = 3 := by
  cases w <;> cases ho : oddAddr a <;> simp [writeBeats, ho]

theorem memWriteBeats_all {k d : Nat} {m : Memory} {w : Width} {a v : Word} (h : (writeBeats w a v).length ≤ k) :
    memWriteBeats k d m w a v = memWrite d m w a v := by
  simp [memWriteBeats, memWrite, List.take_of_length_le h]

end Sys2Proof.Machine
end

