-- ==== Sys2Proof/Laws/Decode.lean ====
section
/-! SUPPORT. The fields of every layout's encoding, and what a word is made of. -/

namespace Sys2Proof

@[simp] theorem regOfBits_bitsOfReg (r : RegIdx) : regOfBits (bitsOfReg r) = r := rfl

@[simp] theorem bitsOfReg_regOfBits (b : BitVec 5) : bitsOfReg (regOfBits b) = b := rfl

/-! ### The fields of an encoded word -/

@[simp] theorem fieldOpcode_encodeI (imm : BitVec 12) (rs1 : RegIdx) (f3 : BitVec 3) (rd : RegIdx) (op : BitVec 7) :
    fieldOpcode (encodeI imm rs1 f3 rd op) = op := by
  change BitVec.extractLsb' 0 7 (imm ++ (bitsOfReg rs1 ++ (f3 ++ (bitsOfReg rd ++ op)))) = op
  simp (disch := decide) only [BitVec.extractLsb'_append_eq_of_add_le]
  exact BitVec.extractLsb'_eq_self
@[simp] theorem fieldFunct3_encodeI (imm : BitVec 12) (rs1 : RegIdx) (f3 : BitVec 3) (rd : RegIdx) (op : BitVec 7) :
    fieldFunct3 (encodeI imm rs1 f3 rd op) = f3 := by
  change BitVec.extractLsb' 12 3 (imm ++ (bitsOfReg rs1 ++ (f3 ++ (bitsOfReg rd ++ op)))) = f3
  simp (disch := decide) only [BitVec.extractLsb'_append_eq_of_add_le, BitVec.extractLsb'_append_eq_of_le]
  exact BitVec.extractLsb'_eq_self
@[simp] theorem fieldRd_encodeI (imm : BitVec 12) (rs1 : RegIdx) (f3 : BitVec 3) (rd : RegIdx) (op : BitVec 7) :
    fieldRd (encodeI imm rs1 f3 rd op) = rd := by
  change regOfBits (BitVec.extractLsb' 7 5 (imm ++ (bitsOfReg rs1 ++ (f3 ++ (bitsOfReg rd ++ op))))) = rd
  simp (disch := decide) only [BitVec.extractLsb'_append_eq_of_add_le, BitVec.extractLsb'_append_eq_of_le]
  exact congrArg regOfBits BitVec.extractLsb'_eq_self
@[simp] theorem fieldRs1_encodeI (imm : BitVec 12) (rs1 : RegIdx) (f3 : BitVec 3) (rd : RegIdx) (op : BitVec 7) :
    fieldRs1 (encodeI imm rs1 f3 rd op) = rs1 := by
  change regOfBits (BitVec.extractLsb' 15 5 (imm ++ (bitsOfReg rs1 ++ (f3 ++ (bitsOfReg rd ++ op))))) = rs1
  simp (disch := decide) only [BitVec.extractLsb'_append_eq_of_add_le, BitVec.extractLsb'_append_eq_of_le]
  exact congrArg regOfBits BitVec.extractLsb'_eq_self
@[simp] theorem fieldImmI_encodeI (imm : BitVec 12) (rs1 : RegIdx) (f3 : BitVec 3) (rd : RegIdx) (op : BitVec 7) :
    fieldImmI (encodeI imm rs1 f3 rd op) = imm := by
  change BitVec.extractLsb' 20 12 (imm ++ (bitsOfReg rs1 ++ (f3 ++ (bitsOfReg rd ++ op)))) = imm
  simp (disch := decide) only [BitVec.extractLsb'_append_eq_of_le]
  exact BitVec.extractLsb'_eq_self
@[simp] theorem fieldOpcode_encodeR (f7 : BitVec 7) (rs2 rs1 : RegIdx) (f3 : BitVec 3) (rd : RegIdx) (op : BitVec 7) :
    fieldOpcode (encodeR f7 rs2 rs1 f3 rd op) = op := by
  change BitVec.extractLsb' 0 7 (f7 ++ (bitsOfReg rs2 ++ (bitsOfReg rs1 ++ (f3 ++ (bitsOfReg rd ++ op))))) = op
  simp (disch := decide) only [BitVec.extractLsb'_append_eq_of_add_le]
  exact BitVec.extractLsb'_eq_self
@[simp] theorem fieldFunct3_encodeR (f7 : BitVec 7) (rs2 rs1 : RegIdx) (f3 : BitVec 3) (rd : RegIdx) (op : BitVec 7) :
    fieldFunct3 (encodeR f7 rs2 rs1 f3 rd op) = f3 := by
  change BitVec.extractLsb' 12 3 (f7 ++ (bitsOfReg rs2 ++ (bitsOfReg rs1 ++ (f3 ++ (bitsOfReg rd ++ op))))) = f3
  simp (disch := decide) only [BitVec.extractLsb'_append_eq_of_add_le, BitVec.extractLsb'_append_eq_of_le]
  exact BitVec.extractLsb'_eq_self
@[simp] theorem fieldFunct7_encodeR (f7 : BitVec 7) (rs2 rs1 : RegIdx) (f3 : BitVec 3) (rd : RegIdx) (op : BitVec 7) :
    fieldFunct7 (encodeR f7 rs2 rs1 f3 rd op) = f7 := by
  change BitVec.extractLsb' 25 7 (f7 ++ (bitsOfReg rs2 ++ (bitsOfReg rs1 ++ (f3 ++ (bitsOfReg rd ++ op))))) = f7
  simp (disch := decide) only [BitVec.extractLsb'_append_eq_of_le]
  exact BitVec.extractLsb'_eq_self
@[simp] theorem fieldRd_encodeR (f7 : BitVec 7) (rs2 rs1 : RegIdx) (f3 : BitVec 3) (rd : RegIdx) (op : BitVec 7) :
    fieldRd (encodeR f7 rs2 rs1 f3 rd op) = rd := by
  change regOfBits (BitVec.extractLsb' 7 5 (f7 ++ (bitsOfReg rs2 ++ (bitsOfReg rs1 ++ (f3 ++ (bitsOfReg rd ++ op)))))) = rd
  simp (disch := decide) only [BitVec.extractLsb'_append_eq_of_add_le, BitVec.extractLsb'_append_eq_of_le]
  exact congrArg regOfBits BitVec.extractLsb'_eq_self
@[simp] theorem fieldRs1_encodeR (f7 : BitVec 7) (rs2 rs1 : RegIdx) (f3 : BitVec 3) (rd : RegIdx) (op : BitVec 7) :
    fieldRs1 (encodeR f7 rs2 rs1 f3 rd op) = rs1 := by
  change regOfBits (BitVec.extractLsb' 15 5 (f7 ++ (bitsOfReg rs2 ++ (bitsOfReg rs1 ++ (f3 ++ (bitsOfReg rd ++ op)))))) = rs1
  simp (disch := decide) only [BitVec.extractLsb'_append_eq_of_add_le, BitVec.extractLsb'_append_eq_of_le]
  exact congrArg regOfBits BitVec.extractLsb'_eq_self
@[simp] theorem fieldRs2_encodeR (f7 : BitVec 7) (rs2 rs1 : RegIdx) (f3 : BitVec 3) (rd : RegIdx) (op : BitVec 7) :
    fieldRs2 (encodeR f7 rs2 rs1 f3 rd op) = rs2 := by
  change regOfBits (BitVec.extractLsb' 20 5 (f7 ++ (bitsOfReg rs2 ++ (bitsOfReg rs1 ++ (f3 ++ (bitsOfReg rd ++ op)))))) = rs2
  simp (disch := decide) only [BitVec.extractLsb'_append_eq_of_add_le, BitVec.extractLsb'_append_eq_of_le]
  exact congrArg regOfBits BitVec.extractLsb'_eq_self
@[simp] theorem fieldOpcode_encodeS (imm : BitVec 12) (rs2 rs1 : RegIdx) (f3 : BitVec 3) :
    fieldOpcode (encodeS imm rs2 rs1 f3) = 0x23#7 := by
  change BitVec.extractLsb' 0 7 (imm.extractLsb' 5 7 ++ (bitsOfReg rs2 ++ (bitsOfReg rs1 ++ (f3 ++ (imm.extractLsb' 0 5 ++ 0x23#7))))) = 0x23#7
  simp (disch := decide) only [BitVec.extractLsb'_append_eq_of_add_le]
  exact BitVec.extractLsb'_eq_self
@[simp] theorem fieldFunct3_encodeS (imm : BitVec 12) (rs2 rs1 : RegIdx) (f3 : BitVec 3) :
    fieldFunct3 (encodeS imm rs2 rs1 f3) = f3 := by
  change BitVec.extractLsb' 12 3 (imm.extractLsb' 5 7 ++ (bitsOfReg rs2 ++ (bitsOfReg rs1 ++ (f3 ++ (imm.extractLsb' 0 5 ++ 0x23#7))))) = f3
  simp (disch := decide) only [BitVec.extractLsb'_append_eq_of_add_le, BitVec.extractLsb'_append_eq_of_le]
  exact BitVec.extractLsb'_eq_self
@[simp] theorem fieldRs1_encodeS (imm : BitVec 12) (rs2 rs1 : RegIdx) (f3 : BitVec 3) :
    fieldRs1 (encodeS imm rs2 rs1 f3) = rs1 := by
  change regOfBits (BitVec.extractLsb' 15 5 (imm.extractLsb' 5 7 ++ (bitsOfReg rs2 ++ (bitsOfReg rs1 ++ (f3 ++ (imm.extractLsb' 0 5 ++ 0x23#7)))))) = rs1
  simp (disch := decide) only [BitVec.extractLsb'_append_eq_of_add_le, BitVec.extractLsb'_append_eq_of_le]
  exact congrArg regOfBits BitVec.extractLsb'_eq_self
@[simp] theorem fieldRs2_encodeS (imm : BitVec 12) (rs2 rs1 : RegIdx) (f3 : BitVec 3) :
    fieldRs2 (encodeS imm rs2 rs1 f3) = rs2 := by
  change regOfBits (BitVec.extractLsb' 20 5 (imm.extractLsb' 5 7 ++ (bitsOfReg rs2 ++ (bitsOfReg rs1 ++ (f3 ++ (imm.extractLsb' 0 5 ++ 0x23#7)))))) = rs2
  simp (disch := decide) only [BitVec.extractLsb'_append_eq_of_add_le, BitVec.extractLsb'_append_eq_of_le]
  exact congrArg regOfBits BitVec.extractLsb'_eq_self
@[simp] theorem fieldOpcode_encodeB (offset : BitVec 13) (rs2 rs1 : RegIdx) (f3 : BitVec 3) :
    fieldOpcode (encodeB offset rs2 rs1 f3) = 0x63#7 := by
  change BitVec.extractLsb' 0 7 (offset.extractLsb' 12 1 ++ (offset.extractLsb' 5 6 ++ (bitsOfReg rs2 ++ (bitsOfReg rs1 ++ (f3 ++ (offset.extractLsb' 1 4 ++ (offset.extractLsb' 11 1 ++ 0x63#7))))))) = 0x63#7
  simp (disch := decide) only [BitVec.extractLsb'_append_eq_of_add_le]
  exact BitVec.extractLsb'_eq_self
@[simp] theorem fieldFunct3_encodeB (offset : BitVec 13) (rs2 rs1 : RegIdx) (f3 : BitVec 3) :
    fieldFunct3 (encodeB offset rs2 rs1 f3) = f3 := by
  change BitVec.extractLsb' 12 3 (offset.extractLsb' 12 1 ++ (offset.extractLsb' 5 6 ++ (bitsOfReg rs2 ++ (bitsOfReg rs1 ++ (f3 ++ (offset.extractLsb' 1 4 ++ (offset.extractLsb' 11 1 ++ 0x63#7))))))) = f3
  simp (disch := decide) only [BitVec.extractLsb'_append_eq_of_add_le, BitVec.extractLsb'_append_eq_of_le]
  exact BitVec.extractLsb'_eq_self
@[simp] theorem fieldRs1_encodeB (offset : BitVec 13) (rs2 rs1 : RegIdx) (f3 : BitVec 3) :
    fieldRs1 (encodeB offset rs2 rs1 f3) = rs1 := by
  change regOfBits (BitVec.extractLsb' 15 5 (offset.extractLsb' 12 1 ++ (offset.extractLsb' 5 6 ++ (bitsOfReg rs2 ++ (bitsOfReg rs1 ++ (f3 ++ (offset.extractLsb' 1 4 ++ (offset.extractLsb' 11 1 ++ 0x63#7)))))))) = rs1
  simp (disch := decide) only [BitVec.extractLsb'_append_eq_of_add_le, BitVec.extractLsb'_append_eq_of_le]
  exact congrArg regOfBits BitVec.extractLsb'_eq_self
@[simp] theorem fieldRs2_encodeB (offset : BitVec 13) (rs2 rs1 : RegIdx) (f3 : BitVec 3) :
    fieldRs2 (encodeB offset rs2 rs1 f3) = rs2 := by
  change regOfBits (BitVec.extractLsb' 20 5 (offset.extractLsb' 12 1 ++ (offset.extractLsb' 5 6 ++ (bitsOfReg rs2 ++ (bitsOfReg rs1 ++ (f3 ++ (offset.extractLsb' 1 4 ++ (offset.extractLsb' 11 1 ++ 0x63#7)))))))) = rs2
  simp (disch := decide) only [BitVec.extractLsb'_append_eq_of_add_le, BitVec.extractLsb'_append_eq_of_le]
  exact congrArg regOfBits BitVec.extractLsb'_eq_self
@[simp] theorem fieldOpcode_encodeU (imm : BitVec 20) (rd : RegIdx) (op : BitVec 7) :
    fieldOpcode (encodeU imm rd op) = op := by
  change BitVec.extractLsb' 0 7 (imm ++ (bitsOfReg rd ++ op)) = op
  simp (disch := decide) only [BitVec.extractLsb'_append_eq_of_add_le]
  exact BitVec.extractLsb'_eq_self
@[simp] theorem fieldRd_encodeU (imm : BitVec 20) (rd : RegIdx) (op : BitVec 7) :
    fieldRd (encodeU imm rd op) = rd := by
  change regOfBits (BitVec.extractLsb' 7 5 (imm ++ (bitsOfReg rd ++ op))) = rd
  simp (disch := decide) only [BitVec.extractLsb'_append_eq_of_add_le, BitVec.extractLsb'_append_eq_of_le]
  exact congrArg regOfBits BitVec.extractLsb'_eq_self
@[simp] theorem fieldImmU_encodeU (imm : BitVec 20) (rd : RegIdx) (op : BitVec 7) :
    fieldImmU (encodeU imm rd op) = imm := by
  change BitVec.extractLsb' 12 20 (imm ++ (bitsOfReg rd ++ op)) = imm
  simp (disch := decide) only [BitVec.extractLsb'_append_eq_of_le]
  exact BitVec.extractLsb'_eq_self
@[simp] theorem fieldOpcode_encodeJ (offset : BitVec 21) (rd : RegIdx) :
    fieldOpcode (encodeJ offset rd) = 0x6F#7 := by
  change BitVec.extractLsb' 0 7 (offset.extractLsb' 20 1 ++ (offset.extractLsb' 1 10 ++ (offset.extractLsb' 11 1 ++ (offset.extractLsb' 12 8 ++ (bitsOfReg rd ++ 0x6F#7))))) = 0x6F#7
  simp (disch := decide) only [BitVec.extractLsb'_append_eq_of_add_le]
  exact BitVec.extractLsb'_eq_self
@[simp] theorem fieldRd_encodeJ (offset : BitVec 21) (rd : RegIdx) :
    fieldRd (encodeJ offset rd) = rd := by
  change regOfBits (BitVec.extractLsb' 7 5 (offset.extractLsb' 20 1 ++ (offset.extractLsb' 1 10 ++ (offset.extractLsb' 11 1 ++ (offset.extractLsb' 12 8 ++ (bitsOfReg rd ++ 0x6F#7)))))) = rd
  simp (disch := decide) only [BitVec.extractLsb'_append_eq_of_add_le, BitVec.extractLsb'_append_eq_of_le]
  exact congrArg regOfBits BitVec.extractLsb'_eq_self

@[simp] theorem fieldOpcode_encodeShift (f7 : BitVec 7) (shamt : BitVec 5) (rs1 : RegIdx) (f3 : BitVec 3) (rd : RegIdx) :
    fieldOpcode (encodeShift f7 shamt rs1 f3 rd) = 0x13#7 := fieldOpcode_encodeI _ _ _ _ _
@[simp] theorem fieldFunct3_encodeShift (f7 : BitVec 7) (shamt : BitVec 5) (rs1 : RegIdx) (f3 : BitVec 3) (rd : RegIdx) :
    fieldFunct3 (encodeShift f7 shamt rs1 f3 rd) = f3 := fieldFunct3_encodeI _ _ _ _ _
@[simp] theorem fieldRd_encodeShift (f7 : BitVec 7) (shamt : BitVec 5) (rs1 : RegIdx) (f3 : BitVec 3) (rd : RegIdx) :
    fieldRd (encodeShift f7 shamt rs1 f3 rd) = rd := fieldRd_encodeI _ _ _ _ _
@[simp] theorem fieldRs1_encodeShift (f7 : BitVec 7) (shamt : BitVec 5) (rs1 : RegIdx) (f3 : BitVec 3) (rd : RegIdx) :
    fieldRs1 (encodeShift f7 shamt rs1 f3 rd) = rs1 := fieldRs1_encodeI _ _ _ _ _

/-- The function field of an OP-IMM shift. -/
@[simp] theorem fieldFunct7_encodeShift (f7 : BitVec 7) (shamt : BitVec 5) (rs1 : RegIdx) (f3 : BitVec 3) (rd : RegIdx) :
    fieldFunct7 (encodeShift f7 shamt rs1 f3 rd) = f7 := by
  change BitVec.extractLsb' 25 7 ((f7 ++ shamt) ++ (bitsOfReg rs1 ++ (f3 ++ (bitsOfReg rd ++ 0x13#7)))) = f7
  simp (disch := decide) only [BitVec.extractLsb'_append_eq_of_le]
  exact BitVec.extractLsb'_eq_self

/-- The shift amount of an OP-IMM shift. -/
@[simp] theorem fieldShamt_encodeShift (f7 : BitVec 7) (shamt : BitVec 5) (rs1 : RegIdx) (f3 : BitVec 3) (rd : RegIdx) :
    fieldShamt (encodeShift f7 shamt rs1 f3 rd) = shamt := by
  change BitVec.extractLsb' 20 5 ((f7 ++ shamt) ++ (bitsOfReg rs1 ++ (f3 ++ (bitsOfReg rd ++ 0x13#7)))) = shamt
  simp (disch := decide) only [BitVec.extractLsb'_append_eq_of_add_le, BitVec.extractLsb'_append_eq_of_le]
  exact BitVec.extractLsb'_eq_self

/-- The `fm`, `pred` and `succ` fields of FENCE (R220). -/
theorem fence_fields (fm pred succ : BitVec 4) (rs1 : RegIdx) (f3 : BitVec 3) (rd : RegIdx) (op : BitVec 7) :
    (encodeI (fm ++ (pred ++ succ)) rs1 f3 rd op).extractLsb' 28 4 = fm ∧
    (encodeI (fm ++ (pred ++ succ)) rs1 f3 rd op).extractLsb' 24 4 = pred ∧
    (encodeI (fm ++ (pred ++ succ)) rs1 f3 rd op).extractLsb' 20 4 = succ := by
  change BitVec.extractLsb' 28 4 ((fm ++ (pred ++ succ)) ++ (bitsOfReg rs1 ++ (f3 ++ (bitsOfReg rd ++ op)))) = fm ∧
    BitVec.extractLsb' 24 4 ((fm ++ (pred ++ succ)) ++ (bitsOfReg rs1 ++ (f3 ++ (bitsOfReg rd ++ op)))) = pred ∧
    BitVec.extractLsb' 20 4 ((fm ++ (pred ++ succ)) ++ (bitsOfReg rs1 ++ (f3 ++ (bitsOfReg rd ++ op)))) = succ
  simp (disch := decide) only [BitVec.extractLsb'_append_eq_of_add_le, BitVec.extractLsb'_append_eq_of_le]
  exact ⟨BitVec.extractLsb'_eq_self, BitVec.extractLsb'_eq_self, BitVec.extractLsb'_eq_self⟩

/-- The S immediate comes back whole. -/
@[simp] theorem fieldImmS_encodeS (imm : BitVec 12) (rs2 rs1 : RegIdx) (f3 : BitVec 3) :
    fieldImmS (encodeS imm rs2 rs1 f3) = imm := by
  change BitVec.extractLsb' 25 7 (imm.extractLsb' 5 7 ++ (bitsOfReg rs2 ++ (bitsOfReg rs1 ++ (f3 ++ (imm.extractLsb' 0 5 ++ 0x23#7))))) ++ BitVec.extractLsb' 7 5 (imm.extractLsb' 5 7 ++ (bitsOfReg rs2 ++ (bitsOfReg rs1 ++ (f3 ++ (imm.extractLsb' 0 5 ++ 0x23#7))))) = imm
  simp (disch := decide) only [BitVec.extractLsb'_append_eq_of_add_le, BitVec.extractLsb'_append_eq_of_le]
  apply BitVec.eq_of_getLsbD_eq
  intro i hi
  simp only [BitVec.getLsbD_append, BitVec.getLsbD_extractLsb']
  interval_cases i <;> simp

/-- An even B offset comes back whole (R122). -/
theorem fieldImmB_encodeB (offset : BitVec 13) (rs2 rs1 : RegIdx) (f3 : BitVec 3) (h : offset.getLsbD 0 = false) :
    fieldImmB (encodeB offset rs2 rs1 f3) = offset := by
  change BitVec.extractLsb' 31 1 (offset.extractLsb' 12 1 ++ (offset.extractLsb' 5 6 ++ (bitsOfReg rs2 ++ (bitsOfReg rs1 ++ (f3 ++ (offset.extractLsb' 1 4 ++ (offset.extractLsb' 11 1 ++ 0x63#7))))))) ++ (BitVec.extractLsb' 7 1 (offset.extractLsb' 12 1 ++ (offset.extractLsb' 5 6 ++ (bitsOfReg rs2 ++ (bitsOfReg rs1 ++ (f3 ++ (offset.extractLsb' 1 4 ++ (offset.extractLsb' 11 1 ++ 0x63#7))))))) ++
    (BitVec.extractLsb' 25 6 (offset.extractLsb' 12 1 ++ (offset.extractLsb' 5 6 ++ (bitsOfReg rs2 ++ (bitsOfReg rs1 ++ (f3 ++ (offset.extractLsb' 1 4 ++ (offset.extractLsb' 11 1 ++ 0x63#7))))))) ++ (BitVec.extractLsb' 8 4 (offset.extractLsb' 12 1 ++ (offset.extractLsb' 5 6 ++ (bitsOfReg rs2 ++ (bitsOfReg rs1 ++ (f3 ++ (offset.extractLsb' 1 4 ++ (offset.extractLsb' 11 1 ++ 0x63#7))))))) ++ 0#1))) = offset
  simp (disch := decide) only [BitVec.extractLsb'_append_eq_of_add_le, BitVec.extractLsb'_append_eq_of_le]
  apply BitVec.eq_of_getLsbD_eq
  intro i hi
  simp only [BitVec.getLsbD_append, BitVec.getLsbD_extractLsb']
  interval_cases i <;> simp_all

/-- An even J offset comes back whole (R122). -/
theorem fieldImmJ_encodeJ (offset : BitVec 21) (rd : RegIdx) (h : offset.getLsbD 0 = false) :
    fieldImmJ (encodeJ offset rd) = offset := by
  change BitVec.extractLsb' 31 1 (offset.extractLsb' 20 1 ++ (offset.extractLsb' 1 10 ++ (offset.extractLsb' 11 1 ++ (offset.extractLsb' 12 8 ++ (bitsOfReg rd ++ 0x6F#7))))) ++ (BitVec.extractLsb' 12 8 (offset.extractLsb' 20 1 ++ (offset.extractLsb' 1 10 ++ (offset.extractLsb' 11 1 ++ (offset.extractLsb' 12 8 ++ (bitsOfReg rd ++ 0x6F#7))))) ++
    (BitVec.extractLsb' 20 1 (offset.extractLsb' 20 1 ++ (offset.extractLsb' 1 10 ++ (offset.extractLsb' 11 1 ++ (offset.extractLsb' 12 8 ++ (bitsOfReg rd ++ 0x6F#7))))) ++ (BitVec.extractLsb' 21 10 (offset.extractLsb' 20 1 ++ (offset.extractLsb' 1 10 ++ (offset.extractLsb' 11 1 ++ (offset.extractLsb' 12 8 ++ (bitsOfReg rd ++ 0x6F#7))))) ++ 0#1))) = offset
  simp (disch := decide) only [BitVec.extractLsb'_append_eq_of_add_le, BitVec.extractLsb'_append_eq_of_le]
  apply BitVec.eq_of_getLsbD_eq
  intro i hi
  simp only [BitVec.getLsbD_append, BitVec.getLsbD_extractLsb']
  interval_cases i <;> simp_all

/-! ### A word is made of its fields -/

/-- Every word is its I fields. -/
theorem encodeI_fields (w : Word) : encodeI (fieldImmI w) (fieldRs1 w) (fieldFunct3 w) (fieldRd w) (fieldOpcode w) = w := by
  change w.extractLsb' 20 12 ++ (w.extractLsb' 15 5 ++ (w.extractLsb' 12 3 ++ (w.extractLsb' 7 5 ++ w.extractLsb' 0 7))) = w
  simp (disch := decide) only [BitVec.extractLsb'_append_extractLsb'_eq_extractLsb']
  exact BitVec.extractLsb'_eq_self

/-- Every word is its R fields. -/
theorem encodeR_fields (w : Word) :
    encodeR (fieldFunct7 w) (fieldRs2 w) (fieldRs1 w) (fieldFunct3 w) (fieldRd w) (fieldOpcode w) = w := by
  change w.extractLsb' 25 7 ++ (w.extractLsb' 20 5 ++ (w.extractLsb' 15 5 ++ (w.extractLsb' 12 3 ++
    (w.extractLsb' 7 5 ++ w.extractLsb' 0 7)))) = w
  simp (disch := decide) only [BitVec.extractLsb'_append_extractLsb'_eq_extractLsb']
  exact BitVec.extractLsb'_eq_self

/-- Every word is its U fields. -/
theorem encodeU_fields (w : Word) : encodeU (fieldImmU w) (fieldRd w) (fieldOpcode w) = w := by
  change w.extractLsb' 12 20 ++ (w.extractLsb' 7 5 ++ w.extractLsb' 0 7) = w
  simp (disch := decide) only [BitVec.extractLsb'_append_extractLsb'_eq_extractLsb']
  exact BitVec.extractLsb'_eq_self

/-- The I immediate is a function field and a shift amount (R123). -/
theorem fieldImmI_split (w : Word) : fieldFunct7 w ++ fieldShamt w = fieldImmI w :=
  BitVec.extractLsb'_append_extractLsb'_eq_extractLsb' rfl

/-- The I immediate of FENCE is its three fields (R220). -/
theorem fieldImmI_fence (w : Word) : w.extractLsb' 28 4 ++ (w.extractLsb' 24 4 ++ w.extractLsb' 20 4) = fieldImmI w := by
  simp (disch := decide) only [BitVec.extractLsb'_append_extractLsb'_eq_extractLsb']
  rfl

/-- A STORE word is its S fields. -/
theorem encodeS_fields (w : Word) (h : fieldOpcode w = 0x23#7) :
    encodeS (fieldImmS w) (fieldRs2 w) (fieldRs1 w) (fieldFunct3 w) = w := by
  conv => rhs; rw [← encodeR_fields w, h]
  have h1 : (fieldImmS w).extractLsb' 5 7 = fieldFunct7 w := by
    change BitVec.extractLsb' 5 7 (w.extractLsb' 25 7 ++ w.extractLsb' 7 5) = w.extractLsb' 25 7
    rw [BitVec.extractLsb'_append_eq_of_le (by decide)]; exact BitVec.extractLsb'_eq_self
  have h2 : (fieldImmS w).extractLsb' 0 5 = bitsOfReg (fieldRd w) := by
    change BitVec.extractLsb' 0 5 (w.extractLsb' 25 7 ++ w.extractLsb' 7 5) = w.extractLsb' 7 5
    rw [BitVec.extractLsb'_append_eq_of_add_le (by decide)]; exact BitVec.extractLsb'_eq_self
  simp only [encodeS, encodeR, h1, h2]

/-- A BRANCH word is its B fields. -/
theorem encodeB_fields (w : Word) (h : fieldOpcode w = 0x63#7) :
    encodeB (fieldImmB w) (fieldRs2 w) (fieldRs1 w) (fieldFunct3 w) = w := by
  have cut : ∀ s n, (fieldImmB w).extractLsb' s n =
      BitVec.extractLsb' s n (w.extractLsb' 31 1 ++ (w.extractLsb' 7 1 ++ (w.extractLsb' 25 6 ++ (w.extractLsb' 8 4 ++ 0#1)))) :=
    fun _ _ => rfl
  have h12 : (fieldImmB w).extractLsb' 12 1 = w.extractLsb' 31 1 := by
    rw [cut]; simp (disch := decide) only [BitVec.extractLsb'_append_eq_of_le]; exact BitVec.extractLsb'_eq_self
  have h11 : (fieldImmB w).extractLsb' 11 1 = w.extractLsb' 7 1 := by
    rw [cut]
    simp (disch := decide) only [BitVec.extractLsb'_append_eq_of_add_le, BitVec.extractLsb'_append_eq_of_le]
    exact BitVec.extractLsb'_eq_self
  have h5 : (fieldImmB w).extractLsb' 5 6 = w.extractLsb' 25 6 := by
    rw [cut]
    simp (disch := decide) only [BitVec.extractLsb'_append_eq_of_add_le, BitVec.extractLsb'_append_eq_of_le]
    exact BitVec.extractLsb'_eq_self
  have h1 : (fieldImmB w).extractLsb' 1 4 = w.extractLsb' 8 4 := by
    rw [cut]
    simp (disch := decide) only [BitVec.extractLsb'_append_eq_of_add_le, BitVec.extractLsb'_append_eq_of_le]
    exact BitVec.extractLsb'_eq_self
  simp only [encodeB, h12, h11, h5, h1, ← h]
  change w.extractLsb' 31 1 ++ (w.extractLsb' 25 6 ++ (w.extractLsb' 20 5 ++ (w.extractLsb' 15 5 ++
    (w.extractLsb' 12 3 ++ (w.extractLsb' 8 4 ++ (w.extractLsb' 7 1 ++ w.extractLsb' 0 7)))))) = w
  simp (disch := decide) only [BitVec.extractLsb'_append_extractLsb'_eq_extractLsb']
  exact BitVec.extractLsb'_eq_self

/-- A JAL word is its J fields. -/
theorem encodeJ_fields (w : Word) (h : fieldOpcode w = 0x6F#7) : encodeJ (fieldImmJ w) (fieldRd w) = w := by
  have cut : ∀ s n, (fieldImmJ w).extractLsb' s n =
      BitVec.extractLsb' s n (w.extractLsb' 31 1 ++ (w.extractLsb' 12 8 ++ (w.extractLsb' 20 1 ++ (w.extractLsb' 21 10 ++ 0#1)))) :=
    fun _ _ => rfl
  have h20 : (fieldImmJ w).extractLsb' 20 1 = w.extractLsb' 31 1 := by
    rw [cut]; simp (disch := decide) only [BitVec.extractLsb'_append_eq_of_le]; exact BitVec.extractLsb'_eq_self
  have h12 : (fieldImmJ w).extractLsb' 12 8 = w.extractLsb' 12 8 := by
    rw [cut]
    simp (disch := decide) only [BitVec.extractLsb'_append_eq_of_add_le, BitVec.extractLsb'_append_eq_of_le]
    exact BitVec.extractLsb'_eq_self
  have h11 : (fieldImmJ w).extractLsb' 11 1 = w.extractLsb' 20 1 := by
    rw [cut]
    simp (disch := decide) only [BitVec.extractLsb'_append_eq_of_add_le, BitVec.extractLsb'_append_eq_of_le]
    exact BitVec.extractLsb'_eq_self
  have h1 : (fieldImmJ w).extractLsb' 1 10 = w.extractLsb' 21 10 := by
    rw [cut]
    simp (disch := decide) only [BitVec.extractLsb'_append_eq_of_add_le, BitVec.extractLsb'_append_eq_of_le]
    exact BitVec.extractLsb'_eq_self
  simp only [encodeJ, h20, h12, h11, h1, ← h]
  change w.extractLsb' 31 1 ++ (w.extractLsb' 21 10 ++ (w.extractLsb' 20 1 ++ (w.extractLsb' 12 8 ++
    (w.extractLsb' 7 5 ++ w.extractLsb' 0 7)))) = w
  simp (disch := decide) only [BitVec.extractLsb'_append_extractLsb'_eq_extractLsb']
  exact BitVec.extractLsb'_eq_self

/-- The offset of a BRANCH word is even (R122). -/
theorem fieldImmB_even (w : Word) : (fieldImmB w).getLsbD 0 = false := by
  change (w.extractLsb' 31 1 ++ (w.extractLsb' 7 1 ++ (w.extractLsb' 25 6 ++ (w.extractLsb' 8 4 ++ 0#1)))).getLsbD 0 = false
  simp only [BitVec.getLsbD_append]; simp

/-- The offset of a JAL word is even (R122). -/
theorem fieldImmJ_even (w : Word) : (fieldImmJ w).getLsbD 0 = false := by
  change (w.extractLsb' 31 1 ++ (w.extractLsb' 12 8 ++ (w.extractLsb' 20 1 ++ (w.extractLsb' 21 10 ++ 0#1)))).getLsbD 0 = false
  simp only [BitVec.getLsbD_append]; simp

/-! ### A word from the fields that a decoder's test has fixed -/

theorem encodeI_of {w : Word} {f3 : BitVec 3} {op : BitVec 7} (h3 : fieldFunct3 w = f3) (ho : fieldOpcode w = op) :
    encodeI (fieldImmI w) (fieldRs1 w) f3 (fieldRd w) op = w := by
  subst h3 ho; exact encodeI_fields w

theorem encodeR_of {w : Word} {f3 : BitVec 3} {op f7 : BitVec 7} (h3 : fieldFunct3 w = f3) (ho : fieldOpcode w = op)
    (h7 : fieldFunct7 w = f7) : encodeR f7 (fieldRs2 w) (fieldRs1 w) f3 (fieldRd w) op = w := by
  subst h3 ho h7; exact encodeR_fields w

theorem encodeU_of {w : Word} {op : BitVec 7} (ho : fieldOpcode w = op) : encodeU (fieldImmU w) (fieldRd w) op = w := by
  subst ho; exact encodeU_fields w

theorem encodeS_of {w : Word} {f3 : BitVec 3} (h3 : fieldFunct3 w = f3) (ho : fieldOpcode w = 0x23#7) :
    encodeS (fieldImmS w) (fieldRs2 w) (fieldRs1 w) f3 = w := by
  subst h3; exact encodeS_fields w ho

theorem encodeB_of {w : Word} {f3 : BitVec 3} (h3 : fieldFunct3 w = f3) (ho : fieldOpcode w = 0x63#7) :
    encodeB (fieldImmB w) (fieldRs2 w) (fieldRs1 w) f3 = w := by
  subst h3; exact encodeB_fields w ho

theorem encodeShift_of {w : Word} {f3 : BitVec 3} {f7 : BitVec 7} (h3 : fieldFunct3 w = f3)
    (ho : fieldOpcode w = 0x13#7) (h7 : fieldFunct7 w = f7) :
    encodeShift f7 (fieldShamt w) (fieldRs1 w) f3 (fieldRd w) = w := by
  subst h7; rw [encodeShift, fieldImmI_split]; exact encodeI_of h3 ho

/-- A funct3 that is none of the first seven values is the last. -/
theorem funct3_last (f : BitVec 3) : f ≠ 0#3 → f ≠ 1#3 → f ≠ 2#3 → f ≠ 3#3 → f ≠ 4#3 → f ≠ 5#3 → f ≠ 6#3 → f = 7#3 := by
  have := f.isLt
  simp only [ne_eq, ← BitVec.toNat_inj, BitVec.toNat_ofNat]; omega

/-! ### A word under the masks of the opcode table (R127) -/

theorem mask_funct3 (w : Word) : w &&& 0x0000707F#32 = 0#17 ++ (fieldFunct3 w ++ (0#5 ++ fieldOpcode w)) := by
  apply BitVec.eq_of_getLsbD_eq
  intro i hi
  change _ = (0#17 ++ (w.extractLsb' 12 3 ++ (0#5 ++ w.extractLsb' 0 7))).getLsbD i
  simp only [BitVec.getLsbD_and, BitVec.getLsbD_append, BitVec.getLsbD_extractLsb']
  interval_cases i <;> simp

theorem mask_funct7 (w : Word) :
    w &&& 0xFE00707F#32 = fieldFunct7 w ++ (0#10 ++ (fieldFunct3 w ++ (0#5 ++ fieldOpcode w))) := by
  apply BitVec.eq_of_getLsbD_eq
  intro i hi
  change _ = (w.extractLsb' 25 7 ++ (0#10 ++ (w.extractLsb' 12 3 ++ (0#5 ++ w.extractLsb' 0 7)))).getLsbD i
  simp only [BitVec.getLsbD_and, BitVec.getLsbD_append, BitVec.getLsbD_extractLsb']
  interval_cases i <;> simp

theorem mask_opcode (w : Word) : w &&& 0x0000007F#32 = 0#25 ++ fieldOpcode w := by
  apply BitVec.eq_of_getLsbD_eq
  intro i hi
  change _ = (0#25 ++ w.extractLsb' 0 7).getLsbD i
  simp only [BitVec.getLsbD_and, BitVec.getLsbD_append, BitVec.getLsbD_extractLsb']
  interval_cases i <;> simp

/-- The opcode, funct3 and funct7 of a word that matches a row with a full mask. -/
theorem fields_of_funct7_mask {w v : Word} (h : w &&& 0xFE00707F#32 = v) :
    fieldOpcode w = fieldOpcode v ∧ fieldFunct3 w = fieldFunct3 v ∧ fieldFunct7 w = fieldFunct7 v := by
  subst h
  simp only [fieldOpcode, fieldFunct3, fieldFunct7, BitVec.extractLsb'_and]
  exact ⟨BitVec.and_allOnes.symm, BitVec.and_allOnes.symm, BitVec.and_allOnes.symm⟩

theorem fields_of_funct3_mask {w v : Word} (h : w &&& 0x0000707F#32 = v) :
    fieldOpcode w = fieldOpcode v ∧ fieldFunct3 w = fieldFunct3 v := by
  subst h
  simp only [fieldOpcode, fieldFunct3, BitVec.extractLsb'_and]
  exact ⟨BitVec.and_allOnes.symm, BitVec.and_allOnes.symm⟩

theorem fields_of_opcode_mask {w v : Word} (h : w &&& 0x0000007F#32 = v) : fieldOpcode w = fieldOpcode v := by
  subst h
  simp only [fieldOpcode, BitVec.extractLsb'_and]
  exact BitVec.and_allOnes.symm

/-! ### The byte level (R120) -/

@[simp] theorem wordOfBytes_bytesOfWord (w : Word) :
    wordOfBytes (w.extractLsb' 0 8) (w.extractLsb' 8 8) (w.extractLsb' 16 8) (w.extractLsb' 24 8) = w := by
  change w.extractLsb' 24 8 ++ (w.extractLsb' 16 8 ++ (w.extractLsb' 8 8 ++ w.extractLsb' 0 8)) = w
  simp (disch := decide) only [BitVec.extractLsb'_append_extractLsb'_eq_extractLsb']
  exact BitVec.extractLsb'_eq_self

/-- Decoding the bytes of a word is decoding the word. -/
theorem decode_bytesOfWord (w : Word) (rest : List Byte) :
    decode (bytesOfWord w ++ rest) = match decodeWord w with | .ok i => .ok (i, rest) | .error e => .error e := by
  cases h : decodeWord w <;>
    simp only [decode, bytesOfWord, List.cons_append, List.nil_append, wordOfBytes_bytesOfWord, h]

end Sys2Proof
end

