-- ==== Sys2Proof/Laws/Invariant.lean ====
section
/-! SUPPORT. The pieces of the invariant: what the shared operations, an instruction's meaning and the clock keep. -/

namespace Sys2Proof.Machine

/-- The invariant without the bus: what concerns the hart and memory. -/
structure State.HartInv (h : State) : Prop where
  memCanonical : h.mem.wf = true
  memBounded : ∀ c ∈ h.mem, c.1 < 2 * memDepth h.params
  pcAligned : h.runState = .running → h.pc.toNat % 4 = 0
  latchAgrees : h.faultCode = .unset ↔ h.runState = .running
  zeroStored : h.regs[0] = 0#32
  pendingOnlyAtFetch : h.pending ≠ none → h.hart = .fetchRequest

theorem State.Inv.toHartInv {s : State} (h : s.Inv) : s.HartInv :=
  ⟨h.memCanonical, h.memBounded, h.pcAligned, h.latchAgrees, h.zeroStored, h.pendingOnlyAtFetch⟩

theorem State.HartInv.toInv {s : State} (h : s.HartInv) (hb : s.BusOk) : s.Inv :=
  ⟨h.memCanonical, h.memBounded, h.pcAligned, h.latchAgrees, h.zeroStored, h.pendingOnlyAtFetch, hb⟩

/-- Outside the states that wait for the bus, quiet engines are the bus that the state asks for. -/
theorem busOk_of_quiet {s : State} (hq : s.Quiet) (h1 : s.hart ≠ .fetchWait) (h2 : s.hart ≠ .loadWait)
    (h3 : s.hart ≠ .storeWait false) : s.BusOk := by
  unfold State.BusOk; split <;> simp_all [State.Quiet]

theorem quiet_clocked {s h : State} (hq : s.Quiet) : (s.clocked h none none).Quiet := by
  simp [State.Quiet, State.readAdvance, State.writeAdvance, hq.1, hq.2.2]

/-- A clock cycle performs at most one beat, which keeps memory's form. -/
theorem hartInv_clocked {s h : State} (hp : h.params = s.params) (hh : h.HartInv) (r : Option ReadReq)
    (w : Option WriteReq) : (s.clocked h r w).HartInv := by
  have h2 := two_le_memDepth s.params
  refine ⟨?_, ?_, hh.pcAligned, hh.latchAgrees, hh.zeroStored, hh.pendingOnlyAtFetch⟩
  · simp only [State.clocked]; split
    · exact hh.memCanonical
    · exact wf_applyBeat _ _ _ hh.memCanonical
  · have := hh.memBounded
    simp only [State.clocked] at this ⊢; split
    · exact this
    · rw [hp] at this ⊢; exact bounded_applyBeat (by omega) _ _ this

/-- The register file never changes its entry for x0 (R32). -/
theorem writeFile_zero (regs : Vector Word 32) (i : RegIdx) (v : Word) : (writeFile regs i v)[0] = regs[0] := by
  change (writeFile regs i v)[(0 : RegIdx)] = _
  rw [writeFile_get]; split
  · rename_i h; exact absurd h.1.symm h.2
  · rfl

theorem commit_zero (s : State) : s.commit.regs[0] = s.regs[0] := by
  obtain e | ⟨⟨j, v⟩, e⟩ := Option.eq_none_or_eq_some s.pending
  · simp [State.commit, e]
  · simp only [State.commit, e, writeFile_zero]

theorem raiseTarget_zero (s : State) (l : Option RegIdx) (t : Word) : (s.raiseTarget l t).regs[0] = s.regs[0] := by
  simp only [State.raiseTarget, raiseFault_regs]
  cases l with
  | none => exact commit_zero s
  | some rd =>
    simp only []
    split
    · rw [writeFile_zero, commit_zero]
    · exact commit_zero s

theorem hartInv_commit {s : State} (h : s.HartInv) : s.commit.HartInv :=
  ⟨by simpa using h.memCanonical, by simpa using h.memBounded, by simpa [State.runState] using h.pcAligned,
    by simpa [State.runState] using h.latchAgrees, (commit_zero s).trans h.zeroStored, by simp⟩

/-- Taking a fault (R333, R334) keeps the invariant. -/
theorem hartInv_raiseFault {s : State} (h : s.HartInv) (hp : s.pending = none) {c : FaultCode} (hc : c ≠ .unset)
    (w : Word) : (s.raiseFault c w).HartInv :=
  ⟨h.memCanonical, h.memBounded, by simp [State.runState], by simp [State.runState, hc], h.zeroStored, by simp [hp]⟩

/-- An instruction keeps the invariant. -/
theorem hartInv_exec {i : Instr} {s t : State} (h : s.HartInv) (hr : s.runState = .running)
    (he : exec i s = .next t) : t.HartInv := by
  have hpc := h.pcAligned hr
  have hu := h.latchAgrees.mpr hr
  have h2 := two_le_memDepth s.params
  have hn := aligned4_nextPc hpc
  have hz := (commit_zero s).trans h.zeroStored
  have hm := h.memCanonical
  have hb := h.memBounded
  cases exec_cases he with
  | writes rd v k dest =>
    exact ⟨by simpa using hm, by simpa using hb, by simpa [State.nextPc] using fun _ => hn, by simp [State.runState, hu],
      (congrArg (·[0]) (writeBack_regs _ _ _)).trans ((commit_zero { s with loadDest := dest, loadKind := k }).trans h.zeroStored),
      by simp⟩
  | advances =>
    exact ⟨by simpa using hm, by simpa using hb, by simpa using fun _ => hn, by simp [State.runState, hu], h.zeroStored, by simp⟩
  | stores =>
    exact ⟨by simpa using wf_memWrite _ _ _ _ _ hm, by simpa using bounded_memWrite (by omega) _ _ _ _ hb,
      by simpa using fun _ => hn, by simp [State.runState, hu], h.zeroStored, by simp⟩
  | branches t _ _ _ ha =>
    exact ⟨by simpa using hm, by simpa using hb, by simpa using fun _ => ha, by simp [State.runState, hu], h.zeroStored, by simp⟩
  | jumps rd t _ _ _ ha =>
    exact ⟨by simpa using hm, by simpa using hb, by simpa using fun _ => ha, by simp [State.runState, hu], by simpa using hz,
      by simp⟩
  | misaligned t =>
    exact ⟨by simpa using hm, by simpa using hb, by simp [State.runState], by simp [State.runState],
      (raiseTarget_zero s _ t).trans h.zeroStored, by simp⟩

theorem hartInv_withHart {s : State} (h : s.HartInv) (hr : s.runState = .running) (hp : s.pending = none)
    {st : HartState} (hs : st ≠ .faulted) : ({ s with hart := st } : State).HartInv := by
  have := h.latchAgrees.mpr hr
  exact ⟨h.memCanonical, h.memBounded, fun _ => h.pcAligned hr, by simp [State.runState, hs, this], h.zeroStored, by simp [hp]⟩

/-- External reset (R371) keeps the invariant. -/
theorem inv_externalReset {s : State} (h : s.Inv) : s.externalReset.Inv :=
  State.HartInv.toInv
    ⟨h.memCanonical, h.memBounded, fun _ => by simp [Config.resetPc], by simp [State.runState], h.zeroStored, by simp⟩
    (busOk_of_quiet (by simp [State.Quiet]) (by simp) (by simp) (by simp))

/-- Storing the next instruction's word keeps memory's form. -/
theorem wf_putFetchWord {s : State} (w : Word) (h : s.mem.wf = true) : (s.putFetchWord w).mem.wf = true :=
  wf_memWrite _ _ _ _ _ h

/-! ### The boot image (R373) -/

theorem lookup_bootBytes (k : Nat) (l : List Byte) (j : Nat) :
    (bootBytes k l).lookup j = if k ≤ j then l[j - k]? else none := by
  induction l generalizing k with
  | nil => simp [bootBytes, Memory.lookup]
  | cons b l ih =>
    simp only [bootBytes, Memory.lookup, ih]
    by_cases h : j = k
    · subst h; simp
    · by_cases h2 : k ≤ j
      · have : k + 1 ≤ j := by omega
        simp only [h, h2, this, if_true, if_false]
        rw [show j - k = (j - (k + 1)) + 1 by omega]; simp
      · simp [h, h2]; omega

/-- A byte of boot memory is the image's, or a draw. -/
theorem byte_bootMemory (image : List Byte) (j : Nat) :
    (bootMemory image).byte j = (image[j]?).getD (Config.powerOnByte j) := by
  simp [Memory.byte, bootMemory, lookup_bootBytes, unlistedByte]

theorem risingAbove_bootBytes (k : Nat) (l : List Byte) (lo : Nat) (h : lo < k) :
    (bootBytes k l).risingAbove lo = true := by
  induction l generalizing k lo with
  | nil => rfl
  | cons b l ih => simp [bootBytes, Memory.risingAbove, h, ih (k + 1) k (by omega)]

/-- Boot memory has the canonical form. -/
theorem wf_bootMemory (image : List Byte) : (bootMemory image).wf = true := by
  cases image with
  | nil => rfl
  | cons b l => exact risingAbove_bootBytes 1 l 0 (by omega)

theorem bounded_bootBytes (k : Nat) (l : List Byte) : ∀ c ∈ bootBytes k l, c.1 < k + l.length := by
  induction l generalizing k with
  | nil => simp [bootBytes]
  | cons b l ih =>
    intro c hc
    rcases List.mem_cons.mp hc with rfl | hc
    · simp
    · have := ih _ _ hc
      simp only [List.length_cons]; omega

end Sys2Proof.Machine
end

