-- ==== Sys2Proof/Laws/PerInstr.lean ====
section
/-! SUPPORT. Per-instruction statements. Family `Encoding`: a well-formed instruction's word decodes to it. -/

namespace Sys2Proof.Laws

/-- The word that R121, R122 and R126 give a well-formed instruction decodes to that instruction, with
every operand. -/
def Encoding.Statement (i : Instr) : Prop := WellFormed i → decodeWord (encode i) = .ok i

theorem Encoding.lb (rd rs1 : RegIdx) (imm : BitVec 12) : Encoding.Statement (.lb rd rs1 imm) := by
  intro _; simp [encode, decodeWord, decodeLoad]

theorem Encoding.lh (rd rs1 : RegIdx) (imm : BitVec 12) : Encoding.Statement (.lh rd rs1 imm) := by
  intro _; simp [encode, decodeWord, decodeLoad]

theorem Encoding.lw (rd rs1 : RegIdx) (imm : BitVec 12) : Encoding.Statement (.lw rd rs1 imm) := by
  intro _; simp [encode, decodeWord, decodeLoad]

theorem Encoding.lbu (rd rs1 : RegIdx) (imm : BitVec 12) : Encoding.Statement (.lbu rd rs1 imm) := by
  intro _; simp [encode, decodeWord, decodeLoad]

theorem Encoding.lhu (rd rs1 : RegIdx) (imm : BitVec 12) : Encoding.Statement (.lhu rd rs1 imm) := by
  intro _; simp [encode, decodeWord, decodeLoad]

theorem Encoding.fence (rd rs1 : RegIdx) (fm pred succ : BitVec 4) : Encoding.Statement (.fence rd rs1 fm pred succ) := by
  obtain ⟨h1, h2, h3⟩ := fence_fields fm pred succ rs1 0b000#3 rd 0x0F#7
  intro _; simp [encode, decodeWord, decodeMiscMem, h1, h2, h3]

theorem Encoding.addi (rd rs1 : RegIdx) (imm : BitVec 12) : Encoding.Statement (.addi rd rs1 imm) := by
  intro _; simp [encode, decodeWord, decodeOpImm]

theorem Encoding.slti (rd rs1 : RegIdx) (imm : BitVec 12) : Encoding.Statement (.slti rd rs1 imm) := by
  intro _; simp [encode, decodeWord, decodeOpImm]

theorem Encoding.sltiu (rd rs1 : RegIdx) (imm : BitVec 12) : Encoding.Statement (.sltiu rd rs1 imm) := by
  intro _; simp [encode, decodeWord, decodeOpImm]

theorem Encoding.xori (rd rs1 : RegIdx) (imm : BitVec 12) : Encoding.Statement (.xori rd rs1 imm) := by
  intro _; simp [encode, decodeWord, decodeOpImm]

theorem Encoding.ori (rd rs1 : RegIdx) (imm : BitVec 12) : Encoding.Statement (.ori rd rs1 imm) := by
  intro _; simp [encode, decodeWord, decodeOpImm]

theorem Encoding.andi (rd rs1 : RegIdx) (imm : BitVec 12) : Encoding.Statement (.andi rd rs1 imm) := by
  intro _; simp [encode, decodeWord, decodeOpImm]

theorem Encoding.slli (rd rs1 : RegIdx) (shamt : BitVec 5) : Encoding.Statement (.slli rd rs1 shamt) := by
  intro _; simp [encode, decodeWord, decodeOpImm]

theorem Encoding.srli (rd rs1 : RegIdx) (shamt : BitVec 5) : Encoding.Statement (.srli rd rs1 shamt) := by
  intro _; simp [encode, decodeWord, decodeOpImm]

theorem Encoding.srai (rd rs1 : RegIdx) (shamt : BitVec 5) : Encoding.Statement (.srai rd rs1 shamt) := by
  intro _; simp [encode, decodeWord, decodeOpImm]

theorem Encoding.add (rd rs1 rs2 : RegIdx) : Encoding.Statement (.add rd rs1 rs2) := by
  intro _; simp [encode, decodeWord, decodeOp]

theorem Encoding.sub (rd rs1 rs2 : RegIdx) : Encoding.Statement (.sub rd rs1 rs2) := by
  intro _; simp [encode, decodeWord, decodeOp]

theorem Encoding.sll (rd rs1 rs2 : RegIdx) : Encoding.Statement (.sll rd rs1 rs2) := by
  intro _; simp [encode, decodeWord, decodeOp]

theorem Encoding.slt (rd rs1 rs2 : RegIdx) : Encoding.Statement (.slt rd rs1 rs2) := by
  intro _; simp [encode, decodeWord, decodeOp]

theorem Encoding.sltu (rd rs1 rs2 : RegIdx) : Encoding.Statement (.sltu rd rs1 rs2) := by
  intro _; simp [encode, decodeWord, decodeOp]

theorem Encoding.xor (rd rs1 rs2 : RegIdx) : Encoding.Statement (.xor rd rs1 rs2) := by
  intro _; simp [encode, decodeWord, decodeOp]

theorem Encoding.srl (rd rs1 rs2 : RegIdx) : Encoding.Statement (.srl rd rs1 rs2) := by
  intro _; simp [encode, decodeWord, decodeOp]

theorem Encoding.sra (rd rs1 rs2 : RegIdx) : Encoding.Statement (.sra rd rs1 rs2) := by
  intro _; simp [encode, decodeWord, decodeOp]

theorem Encoding.or (rd rs1 rs2 : RegIdx) : Encoding.Statement (.or rd rs1 rs2) := by
  intro _; simp [encode, decodeWord, decodeOp]

theorem Encoding.and (rd rs1 rs2 : RegIdx) : Encoding.Statement (.and rd rs1 rs2) := by
  intro _; simp [encode, decodeWord, decodeOp]

theorem Encoding.lui (rd : RegIdx) (imm : BitVec 20) : Encoding.Statement (.lui rd imm) := by
  intro _; simp [encode, decodeWord]

theorem Encoding.auipc (rd : RegIdx) (imm : BitVec 20) : Encoding.Statement (.auipc rd imm) := by
  intro _; simp [encode, decodeWord]

theorem Encoding.sb (rs1 rs2 : RegIdx) (imm : BitVec 12) : Encoding.Statement (.sb rs1 rs2 imm) := by
  intro _; simp [encode, decodeWord, decodeStore]

theorem Encoding.sh (rs1 rs2 : RegIdx) (imm : BitVec 12) : Encoding.Statement (.sh rs1 rs2 imm) := by
  intro _; simp [encode, decodeWord, decodeStore]

theorem Encoding.sw (rs1 rs2 : RegIdx) (imm : BitVec 12) : Encoding.Statement (.sw rs1 rs2 imm) := by
  intro _; simp [encode, decodeWord, decodeStore]

theorem Encoding.beq (rs1 rs2 : RegIdx) (offset : BitVec 13) : Encoding.Statement (.beq rs1 rs2 offset) := by
  intro h
  have e := fieldImmB_encodeB offset rs2 rs1
  simp [WellFormed, Instr.wellFormed, branchOffsetOk] at h
  simp [encode, decodeWord, decodeBranch, e, h]

theorem Encoding.bne (rs1 rs2 : RegIdx) (offset : BitVec 13) : Encoding.Statement (.bne rs1 rs2 offset) := by
  intro h
  have e := fieldImmB_encodeB offset rs2 rs1
  simp [WellFormed, Instr.wellFormed, branchOffsetOk] at h
  simp [encode, decodeWord, decodeBranch, e, h]

theorem Encoding.blt (rs1 rs2 : RegIdx) (offset : BitVec 13) : Encoding.Statement (.blt rs1 rs2 offset) := by
  intro h
  have e := fieldImmB_encodeB offset rs2 rs1
  simp [WellFormed, Instr.wellFormed, branchOffsetOk] at h
  simp [encode, decodeWord, decodeBranch, e, h]

theorem Encoding.bge (rs1 rs2 : RegIdx) (offset : BitVec 13) : Encoding.Statement (.bge rs1 rs2 offset) := by
  intro h
  have e := fieldImmB_encodeB offset rs2 rs1
  simp [WellFormed, Instr.wellFormed, branchOffsetOk] at h
  simp [encode, decodeWord, decodeBranch, e, h]

theorem Encoding.bltu (rs1 rs2 : RegIdx) (offset : BitVec 13) : Encoding.Statement (.bltu rs1 rs2 offset) := by
  intro h
  have e := fieldImmB_encodeB offset rs2 rs1
  simp [WellFormed, Instr.wellFormed, branchOffsetOk] at h
  simp [encode, decodeWord, decodeBranch, e, h]

theorem Encoding.bgeu (rs1 rs2 : RegIdx) (offset : BitVec 13) : Encoding.Statement (.bgeu rs1 rs2 offset) := by
  intro h
  have e := fieldImmB_encodeB offset rs2 rs1
  simp [WellFormed, Instr.wellFormed, branchOffsetOk] at h
  simp [encode, decodeWord, decodeBranch, e, h]

theorem Encoding.jal (rd : RegIdx) (offset : BitVec 21) : Encoding.Statement (.jal rd offset) := by
  intro h
  have e := fieldImmJ_encodeJ offset rd
  simp [WellFormed, Instr.wellFormed, jumpOffsetOk] at h
  simp [encode, decodeWord, e, h]

theorem Encoding.jalr (rd rs1 : RegIdx) (imm : BitVec 12) : Encoding.Statement (.jalr rd rs1 imm) := by
  intro _; simp [encode, decodeWord, decodeJalr]

theorem Encoding.ecall : Encoding.Statement (.ecall) := by
  intro _; decide

theorem Encoding.ebreak : Encoding.Statement (.ebreak) := by
  intro _; decide

end Sys2Proof.Laws
end

