-- ==== Sys2Proof/Tests/Slice0.lean ====
section
/-! SUPPORT. Small tests whose expected results are the spec's own examples and vectors
(`41_loads.md` to `48_system.md`, `95_test_vectors.md`), and a witness for the hypotheses of every obligation. -/

namespace Sys2Proof.Tests

open Sys2Proof Sys2Proof.Machine

/-! ### States for the tests -/

/-- 4096 cells, and the UART in the upper half of the address space. -/
def params : Params := ⟨11, [⟨2 ^ 31, 2 ^ 31⟩]⟩

/-- A state at a boundary with given pc, x1, x2, x5 and memory bytes. -/
def at4 (pc x1 x2 x5 : Word) (m : Memory) : State :=
  { State.reset with
    pc := pc
    regs := (((Vector.replicate 32 0#32).set 1 x1).set 2 x2).set 5 x5
    mem := m
    params := params }

/-- Memory whose cells from cell 0 are given, as the vectors of `95_test_vectors.md` list it. -/
def cells : Nat → List CellWord → Memory
  | _, [] => []
  | i, c :: cs => (2 * i, laneLo c) :: (2 * i + 1, laneHi c) :: cells (i + 1) cs

/-- One step on a state with `w` stored where it is fetched. -/
def one (s : State) (w : Word) : Result := step (s.putFetchWord w)

/-- A register of a next state. -/
def regIn (r : Result) (i : RegIdx) : Option Word := match r with
  | .next t => some (t.reg i)
  | .fault _ => none
  | .refused _ => none

/-- The pc of a next state. -/
def pcIn (r : Result) : Option Word := match r with
  | .next t => some t.pc
  | .fault _ => none
  | .refused _ => none

/-- The fault code of a next state. -/
def codeIn (r : Result) : Option FaultCode := match r with
  | .next t => some t.faultCode
  | .fault _ => none
  | .refused _ => none

/-- The latched word of a next state. -/
def latchIn (r : Result) : Option Word := match r with
  | .next t => some t.faultInsn
  | .fault _ => none
  | .refused _ => none

/-- The six bytes from 0x100 of a next state. -/
def bytesIn (r : Result) : Option (List Byte) := match r with
  | .next t => some ((List.range 6).map fun k => t.byteAt (0x100#32 + BitVec.ofNat 32 k))
  | .fault _ => none
  | .refused _ => none

/-- Why a step is refused. -/
def refusalIn (r : Result) : Option Refusal := match r with
  | .next _ => none
  | .fault _ => none
  | .refused x => some x

/-! ### WellFormed (R122): each check refuses an ill-formed term -/

theorem test_wellFormed_refuses_odd_beq : ¬ WellFormed (.beq 1 2 7#13) := by decide

theorem test_wellFormed_refuses_odd_bne : ¬ WellFormed (.bne 1 2 7#13) := by decide

theorem test_wellFormed_refuses_odd_blt : ¬ WellFormed (.blt 1 2 7#13) := by decide

theorem test_wellFormed_refuses_odd_bge : ¬ WellFormed (.bge 1 2 7#13) := by decide

theorem test_wellFormed_refuses_odd_bltu : ¬ WellFormed (.bltu 1 2 7#13) := by decide

theorem test_wellFormed_refuses_odd_bgeu : ¬ WellFormed (.bgeu 1 2 7#13) := by decide

theorem test_wellFormed_refuses_odd_jal : ¬ WellFormed (.jal 1 9#21) := by decide

theorem test_wellFormed_accepts_even : WellFormed (.beq 1 2 8#13) ∧ WellFormed (.jal 1 16#21) := by decide

/-! ### Decoding: each word written out from the spec's layout, fields from bit 31 down -/

/-- imm rs1 funct3 rd opcode: `000000000001 00001 000 00101 0000011` (0x00108283). -/
theorem test_decode_lb : decodeWord 0b00000000000100001000001010000011#32 = .ok (.lb 5 1 1#12) := by decide

/-- imm rs1 funct3 rd opcode: `000000000001 00001 001 00101 0000011` (0x00109283). -/
theorem test_decode_lh : decodeWord 0b00000000000100001001001010000011#32 = .ok (.lh 5 1 1#12) := by decide

/-- imm rs1 funct3 rd opcode: `000000000000 00001 010 00101 0000011` (0x0000A283). -/
theorem test_decode_lw : decodeWord 0b00000000000000001010001010000011#32 = .ok (.lw 5 1 0#12) := by decide

/-- imm rs1 funct3 rd opcode: `000000000001 00001 100 00101 0000011` (0x0010C283). -/
theorem test_decode_lbu : decodeWord 0b00000000000100001100001010000011#32 = .ok (.lbu 5 1 1#12) := by decide

/-- imm rs1 funct3 rd opcode: `000000000001 00001 101 00101 0000011` (0x0010D283). -/
theorem test_decode_lhu : decodeWord 0b00000000000100001101001010000011#32 = .ok (.lhu 5 1 1#12) := by decide

/-- fm pred succ rs1 funct3 rd opcode: `0000 1111 1111 00000 000 00000 0001111` (0x0FF0000F). -/
theorem test_decode_fence : decodeWord 0b00001111111100000000000000001111#32 = .ok (.fence 0 0 0#4 15#4 15#4) := by decide

/-- imm rs1 funct3 rd opcode: `111111111111 00001 000 00101 0010011` (0xFFF08293). -/
theorem test_decode_addi : decodeWord 0b11111111111100001000001010010011#32 = .ok (.addi 5 1 0xFFF#12) := by decide

/-- imm rs1 funct3 rd opcode: `111111111111 00001 010 00101 0010011` (0xFFF0A293). -/
theorem test_decode_slti : decodeWord 0b11111111111100001010001010010011#32 = .ok (.slti 5 1 0xFFF#12) := by decide

/-- imm rs1 funct3 rd opcode: `111111111111 00001 011 00101 0010011` (0xFFF0B293). -/
theorem test_decode_sltiu : decodeWord 0b11111111111100001011001010010011#32 = .ok (.sltiu 5 1 0xFFF#12) := by decide

/-- imm rs1 funct3 rd opcode: `111111111111 00001 100 00101 0010011` (0xFFF0C293). -/
theorem test_decode_xori : decodeWord 0b11111111111100001100001010010011#32 = .ok (.xori 5 1 0xFFF#12) := by decide

/-- imm rs1 funct3 rd opcode: `000011110000 00001 110 00101 0010011` (0x0F00E293). -/
theorem test_decode_ori : decodeWord 0b00001111000000001110001010010011#32 = .ok (.ori 5 1 0x0F0#12) := by decide

/-- imm rs1 funct3 rd opcode: `000011111111 00001 111 00101 0010011` (0x0FF0F293). -/
theorem test_decode_andi : decodeWord 0b00001111111100001111001010010011#32 = .ok (.andi 5 1 0x0FF#12) := by decide

/-- funct7 shamt rs1 funct3 rd opcode: `0000000 00100 00001 001 00101 0010011` (0x00409293). -/
theorem test_decode_slli : decodeWord 0b00000000010000001001001010010011#32 = .ok (.slli 5 1 4#5) := by decide

/-- funct7 shamt rs1 funct3 rd opcode: `0000000 00100 00001 101 00101 0010011` (0x0040D293). -/
theorem test_decode_srli : decodeWord 0b00000000010000001101001010010011#32 = .ok (.srli 5 1 4#5) := by decide

/-- funct7 shamt rs1 funct3 rd opcode: `0100000 00100 00001 101 00101 0010011` (0x4040D293). -/
theorem test_decode_srai : decodeWord 0b01000000010000001101001010010011#32 = .ok (.srai 5 1 4#5) := by decide

/-- funct7 rs2 rs1 funct3 rd opcode: `0000000 00010 00001 000 00101 0110011` (0x002082B3). -/
theorem test_decode_add : decodeWord 0b00000000001000001000001010110011#32 = .ok (.add 5 1 2) := by decide

/-- funct7 rs2 rs1 funct3 rd opcode: `0100000 00010 00001 000 00101 0110011` (0x402082B3). -/
theorem test_decode_sub : decodeWord 0b01000000001000001000001010110011#32 = .ok (.sub 5 1 2) := by decide

/-- funct7 rs2 rs1 funct3 rd opcode: `0000000 00010 00001 001 00101 0110011` (0x002092B3). -/
theorem test_decode_sll : decodeWord 0b00000000001000001001001010110011#32 = .ok (.sll 5 1 2) := by decide

/-- funct7 rs2 rs1 funct3 rd opcode: `0000000 00010 00001 010 00101 0110011` (0x0020A2B3). -/
theorem test_decode_slt : decodeWord 0b00000000001000001010001010110011#32 = .ok (.slt 5 1 2) := by decide

/-- funct7 rs2 rs1 funct3 rd opcode: `0000000 00010 00001 011 00101 0110011` (0x0020B2B3). -/
theorem test_decode_sltu : decodeWord 0b00000000001000001011001010110011#32 = .ok (.sltu 5 1 2) := by decide

/-- funct7 rs2 rs1 funct3 rd opcode: `0000000 00010 00001 100 00101 0110011` (0x0020C2B3). -/
theorem test_decode_xor : decodeWord 0b00000000001000001100001010110011#32 = .ok (.xor 5 1 2) := by decide

/-- funct7 rs2 rs1 funct3 rd opcode: `0000000 00010 00001 101 00101 0110011` (0x0020D2B3). -/
theorem test_decode_srl : decodeWord 0b00000000001000001101001010110011#32 = .ok (.srl 5 1 2) := by decide

/-- funct7 rs2 rs1 funct3 rd opcode: `0100000 00010 00001 101 00101 0110011` (0x4020D2B3). -/
theorem test_decode_sra : decodeWord 0b01000000001000001101001010110011#32 = .ok (.sra 5 1 2) := by decide

/-- funct7 rs2 rs1 funct3 rd opcode: `0000000 00010 00001 110 00101 0110011` (0x0020E2B3). -/
theorem test_decode_or : decodeWord 0b00000000001000001110001010110011#32 = .ok (.or 5 1 2) := by decide

/-- funct7 rs2 rs1 funct3 rd opcode: `0000000 00010 00001 111 00101 0110011` (0x0020F2B3). -/
theorem test_decode_and : decodeWord 0b00000000001000001111001010110011#32 = .ok (.and 5 1 2) := by decide

/-- imm rd opcode: `00010010001101000101 00101 0110111` (0x123452B7). -/
theorem test_decode_lui : decodeWord 0b00010010001101000101001010110111#32 = .ok (.lui 5 0x12345#20) := by decide

/-- imm rd opcode: `00010010001101000101 00101 0010111` (0x12345297). -/
theorem test_decode_auipc : decodeWord 0b00010010001101000101001010010111#32 = .ok (.auipc 5 0x12345#20) := by decide

/-- imm[11:5] rs2 rs1 funct3 imm[4:0] opcode: `0000000 00010 00001 000 00001 0100011` (0x002080A3). -/
theorem test_decode_sb : decodeWord 0b00000000001000001000000010100011#32 = .ok (.sb 1 2 1#12) := by decide

/-- imm[11:5] rs2 rs1 funct3 imm[4:0] opcode: `0000000 00010 00001 001 00001 0100011` (0x002090A3). -/
theorem test_decode_sh : decodeWord 0b00000000001000001001000010100011#32 = .ok (.sh 1 2 1#12) := by decide

/-- imm[11:5] rs2 rs1 funct3 imm[4:0] opcode: `0000000 00010 00001 010 00001 0100011` (0x0020A0A3). -/
theorem test_decode_sw : decodeWord 0b00000000001000001010000010100011#32 = .ok (.sw 1 2 1#12) := by decide

/-- imm[12] imm[10:5] rs2 rs1 funct3 imm[4:1] imm[11] opcode: `0 000000 00010 00001 000 0100 0 1100011` (0x00208463). -/
theorem test_decode_beq : decodeWord 0b00000000001000001000010001100011#32 = .ok (.beq 1 2 8#13) := by decide

/-- imm[12] imm[10:5] rs2 rs1 funct3 imm[4:1] imm[11] opcode: `0 000000 00010 00001 100 0100 0 1100011` (0x0020C463). -/
theorem test_decode_blt : decodeWord 0b00000000001000001100010001100011#32 = .ok (.blt 1 2 8#13) := by decide

/-- imm[12] imm[10:5] rs2 rs1 funct3 imm[4:1] imm[11] opcode: `0 000000 00010 00001 101 0100 0 1100011` (0x0020D463). -/
theorem test_decode_bge : decodeWord 0b00000000001000001101010001100011#32 = .ok (.bge 1 2 8#13) := by decide

/-- imm[12] imm[10:5] rs2 rs1 funct3 imm[4:1] imm[11] opcode: `0 000000 00010 00001 110 0100 0 1100011` (0x0020E463). -/
theorem test_decode_bltu : decodeWord 0b00000000001000001110010001100011#32 = .ok (.bltu 1 2 8#13) := by decide

/-- imm[12] imm[10:5] rs2 rs1 funct3 imm[4:1] imm[11] opcode: `0 000000 00010 00001 111 0100 0 1100011` (0x0020F463). -/
theorem test_decode_bgeu : decodeWord 0b00000000001000001111010001100011#32 = .ok (.bgeu 1 2 8#13) := by decide

/-- imm[12] imm[10:5] rs2 rs1 funct3 imm[4:1] imm[11] opcode: `1 111111 00010 00001 001 1100 1 1100011` (0xFE209CE3). -/
theorem test_decode_bne : decodeWord 0b11111110001000001001110011100011#32 = .ok (.bne 1 2 0x1FF8#13) := by decide

/-- imm[20] imm[10:1] imm[11] imm[19:12] rd opcode: `1 1111111100 1 11111111 00001 1101111` (0xFF9FF0EF). -/
theorem test_decode_jal : decodeWord 0b11111111100111111111000011101111#32 = .ok (.jal 1 0x1FFFF8#21) := by decide

/-- imm rs1 funct3 rd opcode: `111111111100 00101 000 00000 1100111` (0xFFC28067). -/
theorem test_decode_jalr : decodeWord 0b11111111110000101000000001100111#32 = .ok (.jalr 0 5 0xFFC#12) := by decide

/-- funct12 rs1 funct3 rd opcode: `000000000000 00000 000 00000 1110011` (0x00000073). -/
theorem test_decode_ecall : decodeWord 0b00000000000000000000000001110011#32 = .ok (.ecall) := by decide

/-- funct12 rs1 funct3 rd opcode: `000000000001 00000 000 00000 1110011` (0x00100073). -/
theorem test_decode_ebreak : decodeWord 0b00000000000100000000000001110011#32 = .ok (.ebreak) := by decide

/-- The words that T3 to T10 of `95_test_vectors.md` call illegal. -/
def illegalWords : List Word :=
  [0x0000B283#32, 0x0020B0A3#32, 0x022082B3#32, 0x402092B3#32, 0x4000A2B3#32, 0x0200D293#32, 0x40009293#32, 0x0020A463#32,
   0x000290E7#32, 0x0000100F#32, 0x00200073#32, 0x30200073#32, 0x10500073#32, 0xC00022F3#32, 0xC0001073#32, 0x000000F3#32,
   0x0000000B#32, 0x00000001#32, 0x0000202F#32, 0x00002007#32, 0x00000000#32, 0xFFFFFFFF#32]

theorem test_illegal_words : illegalWords.all (fun w => match decodeWord w with | .ok _ => false | .error _ => true) = true := by
  decide

/-- R120: the byte at the lowest address is the word's low byte, and the rest is handed back. -/
theorem test_decode_bytes : decode [0x93#8, 0x82#8, 0xF0#8, 0xFF#8, 0x01#8] = .ok (.addi 5 1 0xFFF#12, [0x01#8]) := by decide

theorem test_decodeTableWord : decodeTableWord 32 0x00300093 = some (.addi 1 0 3#12) := by decide

/-! ### The cell memory: V1 to V7 on two cells, T1 and T2 on four -/

theorem test_V1 : memRead 2 (cells 0 [0x1234#16, 0xABCD#16]) .byte 0#32 = 0x34#32 := by decide

theorem test_V2 : memRead 2 (cells 0 [0x1234#16, 0xABCD#16]) .byte 1#32 = 0x12#32 := by decide

theorem test_V3 : memRead 2 (cells 0 [0x1234#16, 0xABCD#16]) .half 0#32 = 0x1234#32 := by decide

theorem test_V4 : memRead 2 (cells 0 [0x1234#16, 0xABCD#16]) .half 1#32 = 0xCD12#32 := by decide

theorem test_V5 : memRead 2 (cells 0 [0x1234#16, 0xABCD#16]) .word 0#32 = 0xABCD1234#32 := by decide

theorem test_V6 : memRead 2 (cells 0 [0x1234#16, 0xABCD#16]) .word 1#32 = 0x34ABCD12#32 := by decide

theorem test_V7 : memWrite 2 (cells 0 [0xABCD#16, 0xEFFE#16]) .half 3#32 0x12345678#32 = cells 0 [0xAB56#16, 0x78FE#16] := by
  decide

/-- T1: a word at 7 of eight bytes wraps to address 0. -/
theorem test_T1_wrap : memRead 4 (cells 0 [0x1234#16, 0xABCD#16, 0x5678#16, 0x9EF0#16]) .word 7#32 = 0xCD12349E#32 := by decide

/-- T1: address 0xFFFFFFFF aliases address 7. -/
theorem test_T1_alias : memRead 4 (cells 0 [0x1234#16, 0xABCD#16, 0x5678#16, 0x9EF0#16]) .byte 0xFFFFFFFF#32 = 0x9E#32 := by
  decide

/-- T2: a word at 7 writes cells 3, 0 and 1. -/
theorem test_T2_wrap : memWrite 4 (cells 0 [0xAAAA#16, 0xBBBB#16, 0xCCCC#16, 0xDDDD#16]) .word 7#32 0x12345678#32 =
    cells 0 [0x3456#16, 0xBB12#16, 0xCCCC#16, 0x78DD#16] := by decide

/-- T2: an unaligned word at 3. -/
theorem test_T2_unaligned : memWrite 4 (cells 0 [0xAAAA#16, 0xBBBB#16, 0xCCCC#16, 0xDDDD#16]) .word 3#32 0x12345678#32 =
    cells 0 [0xAAAA#16, 0x78BB#16, 0x3456#16, 0xDD12#16] := by decide

/-! ### One step of each instruction, from the spec's examples -/

/-- T3: bytes 0x100 to 0x104 are 80 12 CD AB 7F, `x1` is 0x100. -/
def loads : State := at4 0#32 0x100#32 0#32 0#32 (cells 0x80 [0x1280#16, 0xABCD#16, 0x007F#16])

theorem test_lb : regIn (one loads 0x00008283#32) 5 = some 0xFFFFFF80#32 := by decide

theorem test_lbu : regIn (one loads 0x0000C283#32) 5 = some 0x00000080#32 := by decide

theorem test_lh_odd : regIn (one loads 0x00109283#32) 5 = some 0xFFFFCD12#32 := by decide

theorem test_lhu : regIn (one loads 0x0020D283#32) 5 = some 0x0000ABCD#32 := by decide

theorem test_lw_odd : regIn (one loads 0x0010A283#32) 5 = some 0x7FABCD12#32 := by decide

theorem test_lw_rd_is_rs1 : regIn (one loads 0x0000A083#32) 1 = some 0xABCD1280#32 := by decide

/-- R220: `fence` with rd = x5 writes no register. -/
theorem test_fence : pcIn (one (at4 0x20#32 0#32 0#32 7#32 []) 0x0000028F#32) = some 0x24#32 ∧
    regIn (one (at4 0x20#32 0#32 0#32 7#32 []) 0x0000028F#32) 5 = some 7#32 := by decide

/-- The state of the examples of `43_alu.md`: `x1` is 0x80000001, `x2` as each gives it. -/
def alu (x2 : Word) : State := at4 0#32 0x80000001#32 x2 0#32 []

theorem test_addi : regIn (one (alu 0#32) 0xFFF08293#32) 5 = some 0x80000000#32 := by decide

theorem test_slti : regIn (one (alu 0#32) 0xFFF0A293#32) 5 = some 0x00000001#32 := by decide

theorem test_sltiu : regIn (one (alu 0#32) 0xFFF0B293#32) 5 = some 0x00000001#32 := by decide

theorem test_xori : regIn (one (alu 0#32) 0xFFF0C293#32) 5 = some 0x7FFFFFFE#32 := by decide

theorem test_ori : regIn (one (alu 0#32) 0x0F00E293#32) 5 = some 0x800000F1#32 := by decide

theorem test_andi : regIn (one (alu 0#32) 0x0FF0F293#32) 5 = some 0x00000001#32 := by decide

theorem test_slli : regIn (one (alu 0#32) 0x00409293#32) 5 = some 0x00000010#32 := by decide

theorem test_srli : regIn (one (alu 0#32) 0x0040D293#32) 5 = some 0x08000000#32 := by decide

theorem test_srai : regIn (one (alu 0#32) 0x4040D293#32) 5 = some 0xF8000000#32 := by decide

theorem test_add : regIn (one (alu 0xFFFFFFFF#32) 0x002082B3#32) 5 = some 0x80000000#32 := by decide

theorem test_sub : regIn (one (alu 0x2#32) 0x402082B3#32) 5 = some 0x7FFFFFFF#32 := by decide

theorem test_sll : regIn (one (alu 0x24#32) 0x002092B3#32) 5 = some 0x00000010#32 := by decide

theorem test_slt : regIn (one (alu 0xFFFFFFFF#32) 0x0020A2B3#32) 5 = some 0x00000001#32 := by decide

theorem test_sltu : regIn (one (alu 0xFFFFFFFF#32) 0x0020B2B3#32) 5 = some 0x00000001#32 := by decide

theorem test_xor : regIn (one (alu 0xFFFFFFFF#32) 0x0020C2B3#32) 5 = some 0x7FFFFFFE#32 := by decide

theorem test_srl : regIn (one (alu 0x4#32) 0x0020D2B3#32) 5 = some 0x08000000#32 := by decide

theorem test_sra : regIn (one (alu 0x4#32) 0x4020D2B3#32) 5 = some 0xF8000000#32 := by decide

theorem test_or : regIn (one (alu 0xF0#32) 0x0020E2B3#32) 5 = some 0x800000F1#32 := by decide

theorem test_and : regIn (one (alu 0xFF#32) 0x0020F2B3#32) 5 = some 0x00000001#32 := by decide

/-- R32: a write to x0 is discarded. -/
theorem test_addi_x0 : regIn (one (alu 0#32) 0x00508013#32) 0 = some 0#32 := by decide

theorem test_lui : regIn (one (at4 0x10#32 0#32 0#32 0#32 []) 0xFFFFF2B7#32) 5 = some 0xFFFFF000#32 := by decide

theorem test_auipc : regIn (one (at4 0x10#32 0#32 0#32 0#32 []) 0xFFFFF297#32) 5 = some 0xFFFFF010#32 := by decide

/-- T4: bytes 0x100 to 0x105 are EE, `x1` is 0x100, `x2` is 0x12345678. -/
def stores : State := at4 0#32 0x100#32 0x12345678#32 0#32 (cells 0x80 [0xEEEE#16, 0xEEEE#16, 0xEEEE#16])

theorem test_sb : bytesIn (one stores 0x002080A3#32) = some [0xEE#8, 0x78#8, 0xEE#8, 0xEE#8, 0xEE#8, 0xEE#8] := by decide

theorem test_sh : bytesIn (one stores 0x002090A3#32) = some [0xEE#8, 0x78#8, 0x56#8, 0xEE#8, 0xEE#8, 0xEE#8] := by decide

theorem test_sw : bytesIn (one stores 0x0020A123#32) = some [0xEE#8, 0xEE#8, 0x78#8, 0x56#8, 0x34#8, 0x12#8] := by decide

theorem test_sw_odd : bytesIn (one stores 0x0020A0A3#32) = some [0xEE#8, 0x78#8, 0x56#8, 0x34#8, 0x12#8, 0xEE#8] := by decide

/-- T7: pc is 0x100. -/
def branch (x1 x2 : Word) : State := at4 0x100#32 x1 x2 0#32 []

theorem test_beq_not_taken : pcIn (one (branch 0xFFFFFFFF#32 1#32) 0x00208463#32) = some 0x104#32 := by decide

theorem test_beq_taken : pcIn (one (branch 0x1#32 1#32) 0x00208463#32) = some 0x108#32 := by decide

theorem test_bne : pcIn (one (branch 0xFFFFFFFF#32 1#32) 0xFE209CE3#32) = some 0xF8#32 := by decide

theorem test_blt : pcIn (one (branch 0xFFFFFFFF#32 1#32) 0x0020C463#32) = some 0x108#32 := by decide

theorem test_bge_not_taken : pcIn (one (branch 0xFFFFFFFF#32 1#32) 0x0020D463#32) = some 0x104#32 := by decide

theorem test_bge_equal : pcIn (one (branch 0x1#32 1#32) 0x0020D463#32) = some 0x108#32 := by decide

theorem test_bltu : pcIn (one (branch 0xFFFFFFFF#32 1#32) 0x0020E463#32) = some 0x104#32 := by decide

theorem test_bgeu : pcIn (one (branch 0xFFFFFFFF#32 1#32) 0x0020F463#32) = some 0x108#32 := by decide

/-- R297: a misaligned target faults only if the branch is taken. -/
theorem test_branch_misaligned : codeIn (one (branch 1#32 1#32) 0x00208363#32) = some .pcMisaligned ∧
    codeIn (one (branch 2#32 1#32) 0x00208363#32) = some .unset := by decide

/-- T8: pc is 0x100, `x5` is 0x200. -/
def jump : State := at4 0x100#32 0x300#32 0#32 0x200#32 []

theorem test_jal : regIn (one jump 0xFF9FF0EF#32) 1 = some 0x104#32 ∧ pcIn (one jump 0xFF9FF0EF#32) = some 0xF8#32 := by
  decide

theorem test_jalr_odd_sum : regIn (one jump 0x001280E7#32) 1 = some 0x104#32 ∧ pcIn (one jump 0x001280E7#32) = some 0x200#32 := by
  decide

theorem test_jalr_rd_is_rs1 : regIn (one jump 0x000080E7#32) 1 = some 0x104#32 ∧ pcIn (one jump 0x000080E7#32) = some 0x300#32 := by
  decide

theorem test_jump_misaligned : codeIn (one jump 0x002000EF#32) = some .pcMisaligned ∧
    codeIn (one jump 0x002280E7#32) = some .pcMisaligned := by decide

/-- R320, R321: x1 is written and pc advances; the values are OPEN. -/
theorem test_ecall : regIn (one jump 0x00000073#32) 1 = some Config.ecallX1 ∧ pcIn (one jump 0x00000073#32) = some 0x104#32 :=
  ⟨rfl, by decide⟩

theorem test_ebreak : regIn (one jump 0x00100073#32) 1 = some Config.ebreakX1 ∧ pcIn (one jump 0x00100073#32) = some 0x104#32 :=
  ⟨rfl, by decide⟩

/-! ### Faults, refusals and reset -/

/-- V11: both sentinel words. -/
theorem test_V11 : latchIn (one (alu 0#32) 0x00000000#32) = some 0x00000000#32 ∧ codeIn (one (alu 0#32) 0x00000000#32) = some .illegalInstruction ∧
    latchIn (one (alu 0#32) 0xFFFFFFFF#32) = some 0xFFFFFFFF#32 := by decide

/-- T3: an illegal word is latched and pc stays. -/
theorem test_illegal_latched : latchIn (one loads 0x0000B283#32) = some 0x0000B283#32 ∧ pcIn (one loads 0x0000B283#32) = some 0#32 := by
  decide

/-- R334: a misaligned fetch latches the pc. -/
theorem test_fetch_misaligned : latchIn (step (at4 0x102#32 0#32 0#32 0#32 [])) = some 0x102#32 := by decide

/-- R65: a load whose last byte is in the UART region is refused. -/
theorem test_uart_load : refusalIn (one (at4 0#32 0x7FFFFFFD#32 0#32 0#32 []) 0x0000A283#32) = some (.uartAccess .load 0x7FFFFFFD#32) := by
  decide

theorem test_withFetchWord : regIn (step (State.reset.withFetchWord 32 0x00300093)) 1 = some 3#32 := by decide

/-- V9, second instruction: the pending write of the first is applied (R377). -/
theorem test_pending_applied : regIn (one { alu 0#32 with pending := some (1, 3#32) } 0x00508113#32) 2 = some 8#32 := by decide

/-- R346: the debug surface merges a pending write. -/
theorem test_debug : ({ alu 0#32 with pending := some (1, 3#32) } : State).debugView.regs[(1 : RegIdx)] = 3#32 := by decide

/-- R78: between the two beats of a SW the debug surface shows the first cell new and the second old. -/
theorem test_debug_between_beats :
    ((let v := ({ stores with writeEngine := .word ⟨0x102#32, .word, 0x12345678#32⟩, hart := .storeWait true
                              mem := cells 0x80 [0xEEEE#16, 0x5678#16, 0xEEEE#16] } : State).debugView
      (v.cell 0x81, v.cell 0x82)) : CellWord × CellWord) = (0x5678#16, 0xEEEE#16) := by decide

/-- R76, R78: the next cycle performs the second beat, and the surface shows it. -/
theorem test_debug_after_beat :
    (match cycle { stores with writeEngine := .word ⟨0x102#32, .word, 0x12345678#32⟩, hart := .storeWait true } with
      | .next t => some (t.debugView.cell 0x82)
      | .fault _ => none
      | .refused _ => none) = some 0x1234#16 := by decide

/-- R373: an odd image's last byte is in the low lane. -/
theorem test_boot : (State.powerOn (Vector.replicate 32 7#32) [0x93#8, 0x00#8, 0x30#8] params).byteAt 2#32 = 0x30#8 := by decide

/-- D19: the first cycle of a fetch presents the read. -/
theorem test_cycle : (match cycle (alu 0#32) with | .next t => t.hart | .fault _ => .faulted | .refused _ => .faulted) = .fetchWait := by
  decide

/-! ### Witnesses: the hypotheses of each obligation, met by concrete values -/

/-- At a boundary, with `addi x5, x1, -1` at pc. -/
def ready : State := (alu 2#32).putFetchWord 0xFFF08293#32

/-- At a boundary, with `sw x2, 1(x1)` at pc. -/
def readyStore : State := stores.putFetchWord 0x0020A0A3#32

/-- At a boundary, with a halt sentinel at pc. -/
def readyHalt (w : Word) : State := (alu 2#32).putFetchWord w

/-- FAULTED, as a sentinel leaves it. -/
def halted : State := (alu 2#32).raiseFault .illegalInstruction 0#32

/-- The next state of an outcome, or the given one. -/
def nextOr (s : State) (r : Result) : State := match r with
  | .next t => t
  | .fault _ => s
  | .refused _ => s

theorem witness_DecodeOfEncodeIsTheInstruction : WellFormed (.beq 1 2 0xFFE#13) ∧ WellFormed (.jal 1 0xFFFFE#21) := by decide

theorem witness_EncodeOfDecodeIsTheWord : decodeWord 0xFE209CE3#32 = .ok (.bne 1 2 0x1FF8#13) := by decide

/-- Every row of the table is matched, by its own match word. -/
theorem witness_DecoderFollowsTheOpcodeTable : opcodeTable.all (fun r => r.matches r.matchBits) = true := by decide

/-- The row of LB, with register fields 5, 1 and 1; the other rows' clauses are met by the words of
`witness_DecoderFollowsTheOpcodeTable`. -/
theorem witness_EveryRowDecodesToItsFields : (5 : RegIdx).val = (0x00108283#32).toNat / 2 ^ 7 % 32 ∧
    (1 : RegIdx).val = (0x00108283#32).toNat / 2 ^ 15 % 32 ∧ (1 : RegIdx).val = (0x00108283#32).toNat / 2 ^ 20 % 32 ∧
    0x00108283#32 &&& 0x0000707F#32 = 0x00000003#32 := by decide

/-- Where the clauses about `imm_B` meet: bits 0, 4, 5, 10, 11, 12 and 31 of an offset with only `insn[7]` set. -/
theorem witness_ImmediatesAreTheNamedBits :
    ([0, 4, 5, 10, 11, 12, 31].map fun k => (sextBranch (fieldImmB 0x00000080#32)).getLsbD k) =
      [false, false, false, false, true, false, false] := by decide

theorem witness_ShortAndSentinelWordsAreIllegal :
    (0x00000001#32).extractLsb' 0 2 ≠ 0b11#2 ∧ ([0x13#8, 0x00#8, 0x00#8] : List Byte).length < 4 := by decide

/-- Two addresses of one byte, the lower half and the upper half of an aliased memory. -/
theorem witness_ByteIsItsLaneOfItsCell : (7#32).toNat % (2 * memDepth params) = (8199#32).toNat % (2 * memDepth params) := by
  decide

/-- The last byte of each width, and the first bit above it. -/
theorem witness_ReadAssemblesBytesLittleEndian :
    0 < widthBytes .byte ∧ 1 < widthBytes .half ∧ 3 < widthBytes .word ∧ 8 * widthBytes .byte ≤ 8 := by decide

/-- A masked lane and an unmasked lane of one cell. -/
theorem witness_BeatWritesMaskedLanes :
    cellAt 4 (applyBeat 4 (cells 0 [0xAAAA#16, 0xBBBB#16]) ⟨5, true, false, 0x7878#16⟩) 1 = 0xBB78#16 := by decide

/-- A byte that is not one of the bytes written, although it lies in the last cell of the write. -/
theorem witness_WriteStoresConsecutiveBytes : ∀ k < 4,
    (2#32).toNat % (2 * memDepth params) ≠ (0x1FFE#32 + BitVec.ofNat 32 k).toNat % (2 * memDepth params) := by decide

/-- An odd image: one whole cell and a trailing byte. -/
theorem witness_BootImageLiesAtItsAddresses : ([1#8, 2#8, 3#8] : List Byte).length ≤ 2 * memDepth params ∧
    2 < ([1#8, 2#8, 3#8] : List Byte).length ∧ 2 * 0 + 1 < ([1#8, 2#8, 3#8] : List Byte).length ∧
    ([1#8, 2#8, 3#8] : List Byte).length = 2 * 1 + 1 := by decide

theorem ready_clear : ClearOfUart ready ready.pc 4 := by unfold ClearOfUart; decide

theorem witness_StepRunsTheDecodedInstruction : ready.AtBoundary ∧ ready.pc.toNat % 4 = 0 ∧
    ClearOfUart ready ready.pc 4 ∧ decode ready.fetchBytes = .ok (.addi 5 1 0xFFF#12, []) :=
  ⟨by decide, by decide, ready_clear, by decide⟩

theorem witness_SentinelWordHalts : (readyHalt 0#32).AtBoundary ∧ (readyHalt 0#32).pc.toNat % 4 = 0 ∧
    ClearOfUart (readyHalt 0#32) (readyHalt 0#32).pc 4 ∧ (readyHalt 0#32).fetchWord = 0x00000000#32 ∧
    (readyHalt 0xFFFFFFFF#32).fetchWord = 0xFFFFFFFF#32 :=
  ⟨by decide, by decide, by unfold ClearOfUart; decide, by decide, by decide⟩

theorem witness_UndecodableWordFaults : (readyHalt 0x022082B3#32).AtBoundary ∧ (readyHalt 0x022082B3#32).pc.toNat % 4 = 0 ∧
    ClearOfUart (readyHalt 0x022082B3#32) (readyHalt 0x022082B3#32).pc 4 ∧
    decodeWord (readyHalt 0x022082B3#32).fetchWord = .error (.unknownFunct7 0x33#7 0#3 1#7) :=
  ⟨by decide, by decide, by unfold ClearOfUart; decide, by decide⟩

theorem witness_MisalignedFetchLatchesThePc :
    (at4 0x102#32 0#32 0#32 0#32 []).AtBoundary ∧ (at4 0x102#32 0#32 0#32 0#32 []).pc.toNat % 4 ≠ 0 := by decide

/-- A fetch, and accesses of each width, that reach the UART region with their last byte only. -/
theorem witness_UartAccessIsRefused :
    ((at4 0x80000000#32 0#32 0#32 0#32 []).AtBoundary ∧ (at4 0x80000000#32 0#32 0#32 0#32 []).pc.toNat % 4 = 0 ∧
      ¬ ClearOfUart (at4 0x80000000#32 0#32 0#32 0#32 []) 0x80000000#32 4) ∧
    ¬ ClearOfUart ready 0x80000000#32 1 ∧ ¬ ClearOfUart ready 0x7FFFFFFF#32 2 ∧ ¬ ClearOfUart ready 0x7FFFFFFD#32 4 :=
  ⟨⟨by decide, by decide, by unfold ClearOfUart; decide⟩, by unfold ClearOfUart; decide, by unfold ClearOfUart; decide,
    by unfold ClearOfUart; decide⟩

/-- The highest accesses of each width that miss the UART region; the base is `x1`. -/
theorem witness_LoadsReturnTheExtendedBytes :
    ClearOfUart (at4 0#32 0x7FFFFFFF#32 0#32 0#32 []) ((at4 0#32 0x7FFFFFFF#32 0#32 0#32 []).reg 1 + (0#12).signExtend 32) 1 ∧
    ClearOfUart (at4 0#32 0x7FFFFFFE#32 0#32 0#32 []) ((at4 0#32 0x7FFFFFFE#32 0#32 0#32 []).reg 1 + (0#12).signExtend 32) 2 ∧
    ClearOfUart (at4 0#32 0x7FFFFFFC#32 0#32 0#32 []) ((at4 0#32 0x7FFFFFFC#32 0#32 0#32 []).reg 1 + (0#12).signExtend 32) 4 :=
  ⟨by unfold ClearOfUart; decide, by unfold ClearOfUart; decide, by unfold ClearOfUart; decide⟩

theorem witness_StoresWriteTheLowBytes :
    ClearOfUart stores (stores.reg 1 + (1#12).signExtend 32) 1 ∧ ClearOfUart stores (stores.reg 1 + (1#12).signExtend 32) 2 ∧
    ClearOfUart stores (stores.reg 1 + (1#12).signExtend 32) 4 :=
  ⟨by unfold ClearOfUart; decide, by unfold ClearOfUart; decide, by unfold ClearOfUart; decide⟩

/-- Each branch taken and not taken, and an aligned and a misaligned target. -/
theorem witness_BranchesCompareAndGo :
    ((branch 1#32 1#32).reg 1 = (branch 1#32 1#32).reg 2 ∧ (branch 2#32 1#32).reg 1 ≠ (branch 2#32 1#32).reg 2) ∧
    (((branch 0xFFFFFFFF#32 1#32).reg 1).toInt < ((branch 0xFFFFFFFF#32 1#32).reg 2).toInt ∧
      ¬ ((branch 1#32 1#32).reg 1).toInt < ((branch 1#32 1#32).reg 2).toInt) ∧
    (((branch 0#32 1#32).reg 1).toNat < ((branch 0#32 1#32).reg 2).toNat ∧
      ¬ ((branch 0xFFFFFFFF#32 1#32).reg 1).toNat < ((branch 0xFFFFFFFF#32 1#32).reg 2).toNat) ∧
    ((branch 1#32 1#32).pc + (8#13).signExtend 32).toNat % 4 = 0 ∧
    ((branch 1#32 1#32).pc + (6#13).signExtend 32).toNat % 4 ≠ 0 := by decide

theorem witness_JalLinksAndGoes : (jump.pc + (16#21).signExtend 32).toNat % 4 = 0 ∧
    (jump.pc + (2#21).signExtend 32).toNat % 4 ≠ 0 := by decide

theorem witness_JalrLinksAndGoes :
    (BitVec.ofNat 32 ((jump.reg 5 + (1#12).signExtend 32).toNat / 2 * 2)).toNat % 4 = 0 ∧
    (BitVec.ofNat 32 ((jump.reg 5 + (3#12).signExtend 32).toNat / 2 * 2)).toNat % 4 ≠ 0 := by decide

/-- An instruction with a destination that answers a next state, and a register that is not that destination. -/
theorem witness_OnlyTheDestinationRegisterChanges :
    (∃ t, exec (.addi 5 1 1#12) (alu 2#32) = .next t) ∧ destReg (.addi 5 1 1#12) ≠ some 6 := ⟨⟨_, rfl⟩, by decide⟩

theorem witness_OnlyStoresChangeMemory : (∃ t, exec (.lui 5 1#20) (alu 2#32) = .next t) ∧ isStore (.lui 5 1#20) = false :=
  ⟨⟨_, rfl⟩, rfl⟩

theorem witness_PcAdvancesByFourUnlessTransferred :
    (∃ t, exec (.add 5 1 2) (alu 2#32) = .next t ∧ t.runState = .running) ∧ isTransfer (.add 5 1 2) = false ∧
    (alu 2#32).pc.toNat % 4 = 0 := ⟨⟨_, rfl, by decide⟩, rfl, by decide⟩

theorem witness_OnlyMisalignedTransfersFault : ∃ t, exec (.jal 1 2#21) jump = .next t ∧ t.runState = .faulted :=
  ⟨nextOr jump (exec (.jal 1 2#21) jump), by
    have h : aligned4 (jump.pc + sextJump 2#21) = false := by decide
    simp [exec, execJal, State.jump, h, nextOr], by decide⟩

/-- A load and a store whose last byte alone is in the UART region; `witness_OnlyStoresChangeMemory` runs. -/
theorem witness_EveryInstructionRunsOrTouchesUart :
    (hartWork (.lw 5 1 0#12) = .load .w 5 1 0#12 ∧ hartWork (.sh 1 2 2#12) = .store .half 1 2 2#12) ∧
    ¬ ClearOfUart (at4 0#32 0x7FFFFFFD#32 0#32 0#32 []) ((at4 0#32 0x7FFFFFFD#32 0#32 0#32 []).effAddr 1 0#12) 4 ∧
    ¬ ClearOfUart (at4 0#32 0x7FFFFFFD#32 0#32 0#32 []) ((at4 0#32 0x7FFFFFFD#32 0#32 0#32 []).effAddr 1 2#12) 2 :=
  ⟨⟨rfl, rfl⟩, by unfold ClearOfUart; decide, by unfold ClearOfUart; decide⟩

theorem witness_NextFetchSeesTheStore : (∃ t, exec (.sw 1 2 4#12) (at4 0x100#32 0x100#32 7#32 0#32 []) = .next t) ∧
    (at4 0x100#32 0x100#32 7#32 0#32 []).reg 1 + (4#12).signExtend 32 = (at4 0x100#32 0x100#32 7#32 0#32 []).pc + 4#32 :=
  ⟨⟨_, store_of_clear (s := at4 0x100#32 0x100#32 7#32 0#32 []) (w := .word) (rs1 := 1) (rs2 := 2) (imm := 4#12) (by decide)⟩,
    by decide⟩

theorem witness_FaultedIsTerminal : halted.runState = .faulted := by decide

theorem witness_OnlyExternalResetLeavesFaulted : halted.runState = .faulted ∧
    ∃ t, reactAll [.externalReset] halted = .next t ∧ t.runState = .running := ⟨by decide, _, rfl, by decide⟩

theorem witness_ExternalResetState : (31 : RegIdx) ≠ 0 := by decide

/-- A state that is not the reset state and meets the invariant. -/
theorem ready_inv : ready.Inv where
  memCanonical := by decide
  memBounded := by decide
  pcAligned := fun _ => by decide
  latchAgrees := by decide
  zeroStored := by decide
  pendingOnlyAtFetch := by decide
  busOk := ⟨rfl, rfl, rfl⟩

theorem readyStore_inv : readyStore.Inv where
  memCanonical := by decide
  memBounded := by decide
  pcAligned := fun _ => by decide
  latchAgrees := by decide
  zeroStored := by decide
  pendingOnlyAtFetch := by decide
  busOk := ⟨rfl, rfl, rfl⟩

theorem halted_inv : halted.Inv where
  memCanonical := by decide
  memBounded := by decide
  pcAligned := fun h => by exact absurd h (by decide)
  latchAgrees := by decide
  zeroStored := by decide
  pendingOnlyAtFetch := by decide
  busOk := ⟨rfl, rfl, rfl⟩

/-- `ready` in the middle of its fetch, with a read in flight. -/
theorem readyFetching_inv : ready.fetch1.Inv where
  memCanonical := by decide
  memBounded := by decide
  pcAligned := fun _ => by decide
  latchAgrees := by decide
  zeroStored := by decide
  pendingOnlyAtFetch := by decide
  busOk := ⟨rfl, rfl⟩

/-- An outcome whose next state is asked for by a Bool is that next state. -/
def answers : Result → Bool
  | .next _ => true
  | .fault _ => false
  | .refused _ => false

theorem next_of_answers {s : State} {r : Result} (h : answers r = true) : r = .next (nextOr s r) := by
  cases r <;> first | rfl | cases h

theorem ready_step : ∃ t, step ready = .next t := ⟨nextOr ready (step ready), next_of_answers (by decide)⟩

theorem witness_HaltIsExactlyASentinelFetch : ready.AtBoundary ∧ ready.Inv ∧ (∃ t, step ready = .next t) ∧
    (∃ t, step (readyHalt 0#32) = .next t ∧ t.Halted) :=
  ⟨by decide, ready_inv, ready_step, nextOr ready (step (readyHalt 0#32)), next_of_answers (by decide), by unfold State.Halted; decide⟩

theorem witness_DebugSurfaceMergesThePendingWrite : (31 : RegIdx) ≠ 0 := by decide

theorem witness_ParametersNeverChange : (∃ t, step ready = .next t) ∧ (∃ t, react .clock ready = .next t) :=
  ⟨ready_step, ready.fetch1, cycle_fetchRequest (s := ready) (by decide) (by decide) (by decide)⟩

theorem witness_PowerOnMeetsTheInvariant : ([1#8, 2#8, 3#8] : List Byte).length ≤ 2 * memDepth params := by decide

theorem witness_EveryStepKeepsTheInvariant : ready.Inv ∧ (∃ t, step ready = .next t) ∧ ready.fetch1.Inv ∧
    (∃ t, step ready.fetch1 = .next t) :=
  ⟨ready_inv, ready_step, readyFetching_inv, ready.fetch2, (step_of_not_boundary (by decide)).trans (cycle_fetch1 (by decide))⟩

theorem witness_EveryEventKeepsTheInvariant : ready.Inv ∧ ∃ t, reactAll [.clock, .externalReset] ready = .next t :=
  ⟨ready_inv, ready.fetch1.externalReset, by
    simp only [reactAll, react, cycle_fetchRequest (s := ready) (by decide) (by decide) (by decide)]⟩

theorem witness_AtMostOneTransactionInFlight : (ready.Inv ∧ ready.hart = .fetchRequest) ∧
    (ready.fetch1.Inv ∧ ready.fetch1.inFlight.length = 1) ∧ (halted.Inv ∧ halted.runState = .faulted) :=
  ⟨⟨ready_inv, rfl⟩, ⟨readyFetching_inv, by decide⟩, halted_inv, by decide⟩

theorem witness_CyclesComposeToTheInstruction : ready.AtBoundary := by decide

theorem witness_InstructionsTakeTheReferenceSteps : ready.AtBoundary ∧ ready.pc.toNat % 4 = 0 ∧
    ClearOfUart ready ready.pc 4 ∧ decodeWord ready.fetchWord = .ok (.addi 5 1 0xFFF#12) ∧
    (∃ t, step ready = .next t ∧ t.runState = .running) ∧ 0 < 4 ∧ 4 < referenceSteps (.addi 5 1 0xFFF#12) false :=
  ⟨by decide, by decide, ready_clear, by decide, ⟨nextOr ready (step ready), next_of_answers (by decide), by decide⟩, by decide, by decide⟩

theorem witness_EveryInstructionEndsWithinEightCycles : ready.Inv ∧ ready.fetch1.Inv ∧ halted.Inv :=
  ⟨ready_inv, readyFetching_inv, halted_inv⟩

/-- A store of three beats. -/
theorem witness_ResetInsideAStoreLeavesAPrefix : readyStore.AtBoundary ∧ readyStore.pc.toNat % 4 = 0 ∧
    ClearOfUart readyStore readyStore.pc 4 ∧ decodeWord readyStore.fetchWord = .ok (.sw 1 2 1#12) ∧
    hartWork (.sw 1 2 1#12) = .store .word 1 2 1#12 ∧
    ClearOfUart readyStore (readyStore.effAddr 1 1#12) (widthBytes .word) ∧
    (writeBeats .word (readyStore.effAddr 1 1#12) (readyStore.reg 2)).length = 3 :=
  ⟨by decide, by decide, by unfold ClearOfUart; decide, by decide, rfl, by unfold ClearOfUart; decide, by decide⟩

theorem witness_DebugSurfaceReadsMemoryBetweenBeats : readyStore.AtBoundary ∧ readyStore.pc.toNat % 4 = 0 ∧
    ClearOfUart readyStore readyStore.pc 4 ∧ decodeWord readyStore.fetchWord = .ok (.sw 1 2 1#12) ∧
    hartWork (.sw 1 2 1#12) = .store .word 1 2 1#12 ∧
    ClearOfUart readyStore (readyStore.effAddr 1 1#12) (widthBytes .word) :=
  have h := witness_ResetInsideAStoreLeavesAPrefix
  ⟨h.1, h.2.1, h.2.2.1, h.2.2.2.1, h.2.2.2.2.1, h.2.2.2.2.2.1⟩

end Sys2Proof.Tests
end

section
/-! PROOFS. Family `00_scope.md`: the OPEN parameters never change (O42), and the clock cycles of one
instruction compose to its meaning (O47). -/

namespace Sys2Proof.Machine

/-! ### The OPEN parameters (R8) -/

/-- An answer, if it is a next state, has the parameters of `s`. -/
def KeepsParams (s : State) (r : Result) : Prop := ∀ t, r = .next t → t.params = s.params

theorem keepsParams_next {s t : State} (h : t.params = s.params) : KeepsParams s (.next t) := by
  rintro u ⟨⟩; exact h

theorem keepsParams_refused (s : State) (r : Refusal) : KeepsParams s (.refused r) := by
  intro t h; cases h

theorem keepsParams_clockedResult {s : State} {r : Result} (h : KeepsParams s r) : KeepsParams s (s.clockedResult r) := by
  cases r with
  | next t => exact keepsParams_next (h t rfl)
  | fault f => cases f
  | refused f => exact keepsParams_refused s f

theorem keepsParams_exec (i : Instr) (s : State) : KeepsParams s (exec i s) := fun _ => exec_params

theorem keepsParams_runWord (s : State) (w : Word) : KeepsParams s (s.runWord w) := by
  unfold State.runWord
  split
  · exact keepsParams_exec _ { s with insn := w }
  · exact keepsParams_next rfl

/-- A whole instruction leaves the parameters as they are. -/
theorem keepsParams_instruction (s : State) : KeepsParams s (instruction s) := by
  have hrun := keepsParams_runWord s.commit s.commit.fetchWord
  rw [KeepsParams, commit_params] at hrun
  simp only [instruction]
  split_ifs
  · exact keepsParams_next (by simp)
  · exact keepsParams_refused s _
  · exact keepsParams_next (by simp)
  · exact hrun

theorem keepsParams_cycleFetchRequest (s : State) : KeepsParams s (cycleFetchRequest s) := by
  simp only [cycleFetchRequest]
  split_ifs
  · exact keepsParams_next (by simp)
  · exact keepsParams_refused s _
  · exact keepsParams_next (by simp)

theorem keepsParams_cycleFetchWait (s : State) : KeepsParams s (cycleFetchWait s) := by
  unfold cycleFetchWait
  split
  · exact keepsParams_next (by simp)
  · split <;> exact keepsParams_next (by simp)

theorem keepsParams_cycleIssueLoad (s : State) (k : LoadKind) (rd rs1 : RegIdx) (imm : BitVec 12) :
    KeepsParams s (cycleIssueLoad s k rd rs1 imm) := by
  simp only [cycleIssueLoad]
  split
  · exact keepsParams_refused s _
  · exact keepsParams_next (by simp)

theorem keepsParams_cycleIssueStore (s : State) (w : Width) (rs1 rs2 : RegIdx) (imm : BitVec 12) :
    KeepsParams s (cycleIssueStore s w rs1 rs2 imm) := by
  simp only [cycleIssueStore]
  split
  · exact keepsParams_refused s _
  · exact keepsParams_next (by simp)

theorem keepsParams_cycleDecode (s : State) : KeepsParams s (cycleDecode s) := by
  unfold cycleDecode
  split
  · exact keepsParams_next (by simp)
  · split
    · exact keepsParams_clockedResult (keepsParams_exec _ s)
    · exact keepsParams_cycleIssueLoad s _ _ _ _
    · exact keepsParams_cycleIssueStore s _ _ _ _
    · exact keepsParams_next (by simp)

theorem keepsParams_cycleLoadWait (s : State) : KeepsParams s (cycleLoadWait s) := by
  unfold cycleLoadWait
  split <;> exact keepsParams_next (by simp)

theorem keepsParams_cycleLoadResolve (s : State) (k : LoadKind) (v : Word) : KeepsParams s (cycleLoadResolve s k v) :=
  keepsParams_next (writeBack_params s s.loadDest (extendLoad k v))

theorem keepsParams_cycleResolve (s : State) : KeepsParams s (cycleResolve s) :=
  keepsParams_clockedResult (keepsParams_runWord s s.insn)

theorem keepsParams_cycleStoreWait (s : State) (accepted : Bool) : KeepsParams s (cycleStoreWait s accepted) := by
  have hwait : KeepsParams s (.next (s.clocked s none none)) :=
    keepsParams_next (by simp)
  unfold cycleStoreWait
  split
  · exact keepsParams_next (by simp)
  · split
    · exact hwait
    · split
      · exact keepsParams_cycleIssueStore s _ _ _ _
      · exact hwait
      · exact hwait
      · exact hwait

theorem keepsParams_cycleStoreResolve (s : State) : KeepsParams s (cycleStoreResolve s) := by
  unfold cycleStoreResolve
  split <;> exact keepsParams_next (by simp)

/-- One clock cycle leaves the parameters as they are, in every state of the hart. -/
theorem keepsParams_cycle (s : State) : KeepsParams s (cycle s) := by
  unfold cycle
  split
  · exact keepsParams_cycleFetchRequest s
  · exact keepsParams_cycleFetchWait s
  · exact keepsParams_cycleDecode s
  · exact keepsParams_cycleLoadWait s
  · exact keepsParams_cycleLoadResolve s _ _
  · exact keepsParams_cycleResolve s
  · exact keepsParams_cycleResolve s
  · exact keepsParams_cycleStoreWait s _
  · exact keepsParams_cycleStoreResolve s
  · exact keepsParams_cycleResolve s
  · exact keepsParams_cycleResolve s
  · exact keepsParams_next rfl

theorem keepsParams_step (s : State) : KeepsParams s (step s) := by
  unfold step
  split
  · exact keepsParams_instruction s
  · exact keepsParams_cycle s

theorem keepsParams_react (e : Event) (s : State) : KeepsParams s (react e s) := by
  cases e with
  | clock => exact keepsParams_cycle s
  | externalReset => exact keepsParams_next (externalReset_params s)

/-! ### From `DECODE` to the end of an instruction (R164 to R170) -/

/-- A load whose access misses the UART region takes from `DECODE` one cycle to issue the read, one for
each beat and one to write back (R71, R167). -/
theorem cycles_load {s : State} (hq : s.Quiet) (hh : s.hart = .decode) {i : Instr} {k : LoadKind}
    {rd rs1 : RegIdx} {imm : BitVec 12} (hd : decodeWord s.insn = .ok i) (hw : hartWork i = .load k rd rs1 imm)
    (hu : s.touchesUart (s.effAddr rs1 imm) (loadWidth k) = false) :
    cycles (readBeatCount (loadWidth k) (oddAddr (s.effAddr rs1 imm)) + 2) s = exec i s := by
  have hissue := cycle_decode_load hq hh hd hw
  rw [hu, if_neg Bool.false_ne_true] at hissue
  rw [exec_of_load hw, load_of_clear hu]
  have h1 := cycle_load1 hq k rd (s.effAddr rs1 imm)
  have h4 := cycle_load4 hq k rd (s.effAddr rs1 imm)
  obtain hb | hb | hb := readBeatCount_cases (loadWidth k) (oddAddr (s.effAddr rs1 imm))
  · rw [if_pos hb] at h1
    rw [hb, cycles_succ hissue, cycles_succ h1, cycles_one, h4]
  · have h2 := cycle_load2 hq k rd (s.effAddr rs1 imm) (by omega)
    rw [if_neg (by omega)] at h1
    rw [if_pos hb] at h2
    rw [hb, cycles_succ hissue, cycles_succ h1, cycles_succ h2, cycles_one, h4]
  · have h2 := cycle_load2 hq k rd (s.effAddr rs1 imm) (by omega)
    rw [if_neg (by omega)] at h1 h2
    rw [hb, cycles_succ hissue, cycles_succ h1, cycles_succ h2, cycles_succ (cycle_load3 hq k rd _), cycles_one, h4]

/-- A store whose access misses the UART region takes from `DECODE` three cycles, the first two of
which perform up to two beats, and a fourth if there is a third beat (R73, R168). -/
theorem cycles_store {s : State} (hq : s.Quiet) (hh : s.hart = .decode) {i : Instr} {w : Width}
    {rs1 rs2 : RegIdx} {imm : BitVec 12} (hd : decodeWord s.insn = .ok i) (hw : hartWork i = .store w rs1 rs2 imm)
    (hu : s.touchesUart (s.effAddr rs1 imm) w = false) :
    cycles (if (writeBeats w (s.effAddr rs1 imm) (s.reg rs2)).length = 3 then 4 else 3) s = exec i s := by
  have hissue := cycle_decode_store hq hh hd hw
  rw [hu, if_neg Bool.false_ne_true] at hissue
  rw [exec_of_store hw, store_of_clear hu]
  have h1 := cycle_store1 hq w (s.effAddr rs1 imm) (s.reg rs2)
  have h2 := cycle_store2 hq w (s.effAddr rs1 imm) (s.reg rs2)
  split
  case isTrue hb =>
    rw [if_pos hb] at h2
    rw [cycles_succ hissue, cycles_succ h1, cycles_succ h2, cycles_one, cycle_store3 hq]
  case isFalse hb =>
    rw [if_neg hb] at h2
    rw [cycles_succ hissue, cycles_succ h1, cycles_one, h2]

/-- From `DECODE` at most five cycles do exactly what the decoded instruction means, a refusal included. -/
theorem cycles_decode_exec {s : State} (hq : s.Quiet) (hh : s.hart = .decode) {i : Instr}
    (hd : decodeWord s.insn = .ok i) : ∃ n, 0 < n ∧ n ≤ 5 ∧ cycles n s = exec i s := by
  cases hw : hartWork i with
  | inDecode => exact ⟨1, by omega, by omega, (cycles_one s).trans (cycle_decode_inDecode hq hh hd hw)⟩
  | resolve h =>
    have hresolve : cycle { s with hart := h } = exec i { s with hart := h } :=
      cycle_resolve (s := { s with hart := h }) hq hw hd
    refine ⟨2, by omega, by omega, ?_⟩
    rw [cycles_succ (cycle_decode_resolve hq hh hd hw), cycles_one, hresolve, exec_withHart]
  | load k rd rs1 imm =>
    cases hu : s.touchesUart (s.effAddr rs1 imm) (loadWidth k) with
    | true =>
      refine ⟨1, by omega, by omega, ?_⟩
      rw [cycles_one, cycle_decode_load hq hh hd hw, exec_of_load hw, load_of_uart hu, if_pos hu]
    | false =>
      have hb := readBeatCount_cases (loadWidth k) (oddAddr (s.effAddr rs1 imm))
      exact ⟨_, by omega, by omega, cycles_load hq hh hd hw hu⟩
  | store w rs1 rs2 imm =>
    cases hu : s.touchesUart (s.effAddr rs1 imm) w with
    | true =>
      refine ⟨1, by omega, by omega, ?_⟩
      rw [cycles_one, cycle_decode_store hq hh hd hw, exec_of_store hw, store_of_uart hu, if_pos hu]
    | false => exact ⟨_, by split <;> omega, by split <;> omega, cycles_store hq hh hd hw hu⟩

/-! ### From the boundary to the end of an instruction (R161, R162, R175) -/

/-- A misaligned pc faults in `FETCH_REQUEST` (R161, R334). -/
theorem cycle_of_misaligned {s : State} (hb : s.AtBoundary) (ha : s.pc.toNat % 4 ≠ 0) :
    cycle s = instruction s := by
  have hc : cycle s = cycleFetchRequest s := by simp only [cycle, hb.1]
  have hpc : aligned4 s.pc = false := by rw [← Bool.not_eq_true, aligned4_iff]; exact ha
  rw [hc, instruction_of_misaligned ha]
  simp [cycleFetchRequest, hpc, clocked_quiet hb.2 (h := s.commit.raiseFault .pcMisaligned s.pc) (commit_quiet hb.2)]

/-- A fetch that touches the UART region is refused in `FETCH_REQUEST` (R65). -/
theorem cycle_of_fetchUart {s : State} (hb : s.AtBoundary) (ha : s.pc.toNat % 4 = 0)
    (hu : s.touchesUart s.pc .word = true) : cycle s = instruction s := by
  have hc : cycle s = cycleFetchRequest s := by simp only [cycle, hb.1]
  rw [hc]
  simp [cycleFetchRequest, instruction, (aligned4_iff s.pc).mpr ha, hu]

/-- A sentinel faults in the third cycle, in `FETCH_WAIT` (R162). -/
theorem cycles_of_sentinel {s : State} (hb : s.AtBoundary) (ha : s.pc.toNat % 4 = 0)
    (hu : s.touchesUart s.pc .word = false) (hs : isSentinel s.fetchWord = true) : cycles 3 s = instruction s := by
  rw [cycles_succ (cycle_fetchRequest hb ha hu), cycles_succ (cycle_fetch1 hb.2.2.2), cycles_one, cycle_fetch2 hb.2 ha,
    if_pos hs]
  simp [instruction, (aligned4_iff s.pc).mpr ha, hu, hs]

/-- Any other word that does not decode faults in the fourth cycle, in `DECODE` (R164). -/
theorem cycles_of_illegal {s : State} (hb : s.AtBoundary) (ha : s.pc.toNat % 4 = 0)
    (hu : s.touchesUart s.pc .word = false) (hs : isSentinel s.fetchWord = false) {e : DecodeError}
    (hd : decodeWord s.fetchWord = .error e) : cycles 4 s = instruction s := by
  rw [cycles_add (cycles_fetch3 hb ha hu hs) 1, cycles_one, cycle_decode_error (fetch3_quiet hb.2) rfl hd]
  simp [instruction, (aligned4_iff s.pc).mpr ha, hu, hs, State.runWord, hd, State.raiseFault, State.fetch3]

/-- A word that decodes is fetched in three cycles and done in at most five more (R175). -/
theorem cycles_of_decode {s : State} (hb : s.AtBoundary) (ha : s.pc.toNat % 4 = 0)
    (hu : s.touchesUart s.pc .word = false) {i : Instr} (hd : decodeWord s.fetchWord = .ok i) :
    ∃ n, 0 < n ∧ n ≤ 8 ∧ cycles n s = instruction s := by
  obtain ⟨n, hpos, hle, hn⟩ := cycles_decode_exec (fetch3_quiet hb.2) rfl hd
  refine ⟨3 + n, by omega, by omega, ?_⟩
  rw [cycles_add (cycles_fetch3 hb ha hu (not_sentinel_of_decode hd)), hn, exec_fetch3, instruction_of_decode ha hu hd]

/-- The checks of R337 in order: each ends the instruction in the cycle that makes it. -/
theorem cycles_instruction {s : State} (hb : s.AtBoundary) : ∃ n, 0 < n ∧ n ≤ 8 ∧ cycles n s = instruction s := by
  by_cases ha : s.pc.toNat % 4 = 0
  swap
  · exact ⟨1, by omega, by omega, (cycles_one s).trans (cycle_of_misaligned hb ha)⟩
  cases hu : s.touchesUart s.pc .word with
  | true => exact ⟨1, by omega, by omega, (cycles_one s).trans (cycle_of_fetchUart hb ha hu)⟩
  | false =>
    cases hd : decodeWord s.fetchWord with
    | ok i => exact cycles_of_decode hb ha hu hd
    | error e =>
      cases hs : isSentinel s.fetchWord with
      | true => exact ⟨3, by omega, by omega, cycles_of_sentinel hb ha hu hs⟩
      | false => exact ⟨4, by omega, by omega, cycles_of_illegal hb ha hu hs hd⟩

end Sys2Proof.Machine

namespace Sys2Proof.Proofs

open Sys2Proof.Machine

/-- Settles O42: a step is an instruction or a clock cycle, and neither they nor an external reset write
the parameters. -/
theorem parametersNeverChange : Obligations.ParametersNeverChange :=
  ⟨keepsParams_step, keepsParams_react⟩

/-- Settles O47: the fetch takes three cycles, and each way on from `DECODE` at most five. -/
theorem cyclesComposeToTheInstruction : Obligations.CyclesComposeToTheInstruction := by
  intro s hb
  rw [step_of_boundary hb]
  exact cycles_instruction hb

end Sys2Proof.Proofs
end

section
/-! PROOFS. Family `10_state.md`: what the invariant says of the bus (O46), that one clock cycle keeps the
invariant and with it every step and every event (O44, O45), its start (O43), and the frames of an
instruction's registers and pc (O31, O33) and of a byte's place in memory (O8). -/

namespace Sys2Proof.Machine

/-! ### The bus in each state of the hart (R64) -/

/-- The hart waits for a read or performs a write. -/
def HartState.usesBus : HartState → Bool
  | .fetchRequest => false
  | .fetchWait => true
  | .decode => false
  | .loadWait => true
  | .loadResolve _ _ => false
  | .aluImm => false
  | .aluReg => false
  | .storeWait _ => true
  | .storeResolve => true
  | .branchResolve => false
  | .jalrResolve => false
  | .faulted => false

/-- A read is in flight and no write is. -/
abbrev State.Reading (s : State) : Prop := s.readEngine.request.isSome = true ∧ s.writeEngine = .idle

/-- Nothing is being read; a write may be in flight. -/
abbrev State.NoRead (s : State) : Prop := s.readEngine = .idle ∧ s.readPort = none

theorem busOk_iff_quiet {s : State} (h : s.hart.usesBus = false) : s.BusOk ↔ s.Quiet := by
  cases hh : s.hart <;> simp_all [State.BusOk, HartState.usesBus]

theorem busOk_iff_reading {s : State} (h : s.hart = .fetchWait ∨ s.hart = .loadWait) : s.BusOk ↔ s.Reading := by
  obtain h | h := h <;> simp [State.BusOk, h]

theorem busOk_iff_noRead {s : State} (h : s.hart = .storeWait true ∨ s.hart = .storeResolve) :
    s.BusOk ↔ s.NoRead := by
  obtain h | h := h <;> simp [State.BusOk, h]

/-- A write whose request has not been accepted yet does not occur in `STORE_WAIT` (log 18). -/
theorem accepted_of_busOk {s : State} (hb : s.BusOk) {accepted : Bool} (hh : s.hart = .storeWait accepted) :
    accepted = true := by
  simp only [State.BusOk, hh] at hb
  exact hb.1

theorem idle_of_busOk {s : State} (hb : s.BusOk) : s.readEngine = .idle ∨ s.writeEngine = .idle := by
  cases hu : s.hart.usesBus with
  | false => exact .inl ((busOk_iff_quiet hu).mp hb).1
  | true =>
    cases hh : s.hart <;> simp only [hh, HartState.usesBus, reduceCtorEq] at hu
    case fetchWait => exact .inr ((busOk_iff_reading (.inl hh)).mp hb).2
    case loadWait => exact .inr ((busOk_iff_reading (.inr hh)).mp hb).2
    case storeWait accepted =>
      rw [accepted_of_busOk hb hh] at hh
      exact .inl ((busOk_iff_noRead (.inl hh)).mp hb).1
    case storeResolve => exact .inl ((busOk_iff_noRead (.inr hh)).mp hb).1

theorem inFlight_of_quiet {s : State} (h : s.Quiet) : s.inFlight = [] := by
  simp [State.inFlight, h.1, h.2.2, ReadEngine.request, WriteEngine.request]

theorem inFlight_le_one {s : State} (h : s.readEngine = .idle ∨ s.writeEngine = .idle) : s.inFlight.length ≤ 1 := by
  obtain h | h := h
  · cases hw : s.writeEngine.request <;> simp [State.inFlight, h, ReadEngine.request, hw]
  · cases hr : s.readEngine.request <;> simp [State.inFlight, h, WriteEngine.request, hr]

/-! ### The engines through one clock (R71, R76) -/

theorem reading_of_request {s : State} (hq : s.Quiet) (h : State) (r : ReadReq) :
    (s.clocked h (some r) none).Reading := by
  simp only [State.Reading, clocked_readEngine, clocked_writeEngine, State.readAdvance, State.writeAdvance, hq.1, hq.2.2,
    and_true]
  split <;> rfl

/-- Until its last cell arrives, a read stays in flight. -/
theorem reading_of_noResponse {s : State} (hr : s.Reading) (hn : s.readResponse = none) (h : State) :
    (s.clocked h none none).Reading := by
  obtain ⟨hread, hwrite⟩ := hr
  simp only [State.Reading, clocked_readEngine, clocked_writeEngine, State.writeAdvance, hwrite, and_true]
  cases he : s.readEngine with
  | idle => simp [he, ReadEngine.request] at hread
  | pipe => simp [he, ReadEngine.request] at hread
  | collect r => simp [State.readResponse, he] at hn
  | collect0 r => simp [State.readAdvance, he, ReadEngine.request]
  | collect1 r c0 =>
    have hb : r.beats ≠ 2 := by simpa [State.readResponse, he] using hn
    simp [State.readAdvance, he, hb, ReadEngine.request]
  | collect2 r c0 c1 => simp [State.readResponse, he] at hn

/-- With its response a read is over. -/
theorem quiet_of_response {s : State} (hr : s.Reading) {v : Word} (hv : s.readResponse = some v) (h : State) :
    (s.clocked h none none).Quiet := by
  obtain ⟨hread, hwrite⟩ := hr
  have hidle : s.readAdvance none = (.idle, none) := by
    cases he : s.readEngine with
    | idle => simp [he, ReadEngine.request] at hread
    | pipe => simp [he, ReadEngine.request] at hread
    | collect r => simp [State.readAdvance, he]
    | collect0 r => simp [State.readResponse, he] at hv
    | collect1 r c0 =>
      have hb : r.beats = 2 := by
        by_contra hb
        simp [State.readResponse, he, hb] at hv
      simp [State.readAdvance, he, hb]
    | collect2 r c0 c1 => simp [State.readAdvance, he]
  simp [State.Quiet, hidle, State.writeAdvance, hwrite]

theorem noRead_clocked {s : State} (hn : s.NoRead) (h : State) (w : Option WriteReq) :
    (s.clocked h none w).NoRead := by
  simp [State.NoRead, State.readAdvance, hn.1]

/-! ### The hart's part of the invariant -/

theorem pending_none_of_inv {s : State} (h : s.Inv) (hh : s.hart ≠ .fetchRequest) : s.pending = none := by
  by_contra hp
  exact hh (h.pendingOnlyAtFetch hp)

/-- `insn` and the load bookkeeping are free in the invariant (R48, R50). -/
theorem hartInv_withBookkeeping {s : State} (h : s.HartInv) (w : Word) (d : RegIdx) (k : LoadKind) :
    ({ s with insn := w, loadDest := d, loadKind := k } : State).HartInv :=
  ⟨h.memCanonical, h.memBounded, h.pcAligned, h.latchAgrees, h.zeroStored, h.pendingOnlyAtFetch⟩

theorem hartInv_complete {s : State} (h : s.HartInv) (hr : s.runState = .running) {t : Word}
    (ht : t.toNat % 4 = 0) : (s.complete t).HartInv :=
  ⟨h.memCanonical, h.memBounded, fun _ => ht, by simp [State.runState, h.latchAgrees.mpr hr], h.zeroStored, by simp⟩

theorem hartInv_writeBack {s : State} (h : s.HartInv) (hr : s.runState = .running) (rd : RegIdx) (v : Word) :
    (s.writeBack rd v).HartInv := by
  have hpc : s.nextPc.toNat % 4 = 0 := aligned4_nextPc (h.pcAligned hr)
  exact ⟨by simpa using h.memCanonical, by simpa using h.memBounded, by simpa using fun _ => hpc,
    by simp [State.runState, h.latchAgrees.mpr hr], by simpa using (commit_zero s).trans h.zeroStored, by simp⟩

theorem inv_of_quiet {s : State} (h : s.HartInv) (hb : s.hart.usesBus = false) (hq : s.Quiet) : s.Inv :=
  h.toInv ((busOk_iff_quiet hb).mpr hq)

/-- The hart goes on in `u`, which does not use the bus, with quiet engines. -/
theorem inv_clocked_of_quiet {s u : State} (hq : s.Quiet) (hu : u.HartInv) (hp : u.params = s.params)
    (hb : u.hart.usesBus = false) : (s.clocked u none none).Inv :=
  inv_of_quiet (hartInv_clocked hp hu none none) hb (quiet_clocked hq)

/-- The hart goes on in `u`, which waits for a read, with one in flight. -/
theorem inv_clocked_of_reading {s u : State} {r : Option ReadReq} (hread : (s.clocked u r none).Reading)
    (hu : u.HartInv) (hp : u.params = s.params) (hh : u.hart = .fetchWait ∨ u.hart = .loadWait) :
    (s.clocked u r none).Inv :=
  State.HartInv.toInv (hartInv_clocked hp hu r none) ((busOk_iff_reading (s := s.clocked u r none) hh).mpr hread)

/-- The hart goes on in `u`, a state of a store, with nothing being read. -/
theorem inv_clocked_of_noRead {s u : State} (hn : s.NoRead) (w : Option WriteReq) (hu : u.HartInv)
    (hp : u.params = s.params) (hh : u.hart = .storeWait true ∨ u.hart = .storeResolve) :
    (s.clocked u none w).Inv :=
  State.HartInv.toInv (hartInv_clocked hp hu none w)
    ((busOk_iff_noRead (s := s.clocked u none w) hh).mpr (noRead_clocked hn u w))

/-! ### One clock cycle keeps the invariant -/

/-- An answer, if it is a next state, meets the invariant. -/
def AnswersInv (r : Result) : Prop := ∀ t, r = .next t → t.Inv

theorem answersInv_next {t : State} (h : t.Inv) : AnswersInv (.next t) := by
  rintro u ⟨⟩; exact h

theorem answersInv_refused (r : Refusal) : AnswersInv (.refused r) := by
  intro t h; cases h

/-- An instruction that meets quiet engines leaves them quiet, at the next fetch or in FAULTED. -/
theorem answersInv_exec {s : State} (h : s.HartInv) (hr : s.runState = .running) (hq : s.Quiet) (i : Instr) :
    AnswersInv (exec i s) := by
  intro t he
  have hb : t.hart.usesBus = false := by
    obtain hh | hh := exec_hart he <;> rw [hh] <;> rfl
  exact inv_of_quiet (hartInv_exec h hr he) hb (exec_quiet hq he)

/-- The states that do an instruction's work after `DECODE` leave the bus alone (C6). -/
theorem resolve_usesBus {i : Instr} {st : HartState} (h : hartWork i = .resolve st) :
    st.usesBus = false ∧ st ≠ .faulted := by
  cases i <;> cases h <;> exact ⟨rfl, by decide⟩

section
variable {s : State} (h : s.Inv)
include h

theorem quiet_of_inv (hb : s.hart.usesBus = false) : s.Quiet := (busOk_iff_quiet hb).mp h.busOk

theorem answersInv_fetchRequest (hh : s.hart = .fetchRequest) : AnswersInv (cycleFetchRequest s) := by
  have hq : s.Quiet := quiet_of_inv h (by rw [hh]; rfl)
  have hc : s.commit.HartInv := hartInv_commit h.toHartInv
  have hr : s.commit.runState = .running := by simp [runState_running_iff, hh]
  simp only [cycleFetchRequest]
  split_ifs
  · exact answersInv_next (inv_clocked_of_quiet hq (hartInv_raiseFault hc (commit_pending s) (by decide) _)
      (commit_params s) rfl)
  · exact answersInv_refused _
  · have hu := hartInv_withHart hc hr (commit_pending s) (st := .fetchWait) (fun e => nomatch e)
    exact answersInv_next (inv_clocked_of_reading (reading_of_request hq _ _) hu (commit_params s) (.inl rfl))

/-- Waiting one more cycle for a read (R162, R167). -/
theorem inv_awaitRead (hh : s.hart = .fetchWait ∨ s.hart = .loadWait) (hn : s.readResponse = none) :
    (s.clocked s none none).Inv :=
  inv_clocked_of_reading (reading_of_noResponse ((busOk_iff_reading hh).mp h.busOk) hn s) h.toHartInv rfl hh

/-- The hart goes on in `u` with a read's response (R162, R167). -/
theorem inv_response (hh : s.hart = .fetchWait ∨ s.hart = .loadWait) {v : Word} (hv : s.readResponse = some v)
    {u : State} (hu : u.HartInv) (hp : u.params = s.params) (hb : u.hart.usesBus = false) :
    (s.clocked u none none).Inv :=
  inv_of_quiet (hartInv_clocked hp hu none none) hb (quiet_of_response ((busOk_iff_reading hh).mp h.busOk) hv u)

theorem answersInv_fetchWait (hh : s.hart = .fetchWait) : AnswersInv (cycleFetchWait s) := by
  have hpend : s.pending = none := pending_none_of_inv h (by simp [hh])
  have hr : s.runState = .running := by simp [runState_running_iff, hh]
  unfold cycleFetchWait
  split
  case h_1 hn => exact answersInv_next (inv_awaitRead h (.inl hh) hn)
  case h_2 w hv =>
    split
    · exact answersInv_next (inv_response h (.inl hh) hv (hartInv_raiseFault h.toHartInv hpend (by decide) w) rfl rfl)
    · have hu := hartInv_withHart h.toHartInv hr hpend (st := .decode) (by decide)
      exact answersInv_next (inv_response h (.inl hh) hv (hartInv_withBookkeeping hu w s.loadDest s.loadKind) rfl rfl)

theorem answersInv_loadWait (hh : s.hart = .loadWait) : AnswersInv (cycleLoadWait s) := by
  have hpend : s.pending = none := pending_none_of_inv h (by simp [hh])
  have hr : s.runState = .running := by simp [runState_running_iff, hh]
  unfold cycleLoadWait
  split
  case h_1 hn => exact answersInv_next (inv_awaitRead h (.inr hh) hn)
  case h_2 v hv =>
    have hu := hartInv_withHart h.toHartInv hr hpend (st := .loadResolve s.loadKind v) (by simp)
    exact answersInv_next (inv_response h (.inr hh) hv hu rfl rfl)

theorem answersInv_issueLoad (hh : s.hart = .decode) (k : LoadKind) (rd rs1 : RegIdx) (imm : BitVec 12) :
    AnswersInv (cycleIssueLoad s k rd rs1 imm) := by
  have hq : s.Quiet := quiet_of_inv h (by rw [hh]; rfl)
  have hr : s.runState = .running := by simp [runState_running_iff, hh]
  have hu := hartInv_withHart h.toHartInv hr (pending_none_of_inv h (by simp [hh])) (st := .loadWait) (by decide)
  simp only [cycleIssueLoad]
  split
  · exact answersInv_refused _
  · exact answersInv_next (inv_clocked_of_reading (reading_of_request hq _ _)
      (hartInv_withBookkeeping hu s.insn rd k) rfl (.inr rfl))

/-- `DECODE` finds the write engine ready, so the request it presents is accepted (R168, D19). -/
theorem answersInv_issueStore (hh : s.hart = .decode) (w : Width) (rs1 rs2 : RegIdx) (imm : BitVec 12) :
    AnswersInv (cycleIssueStore s w rs1 rs2 imm) := by
  have hq : s.Quiet := quiet_of_inv h (by rw [hh]; rfl)
  have hr : s.runState = .running := by simp [runState_running_iff, hh]
  have hready : s.writeReady = true := by simp [State.writeReady, hq.2.2]
  have hu := hartInv_withHart h.toHartInv hr (pending_none_of_inv h (by simp [hh])) (st := .storeWait true) (by decide)
  simp only [cycleIssueStore, hready]
  split
  · exact answersInv_refused _
  · exact answersInv_next (inv_clocked_of_noRead ⟨hq.1, hq.2.1⟩ _ hu rfl (.inl rfl))

theorem answersInv_decode (hh : s.hart = .decode) : AnswersInv (cycleDecode s) := by
  have hq : s.Quiet := quiet_of_inv h (by rw [hh]; rfl)
  have hr : s.runState = .running := by simp [runState_running_iff, hh]
  have hpend : s.pending = none := pending_none_of_inv h (by simp [hh])
  unfold cycleDecode
  split
  · exact answersInv_next (inv_clocked_of_quiet hq (hartInv_raiseFault h.toHartInv hpend (by decide) _) rfl rfl)
  · split
    · rw [clockedResult_exec hq hq]
      exact answersInv_exec h.toHartInv hr hq _
    · exact answersInv_issueLoad h hh _ _ _ _
    · exact answersInv_issueStore h hh _ _ _ _
    · rename_i hw
      obtain ⟨hb, hf⟩ := resolve_usesBus hw
      exact answersInv_next (inv_clocked_of_quiet hq (hartInv_withHart h.toHartInv hr hpend hf) rfl hb)

theorem answersInv_loadResolve {k : LoadKind} {v : Word} (hh : s.hart = .loadResolve k v) :
    AnswersInv (cycleLoadResolve s k v) := by
  have hr : s.runState = .running := by simp [runState_running_iff, hh]
  have hu := hartInv_writeBack h.toHartInv hr s.loadDest (extendLoad k v)
  exact answersInv_next (inv_clocked_of_quiet (quiet_of_inv h (by rw [hh]; rfl)) hu (writeBack_params _ _ _) rfl)

/-- `ALU_IMM`, `ALU_REG`, `BRANCH_RESOLVE` and `JALR_RESOLVE`, whatever `insn` holds. -/
theorem answersInv_resolve (hb : s.hart.usesBus = false) (hn : s.hart ≠ .fetchRequest) (hf : s.hart ≠ .faulted) :
    AnswersInv (cycleResolve s) := by
  have hq : s.Quiet := quiet_of_inv h hb
  simp only [cycleResolve, State.runWord]
  split
  · rw [clockedResult_exec hq hq]
    exact answersInv_exec h.toHartInv ((runState_running_iff s).mpr hf) hq _
  · exact answersInv_next (inv_clocked_of_quiet hq
      (hartInv_raiseFault h.toHartInv (pending_none_of_inv h hn) (by decide) _) rfl rfl)

theorem answersInv_storeWait {accepted : Bool} (hh : s.hart = .storeWait accepted) :
    AnswersInv (cycleStoreWait s accepted) := by
  obtain rfl := accepted_of_busOk h.busOk hh
  have hr : s.runState = .running := by simp [runState_running_iff, hh]
  have hu := hartInv_withHart h.toHartInv hr (pending_none_of_inv h (by simp [hh])) (st := .storeResolve) (by decide)
  have hn : s.NoRead := (busOk_iff_noRead (.inl hh)).mp h.busOk
  rw [cycleStoreWait, if_pos rfl]
  exact answersInv_next (inv_clocked_of_noRead hn none hu rfl (.inr rfl))

theorem answersInv_storeResolve (hh : s.hart = .storeResolve) : AnswersInv (cycleStoreResolve s) := by
  have hr : s.runState = .running := by simp [runState_running_iff, hh]
  have hn : s.NoRead := (busOk_iff_noRead (.inr hh)).mp h.busOk
  unfold cycleStoreResolve
  split
  case isTrue hready =>
    have hq : s.Quiet := ⟨hn.1, hn.2, by simpa [State.writeReady] using hready⟩
    have hu := hartInv_complete h.toHartInv hr (aligned4_nextPc (h.pcAligned hr))
    exact answersInv_next (inv_clocked_of_quiet hq hu rfl rfl)
  case isFalse =>
    exact answersInv_next (inv_clocked_of_noRead hn none h.toHartInv rfl (.inr hh))

/-- One clock cycle keeps the invariant, in every state of the hart. -/
theorem answersInv_cycle : AnswersInv (cycle s) := by
  unfold cycle
  split
  case h_1 hh => exact answersInv_fetchRequest h hh
  case h_2 hh => exact answersInv_fetchWait h hh
  case h_3 hh => exact answersInv_decode h hh
  case h_4 hh => exact answersInv_loadWait h hh
  case h_5 hh => exact answersInv_loadResolve h hh
  case h_8 hh => exact answersInv_storeWait h hh
  case h_9 hh => exact answersInv_storeResolve h hh
  case h_12 => exact answersInv_next h
  all_goals
    rename_i hh
    exact answersInv_resolve h (by rw [hh]; rfl) (by simp [hh]) (by simp [hh])

theorem answersInv_cycles (n : Nat) : AnswersInv (cycles n s) := by
  induction n generalizing s with
  | zero => exact answersInv_next h
  | succ n ih =>
    cases hc : cycle s with
    | next u =>
      rw [cycles_succ hc]
      exact ih (answersInv_cycle h u hc)
    | fault f => cases f
    | refused r =>
      simp only [cycles, hc]
      exact answersInv_refused r

/-- A step is one clock cycle, or an instruction that some clock cycles compose to. -/
theorem answersInv_step : AnswersInv (step s) := by
  by_cases hb : s.AtBoundary
  · obtain ⟨n, -, -, hn⟩ := cycles_instruction hb
    rw [step_of_boundary hb, ← hn]
    exact answersInv_cycles h n
  · rw [step_of_not_boundary hb]
    exact answersInv_cycle h

theorem answersInv_react (e : Event) : AnswersInv (react e s) := by
  cases e with
  | clock => exact answersInv_cycle h
  | externalReset => exact answersInv_next (inv_externalReset h)

theorem answersInv_reactAll (es : List Event) : AnswersInv (reactAll es s) := by
  induction es generalizing s with
  | nil => exact answersInv_next h
  | cons e es ih =>
    cases hr : react e s with
    | next u =>
      simp only [reactAll, hr]
      exact ih (answersInv_react h e u hr)
    | fault f => cases f
    | refused r =>
      simp only [reactAll, hr]
      exact answersInv_refused r

end

/-! ### The start of a run (R371 to R374) -/

/-- Power-on without an image, with zeros for the draws, is `State.reset` (log 2). -/
theorem reset_eq_powerOn : State.reset = State.powerOn (Vector.replicate 32 0#32) [] Config.resetParams := by
  decide

theorem inv_powerOn (draws : Vector Word 32) {image : List Byte} {p : Params} (hfit : image.length ≤ 2 * memDepth p) :
    (State.powerOn draws image p).Inv := by
  have hbound : ∀ c ∈ bootMemory image, c.1 < 2 * memDepth p := by
    intro c hc
    have := bounded_bootBytes 0 image c hc
    omega
  have hhart : (State.powerOn draws image p).HartInv :=
    ⟨wf_bootMemory image, hbound, fun _ => rfl, iff_of_true rfl rfl, by simp [State.powerOn], fun hp => absurd rfl hp⟩
  exact inv_of_quiet hhart rfl ⟨rfl, rfl, rfl⟩

/-! ### A byte of memory (R62, R63) -/

theorem byteAt_eq_of_even (d : Nat) (m : Memory) {a : Word} (h : a.toNat % 2 = 0) :
    byteAt d m a = laneLo (cellAt d m (a.toNat / 2)) := by
  simp [byteAt, physAddr, cellIndex, h]

theorem byteAt_eq_of_odd (d : Nat) (m : Memory) {a : Word} (h : a.toNat % 2 ≠ 0) :
    byteAt d m a = laneHi (cellAt d m (a.toNat / 2)) := by
  have h1 : a.toNat % 2 = 1 := by omega
  simp [byteAt, physAddr, cellIndex, h1]

/-- Two addresses are one byte when they agree modulo the size of memory (R63). -/
theorem byteAt_eq_of_mod_eq (d : Nat) (m : Memory) {a b : Word} (h : a.toNat % (2 * d) = b.toNat % (2 * d)) :
    byteAt d m a = byteAt d m b := by
  simp only [byteAt, physAddr_eq, h]

theorem cellAt_mod (d : Nat) (m : Memory) (i : Nat) : cellAt d m (i % d) = cellAt d m i := by
  simp only [cellAt, Nat.mod_mod]

/-! ### What one instruction leaves unchanged (R32, R37) -/

/-- A register that is not the destination reads as before. -/
theorem exec_reg_of_ne_dest {i : Instr} {s t : State} (he : exec i s = .next t) {r : RegIdx}
    (hr : destReg i ≠ some r) : t.reg r = s.reg r := by
  cases exec_cases he with
  | writes rd v k dest hd =>
    have hne : r ≠ rd := fun e => hr (e ▸ hd)
    rw [writeBack_reg, if_neg (fun e => hne e.1)]
    rfl
  | advances => rfl
  | stores => rfl
  | branches => rfl
  | jumps rd target hd =>
    have hne : r ≠ rd := fun e => hr (e ▸ hd)
    rw [complete_reg, schedule_reg, if_neg (fun e => hne e.1)]
  | misaligned target =>
    obtain hsame | ⟨hlink, -, -⟩ := raiseTarget_reg s (destReg i) target r
    · exact hsame
    · exact absurd hlink hr

/-- An instruction that is no transfer ends at the next instruction's address. -/
theorem exec_pc_of_not_transfer {i : Instr} {s t : State} (he : exec i s = .next t) (ht : isTransfer i = false) :
    t.pc = s.nextPc := by
  cases exec_cases he with
  | writes => exact writeBack_pc _ _ _
  | advances => rfl
  | stores => rfl
  | branches target _ _ ht' => rw [ht] at ht'; cases ht'
  | jumps rd target _ _ ht' => rw [ht] at ht'; cases ht'
  | misaligned target _ ht' => rw [ht] at ht'; cases ht'

/-- An instruction that completes leaves pc aligned: at the next instruction or at an aligned target. -/
theorem exec_pc_aligned {i : Instr} {s t : State} (he : exec i s = .next t) (hr : t.runState = .running)
    (ha : s.pc.toNat % 4 = 0) : t.pc.toNat % 4 = 0 := by
  have hnext : s.nextPc.toNat % 4 = 0 := aligned4_nextPc ha
  cases exec_cases he with
  | writes => rw [writeBack_pc]; exact hnext
  | advances => exact hnext
  | stores => exact hnext
  | branches target _ _ _ htarget => exact htarget
  | jumps rd target _ _ _ htarget => exact htarget
  | misaligned target => exact absurd (raiseTarget_hart _ _ _) ((runState_running_iff _).mp hr)

end Sys2Proof.Machine

namespace Sys2Proof.Proofs

open Sys2Proof.Machine

/-- Settles O44: each state of the hart keeps the invariant through one clock cycle, and an instruction is
composed of clock cycles. -/
theorem everyStepKeepsTheInvariant : Obligations.EveryStepKeepsTheInvariant :=
  fun _ t h => answersInv_step h t

/-- Settles O45, by induction on the events. -/
theorem everyEventKeepsTheInvariant : Obligations.EveryEventKeepsTheInvariant :=
  fun es _ t h => answersInv_reactAll h es t

/-- Settles O8: a physical address is a lane of a cell, and is the byte address modulo the size of memory. -/
theorem byteIsItsLaneOfItsCell : Obligations.ByteIsItsLaneOfItsCell := by
  intro s a
  refine ⟨?_, fun b => byteAt_eq_of_mod_eq _ s.mem, cellAt_mod _ s.mem⟩
  dsimp only
  split
  case isTrue h => exact byteAt_eq_of_even _ s.mem h
  case isFalse h => exact byteAt_eq_of_odd _ s.mem h

/-- Settles O31: by what the instruction's answer can be; x0 reads 0 in every state. -/
theorem onlyTheDestinationRegisterChanges : Obligations.OnlyTheDestinationRegisterChanges := by
  intro i s t he
  refine ⟨fun r hr => ?_, reg_zero t⟩
  obtain hdest | rfl := hr
  · exact exec_reg_of_ne_dest he hdest
  · rw [reg_zero, reg_zero]

/-- Settles O33: by what the instruction's answer can be. -/
theorem pcAdvancesByFourUnlessTransferred : Obligations.PcAdvancesByFourUnlessTransferred :=
  fun _ _ _ he hr => ⟨exec_pc_of_not_transfer he, exec_pc_aligned he hr⟩

/-- Settles O46: in each state of the hart at least one engine is idle, and both are at a boundary and in
FAULTED. -/
theorem atMostOneTransactionInFlight : Obligations.AtMostOneTransactionInFlight := by
  intro s h
  refine ⟨inFlight_le_one (idle_of_busOk h.busOk), fun hh => ?_, fun hf => ?_⟩
  · exact ⟨hh, quiet_of_inv h (by rw [hh]; rfl)⟩
  · have hh := (runState_faulted_iff s).mp hf
    exact inFlight_of_quiet (quiet_of_inv h (by rw [hh]; rfl))

/-- Settles O43: `State.reset` is a power-on state without an image. -/
theorem powerOnMeetsTheInvariant : Obligations.PowerOnMeetsTheInvariant := by
  refine ⟨?_, fun draws _ _ hfit => inv_powerOn draws hfit⟩
  rw [reset_eq_powerOn]
  exact inv_powerOn _ (Nat.zero_le _)

end Sys2Proof.Proofs
end

section
/-! PROOFS. Family `20_memory.md`: reads, beats and writes by bytes (O9 to O12), what an access to the UART
region and a store do (O18, O32, O35, O36), the debug surface (O41, O51), and that the hart never waits for
ever (O49). -/

namespace Sys2Proof.Machine

/-! ### A word and its bytes -/

/-- A bit of a word is a bit of the byte it lies in. -/
theorem getLsbD_eq_byteOf (x : Word) (j : Nat) : x.getLsbD j = (byteOf x (j / 8)).getLsbD (j % 8) := by
  have hlt : j % 8 < 8 := Nat.mod_lt j (by decide)
  rw [byteOf, BitVec.getLsbD_extractLsb', Nat.div_add_mod, decide_eq_true hlt, Bool.true_and]

theorem word_eq_of_bytes {x y : Word} (h : ∀ k, byteOf x k = byteOf y k) : x = y := by
  apply BitVec.eq_of_getLsbD_eq
  intro j _
  rw [getLsbD_eq_byteOf x, getLsbD_eq_byteOf y, h]

theorem byteOf_of_le (x : Word) {k : Nat} (hk : 4 ≤ k) : byteOf x k = 0#8 := by
  apply BitVec.eq_of_getLsbD_eq
  intro i _
  simp only [byteOf, BitVec.getLsbD_extractLsb', BitVec.getLsbD_zero]
  rw [BitVec.getLsbD_of_ge _ _ (by omega), Bool.and_false]

@[simp] theorem byteOf_and (x y : Word) (k : Nat) : byteOf (x &&& y) k = byteOf x k &&& byteOf y k :=
  BitVec.extractLsb'_and

theorem getLsbD_wordOfBytes (b0 b1 b2 b3 : Byte) (j : Nat) : (wordOfBytes b0 b1 b2 b3).getLsbD j =
    if j < 8 then b0.getLsbD j else if j < 16 then b1.getLsbD (j - 8)
    else if j < 24 then b2.getLsbD (j - 16) else b3.getLsbD (j - 24) := by
  change (b3 ++ (b2 ++ (b1 ++ b0))).getLsbD j = _
  simp only [BitVec.getLsbD_append]
  grind

theorem byteOf_wordOfBytes (b0 b1 b2 b3 : Byte) (k : Nat) :
    byteOf (wordOfBytes b0 b1 b2 b3) k = ([b0, b1, b2, b3][k]?).getD 0#8 := by
  by_cases hk : k < 4
  · apply BitVec.eq_of_getLsbD_eq
    intro i _
    simp only [byteOf, BitVec.getLsbD_extractLsb', getLsbD_wordOfBytes]
    interval_cases k <;> grind
  · rw [byteOf_of_le _ (Nat.le_of_not_lt hk), List.getElem?_eq_none (Nat.le_of_not_lt hk), Option.getD_none]

/-! ### A read's response by bytes (R70) -/

theorem setWidth_byte (b : Byte) : (b.setWidth 32 : Word) = wordOfBytes b 0#8 0#8 0#8 := by
  apply BitVec.eq_of_getLsbD_eq
  intro j _
  simp only [getLsbD_wordOfBytes, BitVec.getLsbD_setWidth, BitVec.getLsbD_zero]
  grind

theorem setWidth_half (b1 b0 : Byte) : ((b1 ++ b0 : CellWord).setWidth 32 : Word) = wordOfBytes b0 b1 0#8 0#8 := by
  apply BitVec.eq_of_getLsbD_eq
  intro j _
  have happ : (b1 ++ b0 : CellWord).getLsbD j = if j < 8 then b0.getLsbD j else b1.getLsbD (j - 8) :=
    BitVec.getLsbD_append
  simp only [getLsbD_wordOfBytes, BitVec.getLsbD_setWidth, BitVec.getLsbD_zero, happ]
  grind

theorem widthBytes_le_four (w : Width) : widthBytes w ≤ 4 := by cases w <;> decide

/-- Byte `k` of a response is the byte at address `a + k`, and zero above the width (R70, D26). -/
theorem byteOf_memRead {d : Nat} (hd : d ∣ 2 ^ 31) (m : Memory) (w : Width) (a : Word) (k : Nat) :
    byteOf (memRead d m w a) k = if k < widthBytes w then byteAt d m (a + BitVec.ofNat 32 k) else 0#8 := by
  have hword (b3 b2 b1 b0 : Byte) : (b3 ++ (b2 ++ (b1 ++ b0)) : Word) = wordOfBytes b0 b1 b2 b3 := rfl
  have hw := widthBytes_le_four w
  by_cases hk : k < 4
  · rw [memRead_bytes hd]
    interval_cases k <;> cases w <;> simp [setWidth_byte, setWidth_half, hword, byteOf_wordOfBytes, widthBytes]
  · rw [byteOf_of_le _ (Nat.le_of_not_lt hk), if_neg (by omega)]

/-! ### Beats and writes by lanes and bytes (R74, R75) -/

theorem laneLo_applyBeat (d : Nat) (m : Memory) (b : Beat) (i : Nat) :
    laneLo (cellAt d (applyBeat d m b) i) =
      if b.low = true ∧ i % d = b.cell % d then laneLo b.data else laneLo (cellAt d m i) := by
  have hhigh : 2 * (i % d) ≠ 2 * (b.cell % d) + 1 := by omega
  have hlow : 2 * (i % d) = 2 * (b.cell % d) ↔ i % d = b.cell % d := by omega
  simp only [laneLo_cellAt, byte_applyBeat, hhigh, hlow, and_false, if_false]

theorem laneHi_applyBeat (d : Nat) (m : Memory) (b : Beat) (i : Nat) :
    laneHi (cellAt d (applyBeat d m b) i) =
      if b.high = true ∧ i % d = b.cell % d then laneHi b.data else laneHi (cellAt d m i) := by
  have hhigh : 2 * (i % d) + 1 = 2 * (b.cell % d) + 1 ↔ i % d = b.cell % d := by omega
  have hlow : 2 * (i % d) + 1 ≠ 2 * (b.cell % d) := by omega
  simp only [laneHi_cellAt, byte_applyBeat, hhigh, hlow, and_false, if_false]

/-- Addresses less than the size of memory apart are different bytes of it (R63). -/
theorem eq_of_add_mod_eq {n x j k : Nat} (hj : j < n) (hk : k < n) (h : (x + j) % n = (x + k) % n) : j = k :=
  (Nat.ModEq.add_left_cancel' x h).eq_of_lt_of_lt hj hk

/-- After a write, byte `k` of the access holds byte `k` of the value (R75). -/
theorem byteAt_memWrite_of_lt {d : Nat} (hd : d ∣ 2 ^ 31) (h2 : 2 ≤ d) (m : Memory) {w : Width} (a v : Word)
    {k : Nat} (hk : k < widthBytes w) : byteAt d (memWrite d m w a v) (a + BitVec.ofNat 32 k) = byteOf v k := by
  have hw := widthBytes_le_four w
  have hinj (j : Nat) (hj : j < 4) : (a.toNat + k) % (2 * d) = (a.toNat + j) % (2 * d) ↔ k = j :=
    ⟨eq_of_add_mod_eq (by omega) (by omega), fun e => e ▸ rfl⟩
  have h4 : k < 4 := by omega
  rw [byteAt, physAddr_add hd, memWrite_byte h2]
  simp only [hinj 0 (by decide), hinj 1 (by decide), hinj 2 (by decide), hinj 3 (by decide)]
  interval_cases k <;> simp [hk]

/-- A byte that is none of the access's reads as before the write (R75). -/
theorem byteAt_memWrite_of_ne {d : Nat} (hd : d ∣ 2 ^ 31) (h2 : 2 ≤ d) (m : Memory) {w : Width} (a v : Word)
    {b : Word} (hb : ∀ k < widthBytes w, b.toNat % (2 * d) ≠ (a + BitVec.ofNat 32 k).toNat % (2 * d)) :
    byteAt d (memWrite d m w a v) b = byteAt d m b := by
  have hne (k : Nat) (hk : k < widthBytes w) : physAddr d b ≠ (a.toNat + k) % (2 * d) := by
    rw [← physAddr_add hd, physAddr_eq, physAddr_eq]
    exact hb k hk
  have h0 : 0 < widthBytes w := by cases w <;> decide
  rw [byteAt, memWrite_byte h2, if_neg (hne 0 h0), if_neg (fun h => hne 1 h.1 h.2), if_neg (fun h => hne 2 h.1 h.2),
    if_neg (fun h => hne 3 h.1 h.2)]
  rfl

/-- Reading back a write gives the bytes of the value below the width (R77). -/
theorem byteOf_memRead_memWrite {d : Nat} (hd : d ∣ 2 ^ 31) (h2 : 2 ≤ d) (m : Memory) (w : Width) (a v : Word)
    (k : Nat) : byteOf (memRead d (memWrite d m w a v) w a) k = if k < widthBytes w then byteOf v k else 0#8 := by
  rw [byteOf_memRead hd]
  split
  case isTrue hk => exact byteAt_memWrite_of_lt hd h2 m a v hk
  case isFalse => rfl

/-- The bits of a word that an access of a width carries (R77). -/
def widthMask : Width → Word
  | .byte => 0xFF#32
  | .half => 0xFFFF#32
  | .word => 0xFFFFFFFF#32

theorem byteOf_widthMask (w : Width) (k : Nat) : byteOf (widthMask w) k = if k < widthBytes w then 0xFF#8 else 0#8 := by
  have hw := widthBytes_le_four w
  by_cases hk : k < 4
  · interval_cases k <;> cases w <;> decide
  · rw [byteOf_of_le _ (Nat.le_of_not_lt hk), if_neg (by omega)]

/-- Reading back a write gives the value masked to the width (R77). -/
theorem memRead_memWrite {d : Nat} (hd : d ∣ 2 ^ 31) (h2 : 2 ≤ d) (m : Memory) (w : Width) (a v : Word) :
    memRead d (memWrite d m w a v) w a = v &&& widthMask w := by
  apply word_eq_of_bytes
  intro k
  rw [byteOf_memRead_memWrite hd h2, byteOf_and, byteOf_widthMask]
  split
  · exact BitVec.and_allOnes.symm
  · exact BitVec.and_zero.symm

/-! ### Accesses to the UART region (R65) -/

theorem instruction_of_fetchUart {s : State} (ha : s.pc.toNat % 4 = 0) (hu : s.touchesUart s.pc .word = true) :
    instruction s = .refused (.uartAccess .fetch s.pc) := by
  simp [instruction, (aligned4_iff s.pc).mpr ha, hu]

theorem exec_load_of_uart {i : Instr} {k : LoadKind} {rd rs1 : RegIdx} {imm : BitVec 12}
    (hw : hartWork i = .load k rd rs1 imm) {s : State}
    (hu : ¬ ClearOfUart s (s.effAddr rs1 imm) (widthBytes (loadWidth k))) :
    exec i s = .refused (.uartAccess .load (s.effAddr rs1 imm)) :=
  (exec_of_load hw s).trans (load_of_uart (touchesUart_eq_true.mpr hu))

theorem exec_store_of_uart {i : Instr} {w : Width} {rs1 rs2 : RegIdx} {imm : BitVec 12}
    (hw : hartWork i = .store w rs1 rs2 imm) {s : State} (hu : ¬ ClearOfUart s (s.effAddr rs1 imm) (widthBytes w)) :
    exec i s = .refused (.uartAccess .store (s.effAddr rs1 imm)) :=
  (exec_of_store hw s).trans (store_of_uart (touchesUart_eq_true.mpr hu))

/-! ### What an instruction does to memory (R79, R280) -/

/-- Of the next states an instruction can answer, only a store's has another memory. -/
theorem exec_mem_of_not_store {i : Instr} {s t : State} (he : exec i s = .next t) (hs : isStore i = false) :
    t.mem = s.mem := by
  cases exec_cases he with
  | writes => exact writeBack_mem _ _ _
  | advances => rfl
  | stores w a v hd hs' => rw [hs] at hs'; cases hs'
  | branches => rfl
  | jumps rd target => exact schedule_mem s rd s.nextPc
  | misaligned target => exact raiseTarget_mem s _ target

/-- What a store that answers a next state has done. -/
theorem store_next {s t : State} {w : Width} {rs1 rs2 : RegIdx} {imm : BitVec 12}
    (h : s.store w rs1 rs2 imm = .next t) :
    t = State.complete { s with mem := memWrite (memDepth s.params) s.mem w (s.effAddr rs1 imm) (s.reg rs2) }
      s.nextPc := by
  cases hu : s.touchesUart (s.effAddr rs1 imm) w with
  | true => rw [store_of_uart hu] at h; cases h
  | false => rw [store_of_clear hu] at h; cases h; rfl

/-! ### The debug surface (R346, R78) -/

theorem debugView_reg (s : State) (i : RegIdx) : s.debugView.regs[i] = s.reg i := by
  simp [State.debugView]

/-- Applying the pending write-back changes nothing the surface shows (D28). -/
theorem debugView_commit (s : State) : s.commit.debugView = s.debugView := by
  have hreg : s.commit.reg = s.reg := funext (commit_reg s)
  simp [State.debugView, State.runState, hreg]

/-! ### The end of an instruction in a bounded number of cycles (R60, R160) -/

/-- An answer at which an instruction has ended: the next `FETCH_REQUEST`, FAULTED or a refusal. -/
def Ends (r : Result) : Prop :=
  (∃ t, r = .next t ∧ (t.hart = .fetchRequest ∨ t.runState = .faulted)) ∨ ∃ f, r = .refused f

/-- Some number of cycles from 1 to `b` ends the instruction. -/
def EndsWithin (b : Nat) (s : State) : Prop := ∃ n, 0 < n ∧ n ≤ b ∧ Ends (cycles n s)

theorem ends_fetchRequest {t : State} (h : t.hart = .fetchRequest) : Ends (.next t) := .inl ⟨t, rfl, .inl h⟩

theorem ends_faulted {t : State} (h : t.hart = .faulted) : Ends (.next t) :=
  .inl ⟨t, rfl, .inr ((runState_faulted_iff t).mpr h)⟩

theorem ends_refused (f : Refusal) : Ends (.refused f) := .inr ⟨f, rfl⟩

theorem ends_exec (i : Instr) (s : State) : Ends (exec i s) := by
  obtain ⟨t, he⟩ | ⟨k, a, he⟩ := exec_outcome i s <;> rw [he]
  · obtain hh | hh := exec_hart he
    · exact ends_fetchRequest hh
    · exact ends_faulted hh
  · exact ends_refused _

theorem ends_runWord (s : State) (w : Word) : Ends (s.runWord w) := by
  unfold State.runWord
  split
  · exact ends_exec _ _
  · exact ends_faulted rfl

theorem ends_instruction (s : State) : Ends (instruction s) := by
  simp only [instruction]
  split_ifs
  · exact ends_faulted rfl
  · exact ends_refused _
  · exact ends_faulted rfl
  · exact ends_runWord _ _

theorem ends_clockedResult {s : State} {r : Result} (h : Ends r) : Ends (s.clockedResult r) := by
  obtain ⟨t, rfl, hh | hf⟩ | ⟨f, rfl⟩ := h
  · exact ends_fetchRequest hh
  · exact ends_faulted ((runState_faulted_iff t).mp hf)
  · exact ends_refused f

theorem endsWithin_mono {b c : Nat} (hbc : b ≤ c) {s : State} (h : EndsWithin b s) : EndsWithin c s := by
  obtain ⟨n, hpos, hle, hn⟩ := h
  exact ⟨n, hpos, hle.trans hbc, hn⟩

theorem endsWithin_one {s : State} (h : Ends (cycle s)) : EndsWithin 1 s :=
  ⟨1, Nat.one_pos, Nat.le_refl 1, (cycles_one s).symm ▸ h⟩

theorem endsWithin_succ {b : Nat} {s t : State} (hc : cycle s = .next t) (h : EndsWithin b t) :
    EndsWithin (b + 1) s := by
  obtain ⟨n, hpos, hle, hn⟩ := h
  exact ⟨n + 1, Nat.succ_pos n, Nat.succ_le_succ hle, (cycles_succ hc n).symm ▸ hn⟩

/-- How many cycles a read in flight still takes, at most (R68, R71). -/
def ReadEngine.cyclesLeft : ReadEngine → Nat
  | .idle => 0
  | .pipe => 0
  | .collect _ => 1
  | .collect0 _ => 3
  | .collect1 _ _ => 2
  | .collect2 _ _ _ => 1

/-- How many beats a write in flight still has to perform (R73). -/
def WriteEngine.beatsLeft : WriteEngine → Nat
  | .idle => 0
  | .halfUnaligned _ => 1
  | .word _ => 1
  | .wordUnaligned _ => 2
  | .wordUnalignedFish _ => 1

theorem ReadEngine.cyclesLeft_le (e : ReadEngine) : e.cyclesLeft ≤ 3 := by
  cases e <;> simp [ReadEngine.cyclesLeft]

theorem ReadEngine.cyclesLeft_pos {e : ReadEngine} (h : e.request.isSome = true) : 0 < e.cyclesLeft := by
  cases e <;> simp_all [ReadEngine.cyclesLeft, ReadEngine.request]

theorem WriteEngine.beatsLeft_le (e : WriteEngine) : e.beatsLeft ≤ 2 := by
  cases e <;> simp [WriteEngine.beatsLeft]

theorem cyclesLeft_clocked {s : State} (hr : s.Reading) (hn : s.readResponse = none) :
    (s.clocked s none none).readEngine.cyclesLeft < s.readEngine.cyclesLeft := by
  obtain ⟨hread, -⟩ := hr
  rw [clocked_readEngine]
  cases he : s.readEngine with
  | idle => simp [he, ReadEngine.request] at hread
  | pipe => simp [he, ReadEngine.request] at hread
  | collect r => simp [State.readResponse, he] at hn
  | collect0 r => simp [State.readAdvance, he, ReadEngine.cyclesLeft]
  | collect1 r c0 =>
    have hb : r.beats ≠ 2 := by simpa [State.readResponse, he] using hn
    simp [State.readAdvance, he, hb, ReadEngine.cyclesLeft]
  | collect2 r c0 c1 => simp [State.readResponse, he] at hn

theorem beatsLeft_clocked {s : State} (hw : s.writeEngine ≠ .idle) :
    (s.clocked s none none).writeEngine.beatsLeft < s.writeEngine.beatsLeft := by
  rw [clocked_writeEngine]
  cases he : s.writeEngine with
  | idle => exact absurd he hw
  | halfUnaligned => simp [State.writeAdvance, he, WriteEngine.beatsLeft]
  | word => simp [State.writeAdvance, he, WriteEngine.beatsLeft]
  | wordUnaligned => simp [State.writeAdvance, he, WriteEngine.beatsLeft]
  | wordUnalignedFish => simp [State.writeAdvance, he, WriteEngine.beatsLeft]

/-- `FETCH_WAIT` and `LOAD_WAIT` without a response wait one more cycle. -/
theorem cycle_awaitRead {s : State} (hh : s.hart = .fetchWait ∨ s.hart = .loadWait) (hn : s.readResponse = none) :
    cycle s = .next (s.clocked s none none) := by
  obtain hh | hh := hh <;> simp [cycle, hh, cycleFetchWait, cycleLoadWait, hn]

/-- A wait for a read ends in the cycle of its response, after at most `cyclesLeft` of them. -/
theorem endsWithin_awaitRead {b : Nat} {s : State} (h : s.Inv) (hh : s.hart = .fetchWait ∨ s.hart = .loadWait)
    (hresp : ∀ (u : State) (v : Word), u.Inv → u.hart = s.hart → u.readResponse = some v →
      EndsWithin (b + 1) u) :
    EndsWithin (s.readEngine.cyclesLeft + b) s := by
  induction hn : s.readEngine.cyclesLeft using Nat.strong_induction_on generalizing s with
  | _ n ih =>
    have hread : s.Reading := (busOk_iff_reading hh).mp h.busOk
    have hpos : 0 < s.readEngine.cyclesLeft := ReadEngine.cyclesLeft_pos hread.1
    cases hr : s.readResponse with
    | some v => exact endsWithin_mono (by omega) (hresp s v h rfl hr)
    | none =>
      have hlt := cyclesLeft_clocked hread hr
      have hnext := ih _ (hn ▸ hlt) (inv_awaitRead h hh hr) hh hresp rfl
      exact endsWithin_mono (by omega) (endsWithin_succ (cycle_awaitRead hh hr) hnext)

theorem endsWithin_decode {s : State} (h : s.Inv) (hh : s.hart = .decode) : EndsWithin 5 s := by
  have hq : s.Quiet := quiet_of_inv h (by rw [hh]; rfl)
  cases hd : decodeWord s.insn with
  | error e =>
    have hc := cycle_decode_error hq hh hd
    exact endsWithin_mono (by decide) (endsWithin_one (hc ▸ ends_faulted rfl))
  | ok i =>
    obtain ⟨n, hpos, hle, hn⟩ := cycles_decode_exec hq hh hd
    exact ⟨n, hpos, hle, hn ▸ ends_exec i s⟩

theorem endsWithin_fetchWait {s : State} (h : s.Inv) (hh : s.hart = .fetchWait) :
    EndsWithin (s.readEngine.cyclesLeft + 5) s := by
  refine endsWithin_awaitRead h (.inl hh) fun u v hu huh hv => ?_
  have hc : cycle u = cycleFetchWait u := by simp only [cycle, huh, hh]
  rw [cycleFetchWait, hv] at hc
  simp only [] at hc
  split at hc
  · exact endsWithin_mono (by decide) (endsWithin_one (hc ▸ ends_faulted rfl))
  · exact endsWithin_succ hc (endsWithin_decode (answersInv_cycle hu _ hc) rfl)

theorem endsWithin_loadResolve {s : State} {k : LoadKind} {v : Word} (hh : s.hart = .loadResolve k v) :
    EndsWithin 1 s := by
  have hc : cycle s = cycleLoadResolve s k v := by simp only [cycle, hh]
  exact endsWithin_one (hc ▸ ends_fetchRequest rfl)

theorem endsWithin_loadWait {s : State} (h : s.Inv) (hh : s.hart = .loadWait) :
    EndsWithin (s.readEngine.cyclesLeft + 1) s := by
  refine endsWithin_awaitRead h (.inr hh) fun u v hu huh hv => ?_
  have hc : cycle u = cycleLoadWait u := by simp only [cycle, huh, hh]
  rw [cycleLoadWait, hv] at hc
  exact endsWithin_succ hc (endsWithin_loadResolve rfl)

/-- `STORE_RESOLVE` waits one cycle for each beat still to perform. -/
theorem endsWithin_storeResolve {s : State} (hh : s.hart = .storeResolve) :
    EndsWithin (s.writeEngine.beatsLeft + 1) s := by
  induction hn : s.writeEngine.beatsLeft using Nat.strong_induction_on generalizing s with
  | _ n ih =>
    have hc : cycle s = cycleStoreResolve s := by simp only [cycle, hh]
    unfold cycleStoreResolve at hc
    split at hc
    case isTrue => exact endsWithin_mono (by omega) (endsWithin_one (hc ▸ ends_fetchRequest rfl))
    case isFalse hready =>
      have hlt := beatsLeft_clocked (s := s) (by simpa [State.writeReady] using hready)
      have hnext := ih _ (hn ▸ hlt) (s := s.clocked s none none) hh rfl
      exact endsWithin_mono (by omega) (endsWithin_succ hc hnext)

theorem endsWithin_storeWait {s : State} (hh : s.hart = .storeWait true) : EndsWithin 4 s := by
  have hc : cycle s = cycleStoreWait s true := by simp only [cycle, hh]
  rw [cycleStoreWait, if_pos rfl] at hc
  have hle := WriteEngine.beatsLeft_le (s.writeAdvance none).1
  have hresolve := endsWithin_storeResolve (s := s.clocked { s with hart := .storeResolve } none none) rfl
  exact endsWithin_succ hc (endsWithin_mono (Nat.succ_le_succ hle) hresolve)

/-- From every state that meets the invariant the instruction ends within eight cycles: three for a read
and five from `DECODE` (R176). -/
theorem endsWithin_eight {s : State} (h : s.Inv) : EndsWithin 8 s := by
  have hread := s.readEngine.cyclesLeft_le
  have hwrite := s.writeEngine.beatsLeft_le
  have hresolve (hc : cycle s = cycleResolve s) : EndsWithin 8 s :=
    endsWithin_mono (by decide) (endsWithin_one (hc ▸ ends_clockedResult (ends_runWord s s.insn)))
  cases hh : s.hart with
  | fetchRequest =>
    obtain ⟨n, hpos, hle, hn⟩ := cycles_instruction ⟨hh, quiet_of_inv h (by rw [hh]; rfl)⟩
    exact ⟨n, hpos, hle, hn ▸ ends_instruction s⟩
  | fetchWait => exact endsWithin_mono (by omega) (endsWithin_fetchWait h hh)
  | decode => exact endsWithin_mono (by decide) (endsWithin_decode h hh)
  | loadWait => exact endsWithin_mono (by omega) (endsWithin_loadWait h hh)
  | loadResolve k v => exact endsWithin_mono (by decide) (endsWithin_loadResolve hh)
  | aluImm => exact hresolve (by simp only [cycle, hh])
  | aluReg => exact hresolve (by simp only [cycle, hh])
  | storeWait accepted =>
    obtain rfl := accepted_of_busOk h.busOk hh
    exact endsWithin_mono (by decide) (endsWithin_storeWait hh)
  | storeResolve => exact endsWithin_mono (by omega) (endsWithin_storeResolve hh)
  | branchResolve => exact hresolve (by simp only [cycle, hh])
  | jalrResolve => exact hresolve (by simp only [cycle, hh])
  | faulted =>
    have hc : cycle s = .next s := by simp only [cycle, hh]
    exact endsWithin_mono (by decide) (endsWithin_one (hc ▸ ends_faulted hh))

/-! ### Memory during a store (R73, R76, R78) -/

/-- `k` cycles from `s` reach a state whose memory is `m` and whose depth is that of `s`. -/
def ShowsMemory (k : Nat) (s : State) (m : Memory) : Prop :=
  ∃ t, cycles k s = .next t ∧ t.params = s.params ∧ t.mem = m

theorem showsMemory_zero {s : State} {m : Memory} (h : s.mem = m) : ShowsMemory 0 s m := ⟨s, rfl, rfl, h⟩

theorem showsMemory_succ {k : Nat} {s t : State} {m : Memory} (hc : cycle s = .next t) (h : ShowsMemory k t m) :
    ShowsMemory (k + 1) s m := by
  obtain ⟨u, hu, hp, hm⟩ := h
  exact ⟨u, (cycles_succ hc k).trans hu, hp.trans (keepsParams_cycle s t hc), hm⟩

/-- A fetch writes nothing. -/
theorem showsMemory_fetch {s : State} (hb : s.AtBoundary) (ha : s.pc.toNat % 4 = 0)
    (hu : s.touchesUart s.pc .word = false) (hs : isSentinel s.fetchWord = false) {k : Nat} (hk : k ≤ 3) :
    ShowsMemory k s s.mem := by
  have h1 := cycle_fetchRequest hb ha hu
  have h2 := cycle_fetch1 hb.2.2.2
  interval_cases k
  · exact showsMemory_zero rfl
  · exact showsMemory_succ h1 (showsMemory_zero (commit_mem s))
  · exact showsMemory_succ h1 (showsMemory_succ h2 (showsMemory_zero (commit_mem s)))
  · exact ⟨s.fetch3, cycles_fetch3 hb ha hu hs, commit_params s, commit_mem s⟩

/-- From `DECODE` each cycle of a store performs one beat, as long as there is one left. -/
theorem showsMemory_store {s : State} (hq : s.Quiet) (hh : s.hart = .decode) {i : Instr} {w : Width}
    {rs1 rs2 : RegIdx} {imm : BitVec 12} (hd : decodeWord s.insn = .ok i) (hw : hartWork i = .store w rs1 rs2 imm)
    (hu : s.touchesUart (s.effAddr rs1 imm) w = false) {j : Nat}
    (hj : j ≤ if (writeBeats w (s.effAddr rs1 imm) (s.reg rs2)).length = 3 then 4 else 3) :
    ShowsMemory j s (memWriteBeats j (memDepth s.params) s.mem w (s.effAddr rs1 imm) (s.reg rs2)) := by
  have hlen := writeBeats_cases w (s.effAddr rs1 imm) (s.reg rs2)
  have h0 := cycle_decode_store hq hh hd hw
  rw [hu, if_neg Bool.false_ne_true] at h0
  have h1 := cycle_store1 hq w (s.effAddr rs1 imm) (s.reg rs2)
  have h2 := cycle_store2 hq w (s.effAddr rs1 imm) (s.reg rs2)
  have h3 := cycle_store3 hq w (s.effAddr rs1 imm) (s.reg rs2)
  have hall {n : Nat} (hn : 3 ≤ n) : memWrite (memDepth s.params) s.mem w (s.effAddr rs1 imm) (s.reg rs2) =
      memWriteBeats n (memDepth s.params) s.mem w (s.effAddr rs1 imm) (s.reg rs2) :=
    (memWriteBeats_all (by omega)).symm
  have hj4 : j ≤ 4 := by split at hj <;> omega
  interval_cases j
  · exact showsMemory_zero rfl
  · exact showsMemory_succ h0 (showsMemory_zero rfl)
  · exact showsMemory_succ h0 (showsMemory_succ h1 (showsMemory_zero rfl))
  · split at h2 <;>
      exact showsMemory_succ h0 (showsMemory_succ h1 (showsMemory_succ h2 (showsMemory_zero (hall le_rfl))))
  · split at hj
    case isTrue hthree =>
      rw [if_pos hthree] at h2
      exact showsMemory_succ h0 (showsMemory_succ h1 (showsMemory_succ h2 (showsMemory_succ h3
        (showsMemory_zero (hall (by decide))))))
    case isFalse => exact absurd hj (by decide)

theorem referenceSteps_of_store {i : Instr} {w : Width} {rs1 rs2 : RegIdx} {imm : BitVec 12}
    (hw : hartWork i = .store w rs1 rs2 imm) (s : State) (v : Word) : referenceSteps i (accessOdd s i) =
      3 + if (writeBeats w (s.effAddr rs1 imm) v).length = 3 then 4 else 3 := by
  have hodd : accessOdd s i = oddAddr (s.effAddr rs1 imm) := by simp only [accessOdd, hw]
  rw [hodd]
  cases ho : oddAddr (s.effAddr rs1 imm) <;> cases i <;> cases hw <;> simp [referenceSteps, writeBeats, ho]

/-- After `k` cycles of a store from a boundary its first `k - 3` beats are done, or all there are. -/
theorem showsMemory_of_store {s : State} {i : Instr} {w : Width} {rs1 rs2 : RegIdx} {imm : BitVec 12}
    (hb : s.AtBoundary) (ha : s.pc.toNat % 4 = 0) (hf : ClearOfUart s s.pc 4) (hd : decodeWord s.fetchWord = .ok i)
    (hw : hartWork i = .store w rs1 rs2 imm) (hu : ClearOfUart s (s.effAddr rs1 imm) (widthBytes w)) {k : Nat}
    (hk : k ≤ referenceSteps i (accessOdd s i)) :
    ShowsMemory k s (memWriteBeats (k - 3) (memDepth s.params) s.mem w (s.effAddr rs1 imm) (s.reg rs2)) := by
  have hfetch : s.touchesUart s.pc .word = false := touchesUart_eq_false.mpr hf
  have hsentinel := not_sentinel_of_decode hd
  by_cases h3 : k ≤ 3
  · rw [Nat.sub_eq_zero_of_le h3]
    exact showsMemory_fetch hb ha hfetch hsentinel h3
  · obtain ⟨j, rfl⟩ := Nat.exists_eq_add_of_le (Nat.le_of_not_le h3)
    have hea := effAddr_fetch3 s rs1 imm
    have hreg : s.fetch3.reg rs2 = s.reg rs2 := commit_reg s rs2
    have hparams : s.fetch3.params = s.params := commit_params s
    have hmem : s.fetch3.mem = s.mem := commit_mem s
    have hstore := showsMemory_store (s := s.fetch3) (fetch3_quiet hb.2) rfl hd hw (j := j)
    rw [referenceSteps_of_store hw s (s.reg rs2)] at hk
    rw [hea, hreg, hparams, hmem, State.touchesUart, hparams] at hstore
    obtain ⟨t, ht, hp, hm⟩ := hstore (touchesUart_eq_false.mpr hu) (by omega)
    rw [Nat.add_sub_cancel_left]
    exact ⟨t, (cycles_add (cycles_fetch3 hb ha hfetch hsentinel) j).trans ht, hp.trans hparams, hm⟩

theorem debugView_byte_of_mem {s t : State} {m : Memory} (hp : t.params = s.params) (hm : t.mem = m) (a : Word) :
    t.debugView.byte a = byteAt (memDepth s.params) m a := by
  subst hm
  rw [← hp]
  rfl

end Sys2Proof.Machine

namespace Sys2Proof.Proofs

open Sys2Proof.Machine

/-- Settles O9: below the width by the response's bytes, above it because each of its bytes is zero. -/
theorem readAssemblesBytesLittleEndian : Obligations.ReadAssemblesBytesLittleEndian := by
  intro s w a
  have hbyte := byteOf_memRead (memDepth_dvd s.params) s.mem w a
  refine ⟨fun k hk => (hbyte k).trans (if_pos hk), fun j hj => ?_⟩
  have hzero : byteOf (s.memRead w a) (j / 8) = 0#8 := (hbyte (j / 8)).trans (if_neg (by omega))
  rw [getLsbD_eq_byteOf, hzero, BitVec.getLsbD_zero]

/-- Settles O10: the low lane of a cell is an even physical byte and the high lane an odd one. -/
theorem beatWritesMaskedLanes : Obligations.BeatWritesMaskedLanes :=
  fun _ m b i => ⟨laneLo_applyBeat _ m b i, laneHi_applyBeat _ m b i⟩

/-- Settles O11: the bytes of an access are different bytes of memory, which has at least four. -/
theorem writeStoresConsecutiveBytes : Obligations.WriteStoresConsecutiveBytes := by
  intro s w a v
  have hd := memDepth_dvd s.params
  have h2 := two_le_memDepth s.params
  exact ⟨fun _ hk => byteAt_memWrite_of_lt hd h2 s.mem a v hk, fun _ hb => byteAt_memWrite_of_ne hd h2 s.mem a v hb⟩

/-- Settles O12: byte by byte, as `widthMask` says. -/
theorem readAfterWriteReturnsTheValue : Obligations.ReadAfterWriteReturnsTheValue := by
  intro s w a v
  exact (memRead_memWrite (memDepth_dvd s.params) (two_le_memDepth s.params) s.mem w a v).trans (by cases w <;> rfl)

/-- Settles O18: a fetch, a load and a store check the region before they read or write. -/
theorem uartAccessIsRefused : Obligations.UartAccessIsRefused := by
  refine ⟨fun s hb ha hu => ?_, fun s r rs1 imm => ⟨fun hu => ?_, fun hu => ?_, fun hu => ?_⟩⟩
  · rw [step_of_boundary hb]
    exact instruction_of_fetchUart ha (touchesUart_eq_true.mpr hu)
  · exact ⟨exec_load_of_uart (k := .b) rfl hu, exec_load_of_uart (k := .bu) rfl hu,
      exec_store_of_uart (w := .byte) rfl hu⟩
  · exact ⟨exec_load_of_uart (k := .h) rfl hu, exec_load_of_uart (k := .hu) rfl hu,
      exec_store_of_uart (w := .half) rfl hu⟩
  · exact ⟨exec_load_of_uart (k := .w) rfl hu, exec_store_of_uart (w := .word) rfl hu⟩

/-- Settles O32: by what the instruction's answer can be. -/
theorem onlyStoresChangeMemory : Obligations.OnlyStoresChangeMemory :=
  fun _ _ _ he hs => byteAt_congr (exec_mem_of_not_store he hs) (exec_params he)

/-- Settles O35: only loads and stores access memory, and they are refused for nothing but the region. -/
theorem everyInstructionRunsOrTouchesUart : Obligations.EveryInstructionRunsOrTouchesUart := by
  intro i s
  cases hw : hartWork i with
  | inDecode => exact .inl (exec_next_of_noAccess (by simp [hw]) (by simp [hw]) s)
  | resolve h => exact .inl (exec_next_of_noAccess (by simp [hw]) (by simp [hw]) s)
  | load k rd rs1 imm =>
    by_cases hu : ClearOfUart s (s.effAddr rs1 imm) (widthBytes (loadWidth k))
    · exact .inl ⟨_, (exec_of_load hw s).trans (load_of_clear (touchesUart_eq_false.mpr hu))⟩
    · exact .inr (.inl ⟨k, rd, rs1, imm, rfl, hu, exec_load_of_uart hw hu⟩)
  | store w rs1 rs2 imm =>
    by_cases hu : ClearOfUart s (s.effAddr rs1 imm) (widthBytes w)
    · exact .inl ⟨_, (exec_of_store hw s).trans (store_of_clear (touchesUart_eq_false.mpr hu))⟩
    · exact .inr (.inr ⟨w, rs1, rs2, imm, rfl, hu, exec_store_of_uart hw hu⟩)

/-- Settles O36: the fetch reads back the word just written. -/
theorem nextFetchSeesTheStore : Obligations.NextFetchSeesTheStore := by
  intro s t rs1 rs2 imm he hpc
  obtain rfl := store_next he
  have haddr : s.effAddr rs1 imm = s.nextPc := hpc
  have hread := memRead_memWrite (memDepth_dvd s.params) (two_le_memDepth s.params) s.mem .word s.nextPc (s.reg rs2)
  rw [haddr]
  exact hread.trans BitVec.and_allOnes

/-- Settles O41: the surface reads registers as an instruction does, with the pending write merged in. -/
theorem debugSurfaceMergesThePendingWrite : Obligations.DebugSurfaceMergesThePendingWrite := by
  refine ⟨fun s i => ⟨?_, debugView_commit s⟩, fun s i v hi => ?_, fun s => ⟨?_, rfl, rfl, rfl, ?_⟩,
    fun s a i => ⟨rfl, rfl⟩⟩
  · rw [debugView_reg, commit_reg]
  · rw [debugView_reg, schedule_reg, if_pos ⟨rfl, hi⟩]
  · rw [debugView_reg, reg_zero]
  · cases hc : s.faultCode <;> simp [State.debugView, FaultCode.number, hc]

/-- Settles O49: by the hart's state. -/
theorem everyInstructionEndsWithinEightCycles : Obligations.EveryInstructionEndsWithinEightCycles :=
  fun _ h => endsWithin_eight h

/-- Settles O51: `k` cycles show `k - 3` beats, so each number of beats is shown three cycles later. -/
theorem debugSurfaceReadsMemoryBetweenBeats : Obligations.DebugSurfaceReadsMemoryBetweenBeats := by
  intro s i w rs1 rs2 imm hb ha hf hd hw hu
  have hshows {k : Nat} := showsMemory_of_store hb ha hf hd hw hu (k := k)
  have hsteps := referenceSteps_of_store hw s (s.reg rs2)
  have hlen := writeBeats_cases w (s.effAddr rs1 imm) (s.reg rs2)
  refine ⟨fun k hk => ?_, fun j hj => ?_⟩
  · obtain ⟨t, ht, hp, hm⟩ := hshows hk
    by_cases hj : k - 3 ≤ (writeBeats w (s.effAddr rs1 imm) (s.reg rs2)).length
    · exact ⟨k - 3, t, ht, hj, debugView_byte_of_mem hp hm⟩
    · rw [memWriteBeats_all (Nat.le_of_not_le hj), ← memWriteBeats_all le_rfl] at hm
      exact ⟨_, t, ht, le_rfl, debugView_byte_of_mem hp hm⟩
  · have hk : j + 3 ≤ referenceSteps i (accessOdd s i) := by rw [hsteps]; split <;> omega
    obtain ⟨t, ht, hp, hm⟩ := hshows hk
    exact ⟨j + 3, t, hk, ht, debugView_byte_of_mem hp hm⟩

end Sys2Proof.Proofs
end

section
/-! PROOFS. Family `30_encoding.md`: the decoder and the encoder are inverse (O1, O2), the decoder reads the
opcode table and the fields that the formats name (O3 to O5, O7), the spec's examples (O6), and what a step
makes of the fetched word (O14 to O16, O40). -/

namespace Sys2Proof

/-! ### Decoding an encoded instruction (R121, R122, R126) -/

theorem decodeWord_encode {i : Instr} (h : WellFormed i) : decodeWord (encode i) = .ok i := by
  cases i with
  | lb => exact Laws.Encoding.lb _ _ _ h
  | lh => exact Laws.Encoding.lh _ _ _ h
  | lw => exact Laws.Encoding.lw _ _ _ h
  | lbu => exact Laws.Encoding.lbu _ _ _ h
  | lhu => exact Laws.Encoding.lhu _ _ _ h
  | fence => exact Laws.Encoding.fence _ _ _ _ _ h
  | addi => exact Laws.Encoding.addi _ _ _ h
  | slti => exact Laws.Encoding.slti _ _ _ h
  | sltiu => exact Laws.Encoding.sltiu _ _ _ h
  | xori => exact Laws.Encoding.xori _ _ _ h
  | ori => exact Laws.Encoding.ori _ _ _ h
  | andi => exact Laws.Encoding.andi _ _ _ h
  | slli => exact Laws.Encoding.slli _ _ _ h
  | srli => exact Laws.Encoding.srli _ _ _ h
  | srai => exact Laws.Encoding.srai _ _ _ h
  | add => exact Laws.Encoding.add _ _ _ h
  | sub => exact Laws.Encoding.sub _ _ _ h
  | sll => exact Laws.Encoding.sll _ _ _ h
  | slt => exact Laws.Encoding.slt _ _ _ h
  | sltu => exact Laws.Encoding.sltu _ _ _ h
  | xor => exact Laws.Encoding.xor _ _ _ h
  | srl => exact Laws.Encoding.srl _ _ _ h
  | sra => exact Laws.Encoding.sra _ _ _ h
  | or => exact Laws.Encoding.or _ _ _ h
  | and => exact Laws.Encoding.and _ _ _ h
  | lui => exact Laws.Encoding.lui _ _ h
  | auipc => exact Laws.Encoding.auipc _ _ h
  | sb => exact Laws.Encoding.sb _ _ _ h
  | sh => exact Laws.Encoding.sh _ _ _ h
  | sw => exact Laws.Encoding.sw _ _ _ h
  | beq => exact Laws.Encoding.beq _ _ _ h
  | bne => exact Laws.Encoding.bne _ _ _ h
  | blt => exact Laws.Encoding.blt _ _ _ h
  | bge => exact Laws.Encoding.bge _ _ _ h
  | bltu => exact Laws.Encoding.bltu _ _ _ h
  | bgeu => exact Laws.Encoding.bgeu _ _ _ h
  | jal => exact Laws.Encoding.jal _ _ h
  | jalr => exact Laws.Encoding.jalr _ _ _ h
  | ecall => exact Laws.Encoding.ecall h
  | ebreak => exact Laws.Encoding.ebreak h

/-- A word that is known to be an instruction's encoding decodes to it, with no look into the decoder. -/
theorem decodeWord_of_encode {w : Word} {i : Instr} (hi : WellFormed i) (h : encode i = w) : decodeWord w = .ok i :=
  h ▸ decodeWord_encode hi

/-! ### Encoding a decoded word (R127) -/

/-- An answer of the decoder for `w`, if it is an instruction, is one whose encoding is `w`. -/
def Faithful (w : Word) (r : DecodeResult) : Prop := ∀ i, r = .ok i → WellFormed i ∧ encode i = w

theorem faithful_ok {w : Word} {i : Instr} (hi : WellFormed i) (h : encode i = w) : Faithful w (.ok i) := by
  rintro j ⟨⟩; exact ⟨hi, h⟩

theorem faithful_error (w : Word) (e : DecodeError) : Faithful w (.error e) := by
  rintro i ⟨⟩

theorem faithful_ite {w : Word} {c : Prop} [Decidable c] {a b : DecodeResult} (ha : c → Faithful w a)
    (hb : ¬ c → Faithful w b) : Faithful w (if c then a else b) := by
  split
  case isTrue h => exact ha h
  case isFalse h => exact hb h

/-- The offset of a BRANCH word is one that a branch can have. -/
theorem branchOffsetOk_fieldImmB (w : Word) : branchOffsetOk (fieldImmB w) = true := by
  rw [branchOffsetOk, fieldImmB_even]; rfl

/-- The offset of a JAL word is one that a JAL can have. -/
theorem jumpOffsetOk_fieldImmJ (w : Word) : jumpOffsetOk (fieldImmJ w) = true := by
  rw [jumpOffsetOk, fieldImmJ_even]; rfl

/-- A FENCE word from the fields that the decoder's test has fixed (R220). -/
theorem encode_fence_of {w : Word} (h3 : fieldFunct3 w = 0b000#3) (ho : fieldOpcode w = 0x0F#7) :
    encode (.fence (fieldRd w) (fieldRs1 w) (w.extractLsb' 28 4) (w.extractLsb' 24 4) (w.extractLsb' 20 4)) = w := by
  rw [encode, fieldImmI_fence]; exact encodeI_of h3 ho

theorem faithful_decodeLoad {w : Word} (ho : fieldOpcode w = 0x03#7) : Faithful w (decodeLoad w) :=
  faithful_ite (fun lb => faithful_ok rfl (encodeI_of lb ho)) fun _ =>
  faithful_ite (fun lh => faithful_ok rfl (encodeI_of lh ho)) fun _ =>
  faithful_ite (fun lw => faithful_ok rfl (encodeI_of lw ho)) fun _ =>
  faithful_ite (fun lbu => faithful_ok rfl (encodeI_of lbu ho)) fun _ =>
  faithful_ite (fun lhu => faithful_ok rfl (encodeI_of lhu ho)) fun _ =>
  faithful_error w _

theorem faithful_decodeMiscMem {w : Word} (ho : fieldOpcode w = 0x0F#7) : Faithful w (decodeMiscMem w) :=
  faithful_ite (fun fence => faithful_ok rfl (encode_fence_of fence ho)) fun _ =>
  faithful_error w _

theorem faithful_decodeOpImm {w : Word} (ho : fieldOpcode w = 0x13#7) : Faithful w (decodeOpImm w) :=
  faithful_ite (fun addi => faithful_ok rfl (encodeI_of addi ho)) fun _ =>
  faithful_ite (fun slti => faithful_ok rfl (encodeI_of slti ho)) fun _ =>
  faithful_ite (fun sltiu => faithful_ok rfl (encodeI_of sltiu ho)) fun _ =>
  faithful_ite (fun xori => faithful_ok rfl (encodeI_of xori ho)) fun _ =>
  faithful_ite (fun ori => faithful_ok rfl (encodeI_of ori ho)) fun _ =>
  faithful_ite (fun andi => faithful_ok rfl (encodeI_of andi ho)) fun _ =>
  faithful_ite (fun slli => faithful_ok rfl (encodeShift_of slli.1 ho slli.2)) fun _ =>
  faithful_ite (fun srli => faithful_ok rfl (encodeShift_of srli.1 ho srli.2)) fun _ =>
  faithful_ite (fun srai => faithful_ok rfl (encodeShift_of srai.1 ho srai.2)) fun _ =>
  faithful_error w _

theorem faithful_decodeOp {w : Word} (ho : fieldOpcode w = 0x33#7) : Faithful w (decodeOp w) :=
  faithful_ite (fun h7 =>
    faithful_ite (fun add => faithful_ok rfl (encodeR_of add ho h7)) fun hadd =>
    faithful_ite (fun sll => faithful_ok rfl (encodeR_of sll ho h7)) fun hsll =>
    faithful_ite (fun slt => faithful_ok rfl (encodeR_of slt ho h7)) fun hslt =>
    faithful_ite (fun sltu => faithful_ok rfl (encodeR_of sltu ho h7)) fun hsltu =>
    faithful_ite (fun xor => faithful_ok rfl (encodeR_of xor ho h7)) fun hxor =>
    faithful_ite (fun srl => faithful_ok rfl (encodeR_of srl ho h7)) fun hsrl =>
    faithful_ite (fun or => faithful_ok rfl (encodeR_of or ho h7)) fun hor =>
    faithful_ok rfl (encodeR_of (funct3_last _ hadd hsll hslt hsltu hxor hsrl hor) ho h7)) fun _ =>
  faithful_ite (fun sub => faithful_ok rfl (encodeR_of sub.2 ho sub.1)) fun _ =>
  faithful_ite (fun sra => faithful_ok rfl (encodeR_of sra.2 ho sra.1)) fun _ =>
  faithful_error w _

theorem faithful_decodeStore {w : Word} (ho : fieldOpcode w = 0x23#7) : Faithful w (decodeStore w) :=
  faithful_ite (fun sb => faithful_ok rfl (encodeS_of sb ho)) fun _ =>
  faithful_ite (fun sh => faithful_ok rfl (encodeS_of sh ho)) fun _ =>
  faithful_ite (fun sw => faithful_ok rfl (encodeS_of sw ho)) fun _ =>
  faithful_error w _

theorem faithful_decodeBranch {w : Word} (ho : fieldOpcode w = 0x63#7) : Faithful w (decodeBranch w) :=
  have even := branchOffsetOk_fieldImmB w
  faithful_ite (fun beq => faithful_ok even (encodeB_of beq ho)) fun _ =>
  faithful_ite (fun bne => faithful_ok even (encodeB_of bne ho)) fun _ =>
  faithful_ite (fun blt => faithful_ok even (encodeB_of blt ho)) fun _ =>
  faithful_ite (fun bge => faithful_ok even (encodeB_of bge ho)) fun _ =>
  faithful_ite (fun bltu => faithful_ok even (encodeB_of bltu ho)) fun _ =>
  faithful_ite (fun bgeu => faithful_ok even (encodeB_of bgeu ho)) fun _ =>
  faithful_error w _

theorem faithful_decodeJalr {w : Word} (ho : fieldOpcode w = 0x67#7) : Faithful w (decodeJalr w) :=
  faithful_ite (fun jalr => faithful_ok rfl (encodeI_of jalr ho)) fun _ =>
  faithful_error w _

theorem faithful_decodeSystem (w : Word) : Faithful w (decodeSystem w) :=
  faithful_ite (fun ecall => faithful_ok rfl ecall.symm) fun _ =>
  faithful_ite (fun ebreak => faithful_ok rfl ebreak.symm) fun _ =>
  faithful_error w _

theorem faithful_decodeWord (w : Word) : Faithful w (decodeWord w) :=
  faithful_ite faithful_decodeLoad fun _ =>
  faithful_ite faithful_decodeMiscMem fun _ =>
  faithful_ite faithful_decodeOpImm fun _ =>
  faithful_ite (fun auipc => faithful_ok rfl (encodeU_of auipc)) fun _ =>
  faithful_ite faithful_decodeStore fun _ =>
  faithful_ite faithful_decodeOp fun _ =>
  faithful_ite (fun lui => faithful_ok rfl (encodeU_of lui)) fun _ =>
  faithful_ite faithful_decodeBranch fun _ =>
  faithful_ite faithful_decodeJalr fun _ =>
  faithful_ite (fun jal => faithful_ok (jumpOffsetOk_fieldImmJ w) (encodeJ_fields w jal)) fun _ =>
  faithful_ite (fun _ => faithful_decodeSystem w) fun _ =>
  faithful_error w _

/-! ### An encoded instruction matches its row (R126, R127) -/

/-- The opcode table has a row with the instruction's mnemonic that its encoding matches. -/
def Instr.MatchesItsRow (i : Instr) : Prop :=
  ∃ r ∈ opcodeTable, r.matches (encode i) = true ∧ r.mnemonic = i.mnemonic

/-- The row whose match is what the instruction's encoding leaves under the row's mask. -/
theorem matchesItsRow_of_mask {i : Instr} (name : String) {mask bits : Word} (hn : name = i.mnemonic)
    (hrow : ⟨name, bits, mask⟩ ∈ opcodeTable) (hb : encode i &&& mask = bits) : i.MatchesItsRow :=
  ⟨_, hrow, beq_iff_eq.mpr hb, hn⟩

theorem encodeI_and_mask (imm : BitVec 12) (rs1 : RegIdx) (f3 : BitVec 3) (rd : RegIdx) (op : BitVec 7) :
    encodeI imm rs1 f3 rd op &&& 0x0000707F#32 = 0#17 ++ (f3 ++ (0#5 ++ op)) := by
  rw [mask_funct3, fieldFunct3_encodeI, fieldOpcode_encodeI]

theorem encodeS_and_mask (imm : BitVec 12) (rs2 rs1 : RegIdx) (f3 : BitVec 3) :
    encodeS imm rs2 rs1 f3 &&& 0x0000707F#32 = 0#17 ++ (f3 ++ (0#5 ++ 0x23#7)) := by
  rw [mask_funct3, fieldFunct3_encodeS, fieldOpcode_encodeS]

theorem encodeB_and_mask (offset : BitVec 13) (rs2 rs1 : RegIdx) (f3 : BitVec 3) :
    encodeB offset rs2 rs1 f3 &&& 0x0000707F#32 = 0#17 ++ (f3 ++ (0#5 ++ 0x63#7)) := by
  rw [mask_funct3, fieldFunct3_encodeB, fieldOpcode_encodeB]

theorem encodeR_and_mask (f7 : BitVec 7) (rs2 rs1 : RegIdx) (f3 : BitVec 3) (rd : RegIdx) (op : BitVec 7) :
    encodeR f7 rs2 rs1 f3 rd op &&& 0xFE00707F#32 = f7 ++ (0#10 ++ (f3 ++ (0#5 ++ op))) := by
  rw [mask_funct7, fieldFunct7_encodeR, fieldFunct3_encodeR, fieldOpcode_encodeR]

theorem encodeShift_and_mask (f7 : BitVec 7) (shamt : BitVec 5) (rs1 : RegIdx) (f3 : BitVec 3) (rd : RegIdx) :
    encodeShift f7 shamt rs1 f3 rd &&& 0xFE00707F#32 = f7 ++ (0#10 ++ (f3 ++ (0#5 ++ 0x13#7))) := by
  rw [mask_funct7, fieldFunct7_encodeShift, fieldFunct3_encodeShift, fieldOpcode_encodeShift]

theorem encodeU_and_mask (imm : BitVec 20) (rd : RegIdx) (op : BitVec 7) :
    encodeU imm rd op &&& 0x0000007F#32 = 0#25 ++ op := by
  rw [mask_opcode, fieldOpcode_encodeU]

theorem encodeJ_and_mask (offset : BitVec 21) (rd : RegIdx) :
    encodeJ offset rd &&& 0x0000007F#32 = 0#25 ++ 0x6F#7 := by
  rw [mask_opcode, fieldOpcode_encodeJ]

theorem matchesItsRow (i : Instr) : i.MatchesItsRow := by
  cases i with
  | lb => exact matchesItsRow_of_mask "LB" rfl (by decide) (encodeI_and_mask ..)
  | lh => exact matchesItsRow_of_mask "LH" rfl (by decide) (encodeI_and_mask ..)
  | lw => exact matchesItsRow_of_mask "LW" rfl (by decide) (encodeI_and_mask ..)
  | lbu => exact matchesItsRow_of_mask "LBU" rfl (by decide) (encodeI_and_mask ..)
  | lhu => exact matchesItsRow_of_mask "LHU" rfl (by decide) (encodeI_and_mask ..)
  | fence => exact matchesItsRow_of_mask "FENCE" rfl (by decide) (encodeI_and_mask ..)
  | addi => exact matchesItsRow_of_mask "ADDI" rfl (by decide) (encodeI_and_mask ..)
  | slti => exact matchesItsRow_of_mask "SLTI" rfl (by decide) (encodeI_and_mask ..)
  | sltiu => exact matchesItsRow_of_mask "SLTIU" rfl (by decide) (encodeI_and_mask ..)
  | xori => exact matchesItsRow_of_mask "XORI" rfl (by decide) (encodeI_and_mask ..)
  | ori => exact matchesItsRow_of_mask "ORI" rfl (by decide) (encodeI_and_mask ..)
  | andi => exact matchesItsRow_of_mask "ANDI" rfl (by decide) (encodeI_and_mask ..)
  | slli => exact matchesItsRow_of_mask "SLLI" rfl (by decide) (encodeShift_and_mask ..)
  | srli => exact matchesItsRow_of_mask "SRLI" rfl (by decide) (encodeShift_and_mask ..)
  | srai => exact matchesItsRow_of_mask "SRAI" rfl (by decide) (encodeShift_and_mask ..)
  | add => exact matchesItsRow_of_mask "ADD" rfl (by decide) (encodeR_and_mask ..)
  | sub => exact matchesItsRow_of_mask "SUB" rfl (by decide) (encodeR_and_mask ..)
  | sll => exact matchesItsRow_of_mask "SLL" rfl (by decide) (encodeR_and_mask ..)
  | slt => exact matchesItsRow_of_mask "SLT" rfl (by decide) (encodeR_and_mask ..)
  | sltu => exact matchesItsRow_of_mask "SLTU" rfl (by decide) (encodeR_and_mask ..)
  | xor => exact matchesItsRow_of_mask "XOR" rfl (by decide) (encodeR_and_mask ..)
  | srl => exact matchesItsRow_of_mask "SRL" rfl (by decide) (encodeR_and_mask ..)
  | sra => exact matchesItsRow_of_mask "SRA" rfl (by decide) (encodeR_and_mask ..)
  | or => exact matchesItsRow_of_mask "OR" rfl (by decide) (encodeR_and_mask ..)
  | and => exact matchesItsRow_of_mask "AND" rfl (by decide) (encodeR_and_mask ..)
  | lui => exact matchesItsRow_of_mask "LUI" rfl (by decide) (encodeU_and_mask ..)
  | auipc => exact matchesItsRow_of_mask "AUIPC" rfl (by decide) (encodeU_and_mask ..)
  | sb => exact matchesItsRow_of_mask "SB" rfl (by decide) (encodeS_and_mask ..)
  | sh => exact matchesItsRow_of_mask "SH" rfl (by decide) (encodeS_and_mask ..)
  | sw => exact matchesItsRow_of_mask "SW" rfl (by decide) (encodeS_and_mask ..)
  | beq => exact matchesItsRow_of_mask "BEQ" rfl (by decide) (encodeB_and_mask ..)
  | bne => exact matchesItsRow_of_mask "BNE" rfl (by decide) (encodeB_and_mask ..)
  | blt => exact matchesItsRow_of_mask "BLT" rfl (by decide) (encodeB_and_mask ..)
  | bge => exact matchesItsRow_of_mask "BGE" rfl (by decide) (encodeB_and_mask ..)
  | bltu => exact matchesItsRow_of_mask "BLTU" rfl (by decide) (encodeB_and_mask ..)
  | bgeu => exact matchesItsRow_of_mask "BGEU" rfl (by decide) (encodeB_and_mask ..)
  | jal => exact matchesItsRow_of_mask "JAL" rfl (by decide) (encodeJ_and_mask ..)
  | jalr => exact matchesItsRow_of_mask "JALR" rfl (by decide) (encodeI_and_mask ..)
  | ecall => exact ⟨⟨"ECALL", 0x00000073#32, 0xFFFFFFFF#32⟩, by decide, rfl, rfl⟩
  | ebreak => exact ⟨⟨"EBREAK", 0x00100073#32, 0xFFFFFFFF#32⟩, by decide, rfl, rfl⟩

/-- A word that decodes matches a row with its instruction's mnemonic. -/
theorem matches_of_decode {w : Word} {i : Instr} (h : decodeWord w = .ok i) :
    ∃ r ∈ opcodeTable, r.matches w = true ∧ r.mnemonic = i.mnemonic := by
  obtain ⟨-, rfl⟩ := faithful_decodeWord w i h
  exact matchesItsRow i

/-! ### A word that matches a row is the encoding of its fields (R121, R122, R127) -/

theorem encodeI_of_mask {w v : Word} {f3 : BitVec 3} {op : BitVec 7} (h : w &&& 0x0000707F#32 = v)
    (h3 : fieldFunct3 v = f3) (ho : fieldOpcode v = op) :
    encodeI (fieldImmI w) (fieldRs1 w) f3 (fieldRd w) op = w :=
  have ⟨wo, w3⟩ := fields_of_funct3_mask h
  encodeI_of (w3.trans h3) (wo.trans ho)

theorem encodeS_of_mask {w v : Word} {f3 : BitVec 3} (h : w &&& 0x0000707F#32 = v)
    (h3 : fieldFunct3 v = f3) (ho : fieldOpcode v = 0x23#7) :
    encodeS (fieldImmS w) (fieldRs2 w) (fieldRs1 w) f3 = w :=
  have ⟨wo, w3⟩ := fields_of_funct3_mask h
  encodeS_of (w3.trans h3) (wo.trans ho)

theorem encodeB_of_mask {w v : Word} {f3 : BitVec 3} (h : w &&& 0x0000707F#32 = v)
    (h3 : fieldFunct3 v = f3) (ho : fieldOpcode v = 0x63#7) :
    encodeB (fieldImmB w) (fieldRs2 w) (fieldRs1 w) f3 = w :=
  have ⟨wo, w3⟩ := fields_of_funct3_mask h
  encodeB_of (w3.trans h3) (wo.trans ho)

theorem encodeR_of_mask {w v : Word} {f3 : BitVec 3} {op f7 : BitVec 7} (h : w &&& 0xFE00707F#32 = v)
    (h7 : fieldFunct7 v = f7) (h3 : fieldFunct3 v = f3) (ho : fieldOpcode v = op) :
    encodeR f7 (fieldRs2 w) (fieldRs1 w) f3 (fieldRd w) op = w :=
  have ⟨wo, w3, w7⟩ := fields_of_funct7_mask h
  encodeR_of (w3.trans h3) (wo.trans ho) (w7.trans h7)

theorem encodeShift_of_mask {w v : Word} {f3 : BitVec 3} {f7 : BitVec 7} (h : w &&& 0xFE00707F#32 = v)
    (h7 : fieldFunct7 v = f7) (h3 : fieldFunct3 v = f3) (ho : fieldOpcode v = 0x13#7) :
    encodeShift f7 (fieldShamt w) (fieldRs1 w) f3 (fieldRd w) = w :=
  have ⟨wo, w3, w7⟩ := fields_of_funct7_mask h
  encodeShift_of (w3.trans h3) (wo.trans ho) (w7.trans h7)

theorem encodeU_of_mask {w v : Word} {op : BitVec 7} (h : w &&& 0x0000007F#32 = v) (ho : fieldOpcode v = op) :
    encodeU (fieldImmU w) (fieldRd w) op = w :=
  encodeU_of ((fields_of_opcode_mask h).trans ho)

/-- A register field by its place in the word's value. -/
theorem val_regOfBits (w : Word) (k : Nat) : (regOfBits (w.extractLsb' k 5)).val = w.toNat / 2 ^ k % 32 := by
  simp only [regOfBits, BitVec.extractLsb'_toNat, Nat.shiftRight_eq_div_pow]

end Sys2Proof

namespace Sys2Proof.Proofs

open Sys2Proof.Machine

/-- Settles O1: each instruction by the fields of its layout, its bytes by the word they make. -/
theorem decodeOfEncodeIsTheInstruction : Obligations.DecodeOfEncodeIsTheInstruction := by
  intro i hi
  have hw := decodeWord_encode hi
  refine ⟨hw, fun rest => ?_⟩
  rw [encodeBytes, decode_bytesOfWord, hw]

/-- Settles O2: by the branches of the decoder, each of which fixes the fields it does not hand on. -/
theorem encodeOfDecodeIsTheWord : Obligations.EncodeOfDecodeIsTheWord := faithful_decodeWord

/-- Settles O4: a word that matches a row is the encoding of the row's instruction with the word's fields. -/
theorem everyRowDecodesToItsFields : Obligations.EveryRowDecodesToItsFields := by
  refine ⟨fun w rd rs1 rs2 hrd hrs1 hrs2 => ?_, by decide, by decide⟩
  obtain rfl : rd = fieldRd w := Fin.ext (hrd.trans (val_regOfBits w 7).symm)
  obtain rfl : rs1 = fieldRs1 w := Fin.ext (hrs1.trans (val_regOfBits w 15).symm)
  obtain rfl : rs2 = fieldRs2 w := Fin.ext (hrs2.trans (val_regOfBits w 20).symm)
  have evenB := branchOffsetOk_fieldImmB w
  have evenJ := jumpOffsetOk_fieldImmJ w
  exact ⟨
    fun lb => decodeWord_of_encode rfl (encodeI_of_mask lb rfl rfl),
    fun lh => decodeWord_of_encode rfl (encodeI_of_mask lh rfl rfl),
    fun lw => decodeWord_of_encode rfl (encodeI_of_mask lw rfl rfl),
    fun lbu => decodeWord_of_encode rfl (encodeI_of_mask lbu rfl rfl),
    fun lhu => decodeWord_of_encode rfl (encodeI_of_mask lhu rfl rfl),
    fun fence => have ⟨ho, h3⟩ := fields_of_funct3_mask fence
      decodeWord_of_encode rfl (encode_fence_of h3 ho),
    fun addi => decodeWord_of_encode rfl (encodeI_of_mask addi rfl rfl),
    fun slti => decodeWord_of_encode rfl (encodeI_of_mask slti rfl rfl),
    fun sltiu => decodeWord_of_encode rfl (encodeI_of_mask sltiu rfl rfl),
    fun xori => decodeWord_of_encode rfl (encodeI_of_mask xori rfl rfl),
    fun ori => decodeWord_of_encode rfl (encodeI_of_mask ori rfl rfl),
    fun andi => decodeWord_of_encode rfl (encodeI_of_mask andi rfl rfl),
    fun slli => decodeWord_of_encode rfl (encodeShift_of_mask slli rfl rfl rfl),
    fun srli => decodeWord_of_encode rfl (encodeShift_of_mask srli rfl rfl rfl),
    fun srai => decodeWord_of_encode rfl (encodeShift_of_mask srai rfl rfl rfl),
    fun add => decodeWord_of_encode rfl (encodeR_of_mask add rfl rfl rfl),
    fun sub => decodeWord_of_encode rfl (encodeR_of_mask sub rfl rfl rfl),
    fun sll => decodeWord_of_encode rfl (encodeR_of_mask sll rfl rfl rfl),
    fun slt => decodeWord_of_encode rfl (encodeR_of_mask slt rfl rfl rfl),
    fun sltu => decodeWord_of_encode rfl (encodeR_of_mask sltu rfl rfl rfl),
    fun xor => decodeWord_of_encode rfl (encodeR_of_mask xor rfl rfl rfl),
    fun srl => decodeWord_of_encode rfl (encodeR_of_mask srl rfl rfl rfl),
    fun sra => decodeWord_of_encode rfl (encodeR_of_mask sra rfl rfl rfl),
    fun or => decodeWord_of_encode rfl (encodeR_of_mask or rfl rfl rfl),
    fun and => decodeWord_of_encode rfl (encodeR_of_mask and rfl rfl rfl),
    fun lui => decodeWord_of_encode rfl (encodeU_of_mask lui rfl),
    fun auipc => decodeWord_of_encode rfl (encodeU_of_mask auipc rfl),
    fun sb => decodeWord_of_encode rfl (encodeS_of_mask sb rfl rfl),
    fun sh => decodeWord_of_encode rfl (encodeS_of_mask sh rfl rfl),
    fun sw => decodeWord_of_encode rfl (encodeS_of_mask sw rfl rfl),
    fun beq => decodeWord_of_encode evenB (encodeB_of_mask beq rfl rfl),
    fun bne => decodeWord_of_encode evenB (encodeB_of_mask bne rfl rfl),
    fun blt => decodeWord_of_encode evenB (encodeB_of_mask blt rfl rfl),
    fun bge => decodeWord_of_encode evenB (encodeB_of_mask bge rfl rfl),
    fun bltu => decodeWord_of_encode evenB (encodeB_of_mask bltu rfl rfl),
    fun bgeu => decodeWord_of_encode evenB (encodeB_of_mask bgeu rfl rfl),
    fun jal => decodeWord_of_encode evenJ (encodeJ_fields w (fields_of_opcode_mask jal)),
    fun jalr => decodeWord_of_encode rfl (encodeI_of_mask jalr rfl rfl)⟩

end Sys2Proof.Proofs

namespace Sys2Proof

open Sys2Proof.Machine

/-! ### The rows of the opcode table (R127, R131) -/

/-- Mnemonics name rows. -/
theorem eq_of_mnemonic_eq {r q : OpcodeRow} (hr : r ∈ opcodeTable) (hq : q ∈ opcodeTable)
    (h : r.mnemonic = q.mnemonic) : r = q :=
  have hnodup : (opcodeTable.map OpcodeRow.mnemonic).Nodup := by decide
  List.inj_on_of_nodup_map hnodup hr hq h

/-- Every row fixes the low two bits at 11 (R129). -/
theorem row_low_bits : ∀ r ∈ opcodeTable,
    r.maskBits.extractLsb' 0 2 = 0b11#2 ∧ r.matchBits.extractLsb' 0 2 = 0b11#2 := by
  decide

/-- A word that decodes has 11 in its low two bits. -/
theorem low_bits_of_decode {w : Word} {i : Instr} (h : decodeWord w = .ok i) : w.extractLsb' 0 2 = 0b11#2 := by
  obtain ⟨r, hr, hm, -⟩ := matches_of_decode h
  obtain ⟨hmask, hmatch⟩ := row_low_bits r hr
  calc w.extractLsb' 0 2
    _ = w.extractLsb' 0 2 &&& 0b11#2 := BitVec.and_allOnes.symm
    _ = w.extractLsb' 0 2 &&& r.maskBits.extractLsb' 0 2 := by rw [hmask]
    _ = (w &&& r.maskBits).extractLsb' 0 2 := BitVec.extractLsb'_and.symm
    _ = r.matchBits.extractLsb' 0 2 := by rw [eq_of_beq hm]
    _ = 0b11#2 := hmatch

theorem exists_error_of_not_ok {w : Word} (h : ∀ i, decodeWord w ≠ .ok i) : ∃ e, decodeWord w = .error e := by
  cases hd : decodeWord w with
  | ok i => exact absurd hd (h i)
  | error e => exact ⟨e, rfl⟩

theorem sentinel_error {w : Word} (h : isSentinel w = true) : ∃ e, decodeWord w = .error e :=
  exists_error_of_not_ok fun _ hd => Bool.false_ne_true ((not_sentinel_of_decode hd).symm.trans h)

theorem decode_of_length_lt {bytes : List Byte} (h : bytes.length < 4) :
    decode bytes = .error (.truncated bytes.length) := by
  match bytes, h with
  | [], _ => rfl
  | [_], _ => rfl
  | [_, _], _ => rfl
  | [_, _, _], _ => rfl

/-- If `w` matches the row, it decodes to an instruction with the row's mnemonic. -/
def OpcodeRow.Decodes (r : OpcodeRow) (w : Word) : Prop :=
  r.matches w = true → ∃ i, decodeWord w = .ok i ∧ i.mnemonic = r.mnemonic

theorem OpcodeRow.decodes_of {r : OpcodeRow} {w : Word} {i : Instr}
    (h : w &&& r.maskBits = r.matchBits → decodeWord w = .ok i) (hn : i.mnemonic = r.mnemonic) : r.Decodes w :=
  fun hm => ⟨i, h (eq_of_beq hm), hn⟩

/-- A row whose mask is the whole word decodes if its one word does. -/
theorem decodeWord_of_full_mask {w v : Word} {i : Instr} (hv : decodeWord v = .ok i) (h : w &&& 0xFFFFFFFF#32 = v) :
    decodeWord w = .ok i := by
  obtain rfl : w = v := BitVec.and_allOnes.symm.trans h
  exact hv

theorem opcodeTable_decodes (w : Word) : ∀ r ∈ opcodeTable, r.Decodes w := by
  obtain ⟨hrows, hecall, hebreak⟩ := Proofs.everyRowDecodesToItsFields
  obtain ⟨lb, lh, lw, lbu, lhu, fence, addi, slti, sltiu, xori, ori, andi, slli, srli, srai, add, sub, sll, slt, sltu,
    xor, srl, sra, or, and, lui, auipc, sb, sh, sw, beq, bne, blt, bge, bltu, bgeu, jal, jalr⟩ :=
    hrows w _ _ _ (val_regOfBits w 7) (val_regOfBits w 15) (val_regOfBits w 20)
  have ecall := decodeWord_of_full_mask (w := w) hecall
  have ebreak := decodeWord_of_full_mask (w := w) hebreak
  simp only [opcodeTable, tableLoads, tableOpImm, tableOp, tableUpperStore, tableControl, List.cons_append,
    List.nil_append, List.forall_mem_cons]
  open OpcodeRow in
  exact ⟨decodes_of lb rfl, decodes_of lh rfl, decodes_of lw rfl, decodes_of lbu rfl, decodes_of lhu rfl,
    decodes_of fence rfl, decodes_of addi rfl, decodes_of slti rfl, decodes_of sltiu rfl, decodes_of xori rfl,
    decodes_of ori rfl, decodes_of andi rfl, decodes_of slli rfl, decodes_of srli rfl, decodes_of srai rfl,
    decodes_of add rfl, decodes_of sub rfl, decodes_of sll rfl, decodes_of slt rfl, decodes_of sltu rfl,
    decodes_of xor rfl, decodes_of srl rfl, decodes_of sra rfl, decodes_of or rfl, decodes_of and rfl,
    decodes_of lui rfl, decodes_of auipc rfl, decodes_of sb rfl, decodes_of sh rfl, decodes_of sw rfl,
    decodes_of beq rfl, decodes_of bne rfl, decodes_of blt rfl, decodes_of bge rfl, decodes_of bltu rfl,
    decodes_of bgeu rfl, decodes_of jal rfl, decodes_of jalr rfl, decodes_of ecall rfl, decodes_of ebreak rfl,
    List.forall_mem_nil _⟩

/-! ### The immediates (R122) -/

/-- `imm_I` is the word shifted right arithmetically. -/
theorem sextImm_fieldImmI (w : Word) : sextImm (fieldImmI w) = w.sshiftRight 20 := by
  apply BitVec.eq_of_getLsbD_eq
  intro k hk
  simp only [sextImm, fieldImmI, BitVec.getLsbD_signExtend, BitVec.getLsbD_sshiftRight, BitVec.msb_eq_getLsbD_last,
    BitVec.getLsbD_extractLsb']
  grind

theorem upperImm_fieldImmU (w : Word) : upperImm (fieldImmU w) = w &&& 0xFFFFF000#32 := by
  apply BitVec.eq_of_getLsbD_eq
  intro k hk
  unfold upperImm fieldImmU
  rw [BitVec.getLsbD_and, BitVec.getLsbD_append, BitVec.getLsbD_extractLsb']
  interval_cases k <;> simp

theorem getLsbD_sextImm_fieldImmS (w : Word) {k : Nat} (hk : k < 32) : (sextImm (fieldImmS w)).getLsbD k =
    if k < 5 then w.getLsbD (k + 7) else if k < 11 then w.getLsbD (k + 20) else w.getLsbD 31 := by
  unfold sextImm fieldImmS
  simp only [BitVec.getLsbD_signExtend, BitVec.msb_eq_getLsbD_last, BitVec.getLsbD_append, BitVec.getLsbD_extractLsb']
  grind

theorem getLsbD_sextBranch_fieldImmB (w : Word) {k : Nat} (hk : k < 32) : (sextBranch (fieldImmB w)).getLsbD k =
    if k = 0 then false else if k < 5 then w.getLsbD (k + 7) else if k < 11 then w.getLsbD (k + 20)
    else if k = 11 then w.getLsbD 7 else w.getLsbD 31 := by
  unfold sextBranch fieldImmB
  simp only [BitVec.getLsbD_signExtend, BitVec.msb_eq_getLsbD_last, BitVec.getLsbD_append, BitVec.getLsbD_extractLsb']
  grind

theorem getLsbD_sextJump_fieldImmJ (w : Word) {k : Nat} (hk : k < 32) : (sextJump (fieldImmJ w)).getLsbD k =
    if k = 0 then false else if k < 11 then w.getLsbD (k + 20) else if k = 11 then w.getLsbD 20
    else if k < 20 then w.getLsbD k else w.getLsbD 31 := by
  unfold sextJump fieldImmJ
  simp only [BitVec.getLsbD_signExtend, BitVec.msb_eq_getLsbD_last, BitVec.getLsbD_append, BitVec.getLsbD_extractLsb']
  grind

end Sys2Proof

namespace Sys2Proof.Machine

/-! ### What an instruction makes of the fetched word (R162, R175) -/

theorem decodeWord_of_decode {b0 b1 b2 b3 : Byte} {bytes rest : List Byte} {i : Instr}
    (h : decode (b0 :: b1 :: b2 :: b3 :: bytes) = .ok (i, rest)) : decodeWord (wordOfBytes b0 b1 b2 b3) = .ok i := by
  cases hd : decodeWord (wordOfBytes b0 b1 b2 b3) with
  | ok j => simp only [decode, hd, Except.ok.injEq, Prod.mk.injEq] at h; rw [h.1]
  | error e => simp [decode, hd] at h

theorem decodeWord_of_decode_fetchBytes {s : State} {i : Instr} {rest : List Byte}
    (h : decode s.fetchBytes = .ok (i, rest)) : decodeWord s.fetchWord = .ok i := by
  have hbytes : s.fetchBytes =
      [s.byteAt s.pc, s.byteAt (s.pc + 1#32), s.byteAt (s.pc + 2#32), s.byteAt (s.pc + 3#32)] := by
    simp [State.fetchBytes, List.range_succ]
  rw [hbytes] at h
  rw [fetchWord_bytes]
  exact decodeWord_of_decode h

theorem instruction_of_sentinel {s : State} (ha : s.pc.toNat % 4 = 0) (hu : s.touchesUart s.pc .word = false)
    (hs : isSentinel s.fetchWord = true) :
    instruction s = .next (s.commit.raiseFault .illegalInstruction s.fetchWord) := by
  simp [instruction, (aligned4_iff s.pc).mpr ha, hu, hs]

theorem instruction_of_illegal {s : State} (ha : s.pc.toNat % 4 = 0) (hu : s.touchesUart s.pc .word = false)
    (hs : isSentinel s.fetchWord = false) {e : DecodeError} (hd : decodeWord s.fetchWord = .error e) :
    instruction s = .next (State.raiseFault { s.commit with insn := s.fetchWord } .illegalInstruction s.fetchWord) := by
  simp [instruction, (aligned4_iff s.pc).mpr ha, hu, hs, State.runWord, hd]

/-- The frame of a fault says nothing of `insn`. -/
theorem faultsWith_insn {s t : State} {code : FaultCode} {w : Word} (h : FaultsWith s t code w) (v : Word) :
    FaultsWith s { t with insn := v } code w :=
  ⟨h.runState, h.faultCode, h.faultInsn, h.pc, h.regs, h.memory, h.loadDest, h.loadKind, h.readEngine, h.readPort,
    h.writeEngine, h.params, h.draws⟩

/-! ### Halting (R348) -/

theorem halted_raiseFault (s : State) (w : Word) :
    (s.raiseFault .illegalInstruction w).Halted ↔ isSentinel w = true := by
  simp [State.Halted, runState_faulted_iff]

/-- An instruction that runs can fault only on its target, and so never ends in the halt. -/
theorem exec_not_halted {i : Instr} {s t : State} (he : exec i s = .next t) : ¬ t.Halted := by
  rintro ⟨hrun, hcode, -⟩
  have hhart : t.hart = .faulted := (runState_faulted_iff t).mp hrun
  cases exec_cases he with
  | misaligned target => simp at hcode
  | writes => simp at hhart
  | advances => simp at hhart
  | stores => simp at hhart
  | branches => simp at hhart
  | jumps => simp at hhart

/-- A whole instruction that answers a state has not touched the UART region with its fetch, and has halted
exactly if the fetched word is a sentinel. -/
theorem instruction_halted_iff {s t : State} (ha : s.pc.toNat % 4 = 0) (h : instruction s = .next t) :
    t.Halted ↔ s.touchesUart s.pc .word = false ∧ isSentinel s.fetchWord = true := by
  cases hu : s.touchesUart s.pc .word with
  | true => rw [instruction_of_fetchUart ha hu] at h; cases h
  | false =>
    cases hd : decodeWord s.fetchWord with
    | ok i =>
      rw [instruction_of_decode ha hu hd] at h
      simp [exec_not_halted h, not_sentinel_of_decode hd]
    | error e =>
      cases hs : isSentinel s.fetchWord with
      | true =>
        rw [instruction_of_sentinel ha hu hs] at h
        cases h
        simp [halted_raiseFault, hs]
      | false =>
        rw [instruction_of_illegal ha hu hs hd] at h
        cases h
        simp [halted_raiseFault, hs]

end Sys2Proof.Machine

namespace Sys2Proof.Proofs

open Sys2Proof.Machine

/-- Settles O3: two rows that one word matches have the mnemonic of the instruction it decodes to. -/
theorem decoderFollowsTheOpcodeTable : Obligations.DecoderFollowsTheOpcodeTable := by
  refine ⟨fun _ _ => matches_of_decode, opcodeTable_decodes, fun w r hr q hq hrw hqw => ?_⟩
  obtain ⟨i, hi, hir⟩ := opcodeTable_decodes w r hr hrw
  obtain ⟨j, hj, hjq⟩ := opcodeTable_decodes w q hq hqw
  obtain rfl : i = j := Except.ok.inj (hi.symm.trans hj)
  exact eq_of_mnemonic_eq hr hq (hir.symm.trans hjq)

/-- Settles O5: `imm_I` as an arithmetic shift of the word, the others bit by bit. -/
theorem immediatesAreTheNamedBits : Obligations.ImmediatesAreTheNamedBits := by
  intro w
  have immI : (sextImm (fieldImmI w)).toInt = w.toInt / 2 ^ 20 := by
    rw [sextImm_fieldImmI, BitVec.toInt_sshiftRight, Int.shiftRight_eq_div_pow]; rfl
  exact ⟨immI, upperImm_fieldImmU w, fun _ => getLsbD_sextImm_fieldImmS w, fun _ => getLsbD_sextBranch_fieldImmB w,
    fun _ => getLsbD_sextJump_fieldImmJ w⟩

/-- Settles O6: by evaluating the decoder on each of the words. -/
theorem exampleWordsDecode : Obligations.ExampleWordsDecode := by
  unfold Obligations.ExampleWordsDecode; decide

/-- Settles O7: every row has 11 in its low bits, and the sentinels match no row. -/
theorem shortAndSentinelWordsAreIllegal : Obligations.ShortAndSentinelWordsAreIllegal :=
  ⟨fun _ hlow => exists_error_of_not_ok fun _ hd => hlow (low_bits_of_decode hd), sentinel_error rfl,
    sentinel_error rfl, fun _ => decode_of_length_lt⟩

/-- Settles O14: the four bytes at pc make the fetched word. -/
theorem stepRunsTheDecodedInstruction : Obligations.StepRunsTheDecodedInstruction := by
  intro s i rest hb ha hu hd
  rw [step_of_boundary hb, ← fetchWord_bytes]
  exact instruction_of_decode ha (touchesUart_eq_false.mpr hu) (decodeWord_of_decode_fetchBytes hd)

/-- Settles O15: the sentinel check comes before the word is stored in `insn`. -/
theorem sentinelWordHalts : Obligations.SentinelWordHalts := by
  intro s hb ha hu hs
  rw [step_of_boundary hb]
  exact ⟨_, instruction_of_sentinel ha (touchesUart_eq_false.mpr hu) ((isSentinel_iff _).mpr hs),
    raiseFault_frame s _ _, commit_insn s⟩

/-- Settles O16: a sentinel as in O15, any other word after it is stored in `insn`. -/
theorem undecodableWordFaults : Obligations.UndecodableWordFaults := by
  intro s e hb ha hu hd
  rw [step_of_boundary hb]
  cases hs : isSentinel s.fetchWord with
  | true =>
    refine ⟨_, instruction_of_sentinel ha (touchesUart_eq_false.mpr hu) hs, raiseFault_frame s _ _, ?_⟩
    rw [if_pos ((isSentinel_iff _).mp hs)]
    exact commit_insn s
  | false =>
    refine ⟨_, instruction_of_illegal ha (touchesUart_eq_false.mpr hu) hs hd,
      faultsWith_insn (raiseFault_frame s _ _) _, ?_⟩
    rw [if_neg (by simp [← isSentinel_iff, hs])]
    rfl

/-- Settles O40: by what the fetched word is. -/
theorem haltIsExactlyASentinelFetch : Obligations.HaltIsExactlyASentinelFetch := by
  intro s t hb hinv h
  have hrun : s.runState = .running := by simp [runState_running_iff, hb.1]
  rw [step_of_boundary hb] at h
  rw [instruction_halted_iff (hinv.pcAligned hrun) h, isSentinel_iff, touchesUart_eq_false]
  rfl

end Sys2Proof.Proofs
end

section
/-! PROOFS. Family `40_hart_fsm.md`: FAULTED and the way out of it (O37, O38), the misaligned fetch (O17), and
the reference cycle counts (O48). -/

namespace Sys2Proof.Machine

/-! ### FAULTED (R171, R330) -/

theorem cycle_of_faulted {s : State} (h : s.hart = .faulted) : cycle s = .next s := by simp only [cycle, h]

/-- FAULTED is no boundary, so a step from it is a cycle. -/
theorem step_of_faulted {s : State} (h : s.hart = .faulted) : step s = .next s := by
  have hb : ¬ s.AtBoundary := by simp [State.AtBoundary, h]
  rw [step_of_not_boundary hb, cycle_of_faulted h]

theorem run_of_faulted {s : State} (h : s.hart = .faulted) (n : Nat) : core.run n s = .next s := by
  induction n with
  | zero => rfl
  | succ n ih =>
    have hstep : core.step s = .next s := step_of_faulted h
    simp only [Host.Core.run, hstep]
    exact ih

theorem cycles_of_faulted {s : State} (h : s.hart = .faulted) (n : Nat) : cycles n s = .next s := by
  induction n with
  | zero => rfl
  | succ n ih => rw [cycles_succ (cycle_of_faulted h), ih]

/-- Events without an external reset are clock cycles, and leave FAULTED as it is. -/
theorem reactAll_of_faulted {s : State} (h : s.hart = .faulted) {es : List Event}
    (hes : Event.externalReset ∉ es) : reactAll es s = .next s := by
  induction es with
  | nil => rfl
  | cons e es ih =>
    cases e with
    | externalReset => exact absurd List.mem_cons_self hes
    | clock =>
      simp only [reactAll, react, cycle_of_faulted h]
      exact ih fun hmem => hes (List.mem_cons_of_mem _ hmem)

theorem externalReset_atBoundary (s : State) : s.externalReset.AtBoundary := ⟨rfl, rfl, rfl, rfl⟩

/-! ### The states inside an instruction (R160) -/

/-- Each of the next `n` cycles but the last ends in a state that is not `FETCH_REQUEST`. -/
def NoFetchBefore (n : Nat) (s : State) : Prop :=
  ∀ k, 0 < k → k < n → ∃ u, cycles k s = .next u ∧ u.hart ≠ .fetchRequest

theorem noFetchBefore_one (s : State) : NoFetchBefore 1 s := fun _ _ _ => by omega

theorem noFetchBefore_succ {n : Nat} {s t : State} (hc : cycle s = .next t) (hh : t.hart ≠ .fetchRequest)
    (h : NoFetchBefore n t) : NoFetchBefore (n + 1) s := by
  rintro (_ | _ | k) hpos hk
  · omega
  · exact ⟨t, (cycles_one s).trans hc, hh⟩
  · obtain ⟨u, hu, huh⟩ := h (k + 1) (by omega) (by omega)
    exact ⟨u, (cycles_succ hc _).trans hu, huh⟩

theorem noFetchBefore_fetch {s : State} (hb : s.AtBoundary) (ha : s.pc.toNat % 4 = 0)
    (hu : s.touchesUart s.pc .word = false) (hs : isSentinel s.fetchWord = false) {n : Nat}
    (h : NoFetchBefore n s.fetch3) : NoFetchBefore (n + 3) s := by
  have h3 := cycle_fetch2 hb.2 ha
  rw [hs, if_neg Bool.false_ne_true] at h3
  exact noFetchBefore_succ (cycle_fetchRequest hb ha hu) nofun (noFetchBefore_succ (cycle_fetch1 hb.2.2.2) nofun
    (noFetchBefore_succ h3 nofun h))

/-- A load is in `LOAD_WAIT` once for each beat, and then in `LOAD_RESOLVE` (R167). -/
theorem noFetchBefore_load {s : State} (hq : s.Quiet) (hh : s.hart = .decode) {i : Instr} {k : LoadKind}
    {rd rs1 : RegIdx} {imm : BitVec 12} (hd : decodeWord s.insn = .ok i) (hw : hartWork i = .load k rd rs1 imm)
    (hu : s.touchesUart (s.effAddr rs1 imm) (loadWidth k) = false) :
    NoFetchBefore (readBeatCount (loadWidth k) (oddAddr (s.effAddr rs1 imm)) + 2) s := by
  have h0 := cycle_decode_load hq hh hd hw
  rw [hu, if_neg Bool.false_ne_true] at h0
  refine noFetchBefore_succ h0 nofun ?_
  have h1 := cycle_load1 hq k rd (s.effAddr rs1 imm)
  have h3 := cycle_load3 hq k rd (s.effAddr rs1 imm)
  have h4 := noFetchBefore_one (s.load4 k rd (s.effAddr rs1 imm))
  obtain hb | hb | hb := readBeatCount_cases (loadWidth k) (oddAddr (s.effAddr rs1 imm))
  · rw [if_pos hb] at h1
    rw [hb]
    exact noFetchBefore_succ h1 nofun h4
  · have h2 := cycle_load2 hq k rd (s.effAddr rs1 imm) (by omega)
    rw [if_neg (by omega)] at h1
    rw [if_pos hb] at h2
    rw [hb]
    exact noFetchBefore_succ h1 nofun (noFetchBefore_succ h2 nofun h4)
  · have h2 := cycle_load2 hq k rd (s.effAddr rs1 imm) (by omega)
    rw [if_neg (by omega)] at h1 h2
    rw [hb]
    exact noFetchBefore_succ h1 nofun (noFetchBefore_succ h2 nofun (noFetchBefore_succ h3 nofun h4))

/-- A store is in `STORE_WAIT` once, and in `STORE_RESOLVE` until its last beat is done (R168). -/
theorem noFetchBefore_store {s : State} (hq : s.Quiet) (hh : s.hart = .decode) {i : Instr} {w : Width}
    {rs1 rs2 : RegIdx} {imm : BitVec 12} (hd : decodeWord s.insn = .ok i) (hw : hartWork i = .store w rs1 rs2 imm)
    (hu : s.touchesUart (s.effAddr rs1 imm) w = false) :
    NoFetchBefore (if (writeBeats w (s.effAddr rs1 imm) (s.reg rs2)).length = 3 then 4 else 3) s := by
  have h0 := cycle_decode_store hq hh hd hw
  rw [hu, if_neg Bool.false_ne_true] at h0
  have h1 := cycle_store1 hq w (s.effAddr rs1 imm) (s.reg rs2)
  have h2 := cycle_store2 hq w (s.effAddr rs1 imm) (s.reg rs2)
  split
  case isTrue hb =>
    rw [if_pos hb] at h2
    exact noFetchBefore_succ h0 nofun (noFetchBefore_succ h1 nofun (noFetchBefore_succ h2 nofun (noFetchBefore_one _)))
  case isFalse => exact noFetchBefore_succ h0 nofun (noFetchBefore_succ h1 nofun (noFetchBefore_one _))

/-! ### The reference cycle table (R176) -/

theorem referenceSteps_of_inDecode {i : Instr} (hw : hartWork i = .inDecode) (odd : Bool) :
    referenceSteps i odd = 1 + 3 := by
  cases i <;> cases hw <;> rfl

theorem referenceSteps_of_resolve {i : Instr} {h : HartState} (hw : hartWork i = .resolve h) (odd : Bool) :
    referenceSteps i odd = 2 + 3 := by
  cases i <;> cases hw <;> rfl

theorem resolve_ne_fetchRequest {i : Instr} {h : HartState} (hw : hartWork i = .resolve h) : h ≠ .fetchRequest := by
  cases i <;> cases hw <;> nofun

theorem referenceSteps_of_load {i : Instr} {k : LoadKind} {rd rs1 : RegIdx} {imm : BitVec 12}
    (hw : hartWork i = .load k rd rs1 imm) (s : State) :
    referenceSteps i (accessOdd s i) = readBeatCount (loadWidth k) (oddAddr (s.effAddr rs1 imm)) + 2 + 3 := by
  have hodd : accessOdd s i = oddAddr (s.effAddr rs1 imm) := by simp only [accessOdd, hw]
  rw [hodd]
  cases oddAddr (s.effAddr rs1 imm) <;> cases i <;> cases hw <;> rfl

theorem accessOdd_fetch3 (s : State) (i : Instr) : accessOdd s.fetch3 i = accessOdd s i := by
  simp only [accessOdd, effAddr_fetch3]

/-- From `DECODE` an instruction that answers a next state takes the table's steps but for the fetch's three. -/
theorem cycles_decode_of_next {s t : State} (hq : s.Quiet) (hh : s.hart = .decode) {i : Instr}
    (hd : decodeWord s.insn = .ok i) (he : exec i s = .next t) :
    ∃ n, referenceSteps i (accessOdd s i) = n + 3 ∧ cycles n s = exec i s ∧ NoFetchBefore n s := by
  cases hw : hartWork i with
  | inDecode =>
    exact ⟨1, referenceSteps_of_inDecode hw _, (cycles_one s).trans (cycle_decode_inDecode hq hh hd hw),
      noFetchBefore_one s⟩
  | resolve h =>
    have hissue := cycle_decode_resolve hq hh hd hw
    have hresolve : cycle { s with hart := h } = exec i { s with hart := h } :=
      cycle_resolve (s := { s with hart := h }) hq hw hd
    refine ⟨2, referenceSteps_of_resolve hw _, ?_,
      noFetchBefore_succ hissue (resolve_ne_fetchRequest hw) (noFetchBefore_one _)⟩
    rw [cycles_succ hissue, cycles_one, hresolve, exec_withHart]
  | load k rd rs1 imm =>
    cases hu : s.touchesUart (s.effAddr rs1 imm) (loadWidth k) with
    | true => rw [exec_load_of_uart hw (touchesUart_eq_true.mp hu)] at he; cases he
    | false => exact ⟨_, referenceSteps_of_load hw s, cycles_load hq hh hd hw hu, noFetchBefore_load hq hh hd hw hu⟩
  | store w rs1 rs2 imm =>
    cases hu : s.touchesUart (s.effAddr rs1 imm) w with
    | true => rw [exec_store_of_uart hw (touchesUart_eq_true.mp hu)] at he; cases he
    | false =>
      have hsteps := (referenceSteps_of_store hw s (s.reg rs2)).trans (Nat.add_comm _ _)
      exact ⟨_, hsteps, cycles_store hq hh hd hw hu, noFetchBefore_store hq hh hd hw hu⟩

/-- A word that decodes is fetched in three cycles, which with those from `DECODE` are the table's. -/
theorem cycles_of_next {s t : State} (hb : s.AtBoundary) (ha : s.pc.toNat % 4 = 0)
    (hu : s.touchesUart s.pc .word = false) {i : Instr} (hd : decodeWord s.fetchWord = .ok i)
    (h : instruction s = .next t) :
    cycles (referenceSteps i (accessOdd s i)) s = .next t ∧ NoFetchBefore (referenceSteps i (accessOdd s i)) s := by
  have hs := not_sentinel_of_decode hd
  have he : exec i s.fetch3 = .next t := (exec_fetch3 i s).trans ((instruction_of_decode ha hu hd).symm.trans h)
  obtain ⟨n, hsteps, hcycles, hinside⟩ := cycles_decode_of_next (fetch3_quiet hb.2) rfl hd he
  rw [← accessOdd_fetch3, hsteps]
  refine ⟨?_, noFetchBefore_fetch hb ha hu hs hinside⟩
  rw [Nat.add_comm, cycles_add (cycles_fetch3 hb ha hu hs), hcycles, he]

end Sys2Proof.Machine

namespace Sys2Proof.Proofs

open Sys2Proof.Machine

/-- Settles O37: by induction on the number of steps and of cycles. -/
theorem faultedIsTerminal : Obligations.FaultedIsTerminal := by
  intro s n hf
  have hh := (runState_faulted_iff s).mp hf
  exact ⟨run_of_faulted hh n, cycles_of_faulted hh n⟩

/-- Settles O38: with no reset among them, the events answer the FAULTED state itself. -/
theorem onlyExternalResetLeavesFaulted : Obligations.OnlyExternalResetLeavesFaulted := by
  refine ⟨fun s t es hf h hr => ?_, fun s => ⟨_, rfl, externalReset_atBoundary s, rfl⟩⟩
  by_contra hes
  rw [reactAll_of_faulted ((runState_faulted_iff s).mp hf) hes] at h
  cases h
  rw [hf] at hr
  cases hr

/-- Settles O48: by where `DECODE` takes the instruction. -/
theorem instructionsTakeTheReferenceSteps : Obligations.InstructionsTakeTheReferenceSteps := by
  intro s t i hb ha hu hd h _
  rw [step_of_boundary hb] at h
  exact cycles_of_next hb ha (touchesUart_eq_false.mpr hu) hd h

/-- Settles O17: the check of pc is the first of R337, before the UART's. -/
theorem misalignedFetchLatchesThePc : Obligations.MisalignedFetchLatchesThePc := by
  intro s hb ha
  rw [step_of_boundary hb]
  exact ⟨_, instruction_of_misaligned ha, raiseFault_frame s _ _, commit_insn s⟩

end Sys2Proof.Proofs
end

section
/-! PROOFS. Family `41_loads.md`: what each load writes, from the bytes of its access (O19). -/

namespace Sys2Proof.Machine

/-! ### A load that misses the UART region (R50, R200) -/

theorem writeBack_completes (s : State) (rd : RegIdx) (v : Word) : Completes s (s.writeBack rd v) (s.pc + 4#32) := by
  constructor <;> simp [State.nextPc]

/-- Registers and memory do not see the load bookkeeping, so the frame of `writeBack` is a load's. -/
theorem load_result {i : Instr} {k : LoadKind} {rd rs1 : RegIdx} {imm : BitVec 12}
    (hw : hartWork i = .load k rd rs1 imm) {s : State}
    (hu : ClearOfUart s (s.effAddr rs1 imm) (widthBytes (loadWidth k))) {v : Word}
    (hv : extendLoad k (s.memRead (loadWidth k) (s.effAddr rs1 imm)) = v) : LoadResult s i k rd v := by
  subst hv
  have hexec := (exec_of_load hw s).trans (load_of_clear (touchesUart_eq_false.mpr hu))
  exact ⟨_, hexec, writeBack_reg _ rd _, byteAt_congr (writeBack_mem _ rd _) (writeBack_params _ rd _),
    writeBack_completes _ rd _⟩

/-! ### Extending a response whose upper bits are zero (R201 to R205, R70) -/

theorem signExtend_response {n : Nat} (h : n ≤ 32) (x : BitVec n) :
    ((x.setWidth 32).extractLsb' 0 n).signExtend 32 = BitVec.ofInt 32 x.toInt := by
  rw [BitVec.extractLsb'_setWidth_of_le (by omega), BitVec.extractLsb'_eq_self, BitVec.signExtend]

theorem zeroExtend_response {n : Nat} (h : n ≤ 32) (x : BitVec n) :
    ((x.setWidth 32).extractLsb' 0 n).setWidth 32 = BitVec.ofNat 32 x.toNat := by
  rw [BitVec.extractLsb'_setWidth_of_le (by omega), BitVec.extractLsb'_eq_self, BitVec.ofNat_toNat]

end Sys2Proof.Machine

namespace Sys2Proof.Proofs

open Sys2Proof.Machine

/-- Settles O19: the response is the bytes of the access, and each load extends it from its own width. -/
theorem loadsReturnTheExtendedBytes : Obligations.LoadsReturnTheExtendedBytes := by
  intro s rd rs1 imm a half
  have hread (w : Width) := memRead_bytes (memDepth_dvd s.params) s.mem w a
  have hbyte : s.memRead .byte a = (s.byteAt a).setWidth 32 := hread .byte
  have hhalf : s.memRead .half a = half.setWidth 32 := hread .half
  refine ⟨fun hu => ?lb, fun hu => ?lh, fun hu => ?lw, fun hu => ?lbu, fun hu => ?lhu⟩
  case lb => exact load_result rfl hu ((congrArg (extendLoad .b) hbyte).trans (signExtend_response (by decide) _))
  case lh => exact load_result rfl hu ((congrArg (extendLoad .h) hhalf).trans (signExtend_response (by decide) _))
  case lw => exact load_result rfl hu (hread .word)
  case lbu => exact load_result rfl hu ((congrArg (extendLoad .bu) hbyte).trans (zeroExtend_response (by decide) _))
  case lhu => exact load_result rfl hu ((congrArg (extendLoad .hu) hhalf).trans (zeroExtend_response (by decide) _))

end Sys2Proof.Proofs
end

section
/-! PROOFS. Family `42_misc_mem.md`: FENCE is a no-op whatever its fields (O20). -/

namespace Sys2Proof.Machine

theorem exec_fence (rd rs1 : RegIdx) (fm pred succ : BitVec 4) (s : State) :
    exec (.fence rd rs1 fm pred succ) s = .next (s.complete s.nextPc) := rfl

/-- `complete` moves the hart and pc; a register write still pending stays pending. -/
theorem complete_completes (s : State) (target : Word) : Completes s (s.complete target) target := by
  constructor <;> simp

end Sys2Proof.Machine

namespace Sys2Proof.Proofs

open Sys2Proof.Machine

/-- Settles O20: FENCE is `complete` at pc + 4, which keeps every register and all of memory. -/
theorem fenceOnlyAdvancesThePc : Obligations.FenceOnlyAdvancesThePc := fun s rd rs1 fm pred succ =>
  ⟨_, exec_fence rd rs1 fm pred succ s, complete_reg s _, byteAt_congr (complete_mem s _) (complete_params s _),
    complete_completes s _⟩

end Sys2Proof.Proofs
end

section
/-! PROOFS. Family `43_alu.md`: the results of the OP-IMM and OP instructions by integer value (O21 to O24). -/

namespace Sys2Proof.Machine

/-! ### Arithmetic on words by integer value (R10, R123) -/

theorem toInt_sextImm (imm : BitVec 12) : (sextImm imm).toInt = imm.toInt :=
  BitVec.toInt_signExtend_of_le (by decide)

theorem add_eq_ofInt (a b : Word) : a + b = BitVec.ofInt 32 (a.toInt + b.toInt) := by
  rw [BitVec.ofInt_add, BitVec.ofInt_toInt, BitVec.ofInt_toInt]

theorem add_eq_ofNat (a b : Word) : a + b = BitVec.ofNat 32 (a.toNat + b.toNat) := by
  rw [BitVec.ofNat_add, BitVec.ofNat_toNat, BitVec.ofNat_toNat, BitVec.setWidth_eq, BitVec.setWidth_eq]

theorem sub_eq_ofInt (a b : Word) : a - b = BitVec.ofInt 32 (a.toInt - b.toInt) :=
  BitVec.eq_of_toInt_eq (by rw [BitVec.toInt_sub, BitVec.toInt_ofInt])

theorem shiftLeft_eq_mul (a : Word) (n : Nat) : a <<< n = BitVec.ofNat 32 (a.toNat * 2 ^ n) :=
  BitVec.eq_of_toNat_eq (by rw [BitVec.toNat_shiftLeft, Nat.shiftLeft_eq, BitVec.toNat_ofNat])

theorem ushiftRight_eq_div (a : Word) (n : Nat) : a >>> n = BitVec.ofNat 32 (a.toNat / 2 ^ n) := by
  rw [← Nat.shiftRight_eq_div_pow, ← BitVec.toNat_ushiftRight, BitVec.ofNat_toNat, BitVec.setWidth_eq]

end Sys2Proof.Machine

namespace Sys2Proof.Proofs

open Sys2Proof.Machine

/-- Settles O21: each instruction ends in `writeBack` of its result. ADDI and SLTI read the immediate as a
signed integer, which sign extension keeps. -/
theorem immediateArithmeticResults : Obligations.ImmediateArithmeticResults := by
  intro s rd rs1 imm a
  have himm : (sextImm imm).toInt = imm.toInt := toInt_sextImm imm
  refine ⟨?addi, ?slti, ?sltiu, ?xori, ?ori, ?andi⟩
  case addi => exact writeBack_result rfl (himm ▸ add_eq_ofInt a (sextImm imm))
  case slti => exact writeBack_result rfl (himm ▸ boolWord_ltSigned a (sextImm imm))
  case sltiu => exact writeBack_result rfl (boolWord_ltUnsigned a (sextImm imm))
  case xori => exact writeBack_result rfl rfl
  case ori => exact writeBack_result rfl rfl
  case andi => exact writeBack_result rfl rfl

/-- Settles O22: a shift is a product, or a quotient rounded down. -/
theorem immediateShiftResults : Obligations.ImmediateShiftResults := by
  intro s rd rs1 shamt a
  refine ⟨?slli, ?srli, ?srai⟩
  case slli => exact writeBack_result rfl (shiftLeft_eq_mul a shamt.toNat)
  case srli => exact writeBack_result rfl (ushiftRight_eq_div a shamt.toNat)
  case srai => exact writeBack_result rfl (sshiftRight_eq_div a shamt.toNat)

/-- Settles O23: each instruction ends in `writeBack` of its result on the two registers as it read them. -/
theorem registerArithmeticResults : Obligations.RegisterArithmeticResults := by
  intro s rd rs1 rs2 a b
  refine ⟨?add, ?sub, ?slt, ?sltu, ?xor, ?or, ?and⟩
  case add => exact writeBack_result rfl (add_eq_ofNat a b)
  case sub => exact writeBack_result rfl (sub_eq_ofInt a b)
  case slt => exact writeBack_result rfl (boolWord_ltSigned a b)
  case sltu => exact writeBack_result rfl (boolWord_ltUnsigned a b)
  case xor => exact writeBack_result rfl rfl
  case or => exact writeBack_result rfl rfl
  case and => exact writeBack_result rfl rfl

/-- Settles O24: as O22, by the amount that R251 takes from `x[rs2]`. -/
theorem registerShiftResults : Obligations.RegisterShiftResults := by
  intro s rd rs1 rs2 a n
  have hn : shiftAmount (s.reg rs2) = n := shiftAmount_eq (s.reg rs2)
  refine ⟨?sll, ?srl, ?sra⟩
  case sll => exact writeBack_result rfl (hn ▸ shiftLeft_eq_mul a (shiftAmount (s.reg rs2)))
  case srl => exact writeBack_result rfl (hn ▸ ushiftRight_eq_div a (shiftAmount (s.reg rs2)))
  case sra => exact writeBack_result rfl (hn ▸ sshiftRight_eq_div a (shiftAmount (s.reg rs2)))

end Sys2Proof.Proofs
end

section
/-! PROOFS. Family `44_upper_imm.md`: the results of LUI and AUIPC by integer value (O25). -/

namespace Sys2Proof.Machine

/-- The sum wraps modulo 2^32 (R271, D21). -/
theorem add_upperImm_eq_ofNat (a : Word) (imm : BitVec 20) :
    a + upperImm imm = BitVec.ofNat 32 (a.toNat + imm.toNat * 4096) := by
  rw [upperImm_eq, BitVec.ofNat_add, BitVec.ofNat_toNat, BitVec.setWidth_eq]

end Sys2Proof.Machine

namespace Sys2Proof.Proofs

open Sys2Proof.Machine

/-- Settles O25: both end in `writeBack`, LUI of its immediate and AUIPC of its own pc plus that. -/
theorem upperImmediateResults : Obligations.UpperImmediateResults := by
  intro s rd imm
  refine ⟨?lui, ?auipc⟩
  case lui => exact writeBack_result rfl (upperImm_eq imm)
  case auipc => exact writeBack_result rfl (add_upperImm_eq_ofNat s.pc imm)

end Sys2Proof.Proofs
end

section
/-! PROOFS. Family `45_stores.md`: what each store writes, and that it writes nothing else (O26). -/

namespace Sys2Proof.Machine

/-! ### A store that misses the UART region (R75, R280) -/

theorem complete_mem_completes (s : State) (m : Memory) (target : Word) :
    Completes s (State.complete { s with mem := m } target) target := by
  constructor <;> simp

/-- The bytes are O11's. Registers do not see the write, so the frame of `complete` is a store's. -/
theorem store_result {i : Instr} {w : Width} {rs1 rs2 : RegIdx} {imm : BitVec 12}
    (hw : hartWork i = .store w rs1 rs2 imm) {s : State}
    (hu : ClearOfUart s (s.effAddr rs1 imm) (widthBytes w)) :
    StoreResult s i (s.effAddr rs1 imm) (widthBytes w) (s.reg rs2) := by
  have hexec := (exec_of_store hw s).trans (store_of_clear (touchesUart_eq_false.mpr hu))
  have hbytes := Proofs.writeStoresConsecutiveBytes s w (s.effAddr rs1 imm) (s.reg rs2)
  exact ⟨_, hexec, hbytes, complete_reg _ _, complete_mem_completes s _ _⟩

end Sys2Proof.Machine

namespace Sys2Proof.Proofs

open Sys2Proof.Machine

/-- Settles O26: the three stores differ in the width of their access only. -/
theorem storesWriteTheLowBytes : Obligations.StoresWriteTheLowBytes := by
  intro s rs1 rs2 imm a
  refine ⟨fun hu => ?sb, fun hu => ?sh, fun hu => ?sw⟩
  case sb => exact store_result (w := .byte) rfl hu
  case sh => exact store_result (w := .half) rfl hu
  case sw => exact store_result (w := .word) rfl hu

end Sys2Proof.Proofs
end

section
/-! PROOFS. Family `46_branches.md`: where each branch goes (O27), and that only a misaligned target of a
transfer faults (O34). -/

namespace Sys2Proof.Machine

/-! ### The three ways a branch ends (R290, R297) -/

theorem branch_of_aligned {s : State} {offset : BitVec 13} (ha : (s.pc + sextBranch offset).toNat % 4 = 0) :
    s.branch true offset = .next (s.complete (s.pc + sextBranch offset)) := by
  rw [branch_answer, if_pos rfl, if_pos ((aligned4_iff _).mpr ha)]

theorem branch_of_misaligned {s : State} {offset : BitVec 13} (ha : (s.pc + sextBranch offset).toNat % 4 ≠ 0) :
    s.branch true offset = .next (s.raiseTarget none (s.pc + sextBranch offset)) := by
  rw [branch_answer, if_pos rfl, if_neg (ha ∘ (aligned4_iff _).mp)]

theorem branch_of_not_taken (s : State) (offset : BitVec 13) :
    s.branch false offset = .next (s.complete s.nextPc) := rfl

/-- `complete` changes nothing but the hart's state and pc, in the terms of a claim. -/
theorem complete_frame (s : State) (target : Word) :
    SameRegs s (s.complete target) ∧ SameMemory s (s.complete target) ∧ Completes s (s.complete target) target :=
  ⟨complete_reg s target, byteAt_congr (complete_mem s target) (complete_params s target), complete_completes s target⟩

/-- An instruction whose meaning is `branch` on a comparison that decides `cond`. -/
theorem branch_result {i : Instr} {s : State} {taken : Bool} {offset : BitVec 13} {cond : Prop}
    (hexec : exec i s = s.branch taken offset) (hcond : taken = true ↔ cond) :
    BranchResult s i (s.pc + sextBranch offset) cond := by
  refine ⟨fun hc ha => ?aligned, fun hc ha => ?misaligned, fun hc => ?notTaken⟩
  case aligned =>
    obtain rfl := hcond.mpr hc
    exact ⟨_, hexec.trans (branch_of_aligned ha), complete_frame s _⟩
  case misaligned =>
    obtain rfl := hcond.mpr hc
    exact ⟨_, hexec.trans (branch_of_misaligned ha), raiseTarget_frame s none _⟩
  case notTaken =>
    obtain rfl := Bool.eq_false_iff.mpr (hc ∘ hcond.mp)
    exact ⟨_, hexec.trans (branch_of_not_taken s offset), complete_frame s _⟩

/-! ### The comparisons as propositions (R10, R40) -/

theorem cmpEq_iff (a b : Word) : cmpEq a b = true ↔ a = b := beq_iff_eq

theorem cmpLtSigned_iff (a b : Word) : cmpLtSigned a b = true ↔ a.toInt < b.toInt := decide_eq_true_iff

theorem cmpLtUnsigned_iff (a b : Word) : cmpLtUnsigned a b = true ↔ a.toNat < b.toNat := decide_eq_true_iff

end Sys2Proof.Machine

namespace Sys2Proof.Proofs

open Sys2Proof.Machine

/-- Settles O27: the six branches differ in the comparison that `branch` is given. -/
theorem branchesCompareAndGo : Obligations.BranchesCompareAndGo := by
  intro s rs1 rs2 offset a b target
  have heq := cmpEq_iff a b
  have hlt := cmpLtSigned_iff a b
  have hltu := cmpLtUnsigned_iff a b
  refine ⟨?beq, ?bne, ?blt, ?bge, ?bltu, ?bgeu⟩
  case beq => exact branch_result rfl heq
  case bne => exact branch_result rfl (Bool.not_iff_not.trans heq.not)
  case blt => exact branch_result rfl hlt
  case bge => exact branch_result rfl (Bool.not_iff_not.trans (hlt.not.trans not_lt))
  case bltu => exact branch_result rfl hltu
  case bgeu => exact branch_result rfl (Bool.not_iff_not.trans (hltu.not.trans not_lt))

/-- Settles O34: by what the instruction's answer can be; every answer but that to a misaligned target is in
`FETCH_REQUEST`. -/
theorem onlyMisalignedTransfersFault : Obligations.OnlyMisalignedTransfersFault := by
  intro i s t he hrun
  have hf : t.hart = .faulted := (runState_faulted_iff t).mp hrun
  cases exec_cases he with
  | misaligned target _ htransfer htarget ha =>
    exact ⟨htransfer, target, htarget, ha, raiseTarget_frame s (destReg i) target⟩
  | writes => simp at hf
  | advances => simp at hf
  | stores => simp at hf
  | branches => simp at hf
  | jumps => simp at hf

end Sys2Proof.Proofs
end

section
/-! PROOFS. Family `47_jumps.md`: where JAL and JALR go, and the link they write (O28, O29). -/

namespace Sys2Proof.Machine

/-! ### The two ways a jump ends (R310, R311, R313) -/

theorem jump_of_aligned (s : State) (rd : RegIdx) {target : Word} (ha : target.toNat % 4 = 0) :
    s.jump rd target = .next ((s.schedule rd s.nextPc).complete target) := by
  rw [jump_answer, if_pos ((aligned4_iff _).mpr ha)]

theorem jump_of_misaligned (s : State) (rd : RegIdx) {target : Word} (ha : target.toNat % 4 ≠ 0) :
    s.jump rd target = .next (s.raiseTarget (some rd) target) := by
  rw [jump_answer, if_neg (ha ∘ (aligned4_iff _).mp)]

theorem schedule_complete_completes (s : State) (rd : RegIdx) (v target : Word) :
    Completes s ((s.schedule rd v).complete target) target := by
  constructor <;> simp

/-- An instruction whose meaning is `jump` to `target`. -/
theorem jump_result {i : Instr} {s : State} {rd : RegIdx} {target : Word} (hexec : exec i s = s.jump rd target) :
    JumpResult s i rd target := by
  refine ⟨fun ha => ?aligned, fun ha => ?misaligned⟩
  case aligned =>
    exact ⟨_, hexec.trans (jump_of_aligned s rd ha), schedule_reg s rd s.nextPc,
      byteAt_congr (schedule_mem s rd s.nextPc) (schedule_params s rd s.nextPc),
      schedule_complete_completes s rd s.nextPc target⟩
  case misaligned =>
    exact ⟨_, hexec.trans (jump_of_misaligned s rd ha), raiseTarget_frame s (some rd) target⟩

end Sys2Proof.Machine

namespace Sys2Proof.Proofs

open Sys2Proof.Machine

/-- Settles O28: JAL is `jump` to pc + imm_J. -/
theorem jalLinksAndGoes : Obligations.JalLinksAndGoes := fun _ _ _ => jump_result rfl

/-- Settles O29: JALR is `jump` to a target computed before the link is scheduled; its mask rounds down to
an even address. -/
theorem jalrLinksAndGoes : Obligations.JalrLinksAndGoes := by
  intro s rd rs1 imm
  have htarget := clearBit0_eq (s.effAddr rs1 imm)
  exact jump_result (congrArg (s.jump rd) htarget)

end Sys2Proof.Proofs
end

section
/-! PROOFS. Family `48_system.md`: what ECALL and EBREAK write to x1 (O30). -/

namespace Sys2Proof.Proofs

open Sys2Proof.Machine

/-- Settles O30: both end in `writeBack` to x1. -/
theorem systemCallsWriteTheirValuesToX1 : Obligations.SystemCallsWriteTheirValuesToX1 :=
  fun _ => ⟨writeBack_result rfl rfl, writeBack_result rfl rfl⟩

end Sys2Proof.Proofs
end

section
/-! PROOFS. Family `70_reset_and_hazards.md`: where a boot image lies (O13), what an external reset leaves
(O39), and which beats of a store it can cut off (O50). -/

namespace Sys2Proof.Machine

/-! ### The boot image (R373) -/

theorem byte_bootMemory_of_lt {image : List Byte} {j : Nat} (h : j < image.length) :
    (bootMemory image).byte j = image[j] := by
  rw [byte_bootMemory, List.getElem?_eq_getElem h, Option.getD_some]

theorem byte_bootMemory_of_le {image : List Byte} {j : Nat} (h : image.length ≤ j) :
    (bootMemory image).byte j = Config.powerOnByte j := by
  rw [byte_bootMemory, List.getElem?_eq_none h, Option.getD_none]

/-- Below the size of memory a byte address is its own physical address (R63). -/
theorem physAddr_ofNat_of_lt {d k : Nat} (hd : d ∣ 2 ^ 31) (hk : k < 2 * d) : physAddr d (BitVec.ofNat 32 k) = k := by
  rw [physAddr_eq, BitVec.toNat_ofNat, Nat.mod_mod_of_dvd _ (double_depth_dvd hd), Nat.mod_eq_of_lt hk]

theorem cellAt_of_lt {d k : Nat} (hk : k < d) (m : Memory) : cellAt d m k = m.byte (2 * k + 1) ++ m.byte (2 * k) := by
  rw [cellAt, Nat.mod_eq_of_lt hk]

/-! ### An external reset inside a store (R375) -/

/-- More beats than a write has are all of its beats. -/
theorem memWriteBeats_min (j d : Nat) (m : Memory) (w : Width) (a v : Word) :
    memWriteBeats (min j (writeBeats w a v).length) d m w a v = memWriteBeats j d m w a v := by
  rw [memWriteBeats, memWriteBeats, ← List.take_eq_take_min]

/-- A reset leaves memory as the cycles before it have. -/
theorem resetAfter_of_showsMemory {k : Nat} {s : State} {m : Memory} (h : ShowsMemory k s m) :
    ∃ t, resetAfter k s = .next t ∧ t.mem = m := by
  obtain ⟨u, hu, -, hm⟩ := h
  exact ⟨u.externalReset, by simp only [resetAfter, hu], hm⟩

end Sys2Proof.Machine

namespace Sys2Proof.Proofs

open Sys2Proof.Machine

/-- Settles O13: the addresses of an image that fits are different bytes of memory, so byte `i` of it is physical
byte `i`. -/
theorem bootImageLiesAtItsAddresses : Obligations.BootImageLiesAtItsAddresses := by
  intro draws image p hfit s
  refine ⟨fun i hi => ?byte, fun k hk => ?cell, fun k hk => ?oddTail⟩
  case byte =>
    have hphys : physAddr (memDepth p) (BitVec.ofNat 32 i) = i :=
      physAddr_ofNat_of_lt (memDepth_dvd p) (by omega)
    exact (congrArg (bootMemory image).byte hphys).trans (byte_bootMemory_of_lt hi)
  case cell =>
    have hcell := cellAt_of_lt (d := memDepth p) (k := k) (by omega) (bootMemory image)
    rwa [byte_bootMemory_of_lt hk, byte_bootMemory_of_lt (by omega)] at hcell
  case oddTail =>
    have hcell := cellAt_of_lt (d := memDepth p) (k := k) (by omega) (bootMemory image)
    rwa [byte_bootMemory_of_le hk.le, byte_bootMemory_of_lt (by omega)] at hcell

/-- Settles O39: a reset ends at a boundary with no write pending, so registers read as they are stored. -/
theorem externalResetState : Obligations.ExternalResetState := by
  intro s t
  have hregs (i : RegIdx) (hi : i ≠ 0) : t.reg i = s.regs[i] := by
    rw [reg_of_none t (externalReset_pending s), if_neg hi]
    rfl
  have hflight : t.inFlight = [] := inFlight_of_quiet (externalReset_atBoundary s).2
  exact ⟨rfl, rfl, rfl, rfl, rfl, reg_zero t, hregs, rfl, rfl, rfl, hflight,
    byteAt_congr (externalReset_mem s) (externalReset_params s)⟩

/-- Settles O50: `k` cycles perform `k - 3` beats or all there are, so each number of beats is what a reset
three cycles later leaves. -/
theorem resetInsideAStoreLeavesAPrefix : Obligations.ResetInsideAStoreLeavesAPrefix := by
  intro s i w rs1 rs2 imm hb ha hf hd hw hu
  have hreset {k : Nat} (hk : k ≤ referenceSteps i (accessOdd s i)) :=
    resetAfter_of_showsMemory (showsMemory_of_store hb ha hf hd hw hu hk)
  refine ⟨fun k hk => ?onlyPrefixes, fun j hj => ?everyPrefix⟩
  case onlyPrefixes =>
    obtain ⟨t, ht, hm⟩ := hreset hk
    exact ⟨_, t, ht, min_le_right _ _, hm.trans (memWriteBeats_min (k - 3) _ _ _ _ _).symm⟩
  case everyPrefix =>
    have hsteps := referenceSteps_of_store hw s (s.reg rs2)
    have hlen := writeBeats_cases w (s.effAddr rs1 imm) (s.reg rs2)
    have hk : j + 3 ≤ referenceSteps i (accessOdd s i) := by rw [hsteps]; split <;> omega
    obtain ⟨t, ht, hm⟩ := hreset hk
    exact ⟨j + 3, t, hk, ht, hm⟩

end Sys2Proof.Proofs
end
